-- ==== Sys2Proof/Word.lean ====
section
/-! DEFINITION. The bit-vector types of the engine (R12, R13, R90): bytes, host words, ROM codes. Every value is unsigned. -/

namespace Sys2Proof

/-- A byte: IMM8, DATA, CRC.ACC, one byte of BUF or of a ROM code. -/
abbrev Byte := BitVec 8

/-- The LEN field of a command word (R90). -/
abbrev Half := BitVec 16

/-- A 32-bit host word: a register as the host sees it, or a command word (R22, R90). -/
abbrev Word := BitVec 32

/-- An 8-byte ROM code as the 64-bit value of R64 and R181 (`as_u64`): byte `j` at bits `8j+7 .. 8j`, and ROM code bit
position `k` of R13 at bit `k - 1`. -/
abbrev RomCode := BitVec 64

end Sys2Proof
end

