-- ==== Sys2Proof/Syntax.lean ====
section
/-! DEFINITION. The commands of the engine (R91, one constructor per row of spec/opcode_table.json), the host-visible registers
(R22), and the lines of the assembler (R97, R100). -/

namespace Sys2Proof

/-- A command with its operands (R91, R94). Each operand has the exact width of its field, so every term is a command the
engine can be given; a field a command does not use is no operand of it. -/
inductive Instr where
  | reset
  | writeBit (b : Bool)
  | readBit
  | writeByte (v : Byte)
  | readByte
  | writeBlock (len : Half)
  | readBlock (len : Half)
  | writeRomCode
  | readRom
  | searchFirst
  | searchNext
  | verifyRom
  | crc8Step (b : Byte)
  | crc8Block (len : Half)
  deriving DecidableEq, Repr

/-- The host-visible registers of R22. `buf w` is the word of the block buffer at offset `0x100 + 4w` (R32). -/
inductive Reg where
  | ctrl
  | cmd
  | status
  | data
  | crc
  | romLo
  | romHi
  | sromLo
  | sromHi
  | search
  | info
  | buf (w : Nat)
  deriving DecidableEq, Repr

/-- A line of a host program in the assembler's syntax (R97), with the pseudo-instructions of R100. Operands are the numbers as
written, so a line may be one that the assembler refuses (see WellFormed). -/
inductive AsmLine where
  | reset
  | writeBit (b : Nat)
  | readBit
  | writeByte (v : Nat)
  | readByte
  | writeBlock (n : Nat)
  | readBlock (n : Nat)
  | writeRomCode
  | readRom
  | searchFirst
  | searchNext
  | verifyRom
  | crc8Step (v : Nat)
  | crc8Block (n : Nat)
  | wr (r : Reg) (v : Nat)
  | rd (r : Reg)
  | wait
  | check (code : Nat)
  | matchRom
  | skipRom
  | clearDone
  deriving DecidableEq, Repr

end Sys2Proof
end

