-- ==== Sys2Proof/WellFormed.lean ====
section
/-! DEFINITION. What the assembler refuses (R97: an operand out of range is refused, not truncated; where R97 gives no range, log
entry 25). A term of `Instr` needs no
check: its operands have the exact widths of their fields (R90, R94). -/

namespace Sys2Proof

/-- A register name that stands for a place in the window: `BUF+4w` lies in 0x100 to 0x1FF, where R22 has BUF. DESIGN CHOICE (log
entry 25): that the assembler refuses another `w` is the model's; R97 gives no range. -/
def Reg.wellFormed : Reg → Bool
  | .buf w => decide (w < 64)
  | _ => true

/-- R97: `b` is 0 or 1, a byte operand is at most 255, a length at most 65535. DESIGN CHOICE (log entry 25): neither R97 nor R100
gives a range for the value of WR, which is at most 32 bits here, as its access is, or for the code of CHECK, which is at most 15
here, as RESULT can show. -/
def AsmLine.wellFormed : AsmLine → Bool
  | .writeBit b => decide (b ≤ 1)
  | .writeByte v => decide (v ≤ 255)
  | .crc8Step v => decide (v ≤ 255)
  | .writeBlock n => decide (n ≤ 65535)
  | .readBlock n => decide (n ≤ 65535)
  | .crc8Block n => decide (n ≤ 65535)
  | .wr r v => r.wellFormed && decide (v < 2 ^ 32)
  | .rd r => r.wellFormed
  | .check code => decide (code ≤ 15)
  | _ => true

end Sys2Proof
end

