-- ==== Sys2Proof/Decode.lean ====
section
/-! DEFINITION. Command words: the decoder (R90, R91, R94 to R96), the encoder (R97) and the opcode map. -/

namespace Sys2Proof

/-- Why a word is no command: its OPCODE is not in the map (R95). -/
inductive DecodeError where
  | illegalOpcode (op : Byte)
  deriving DecidableEq, Repr

/-- OPCODE, `w[7:0]` (R90). -/
def opcodeField (w : Word) : Byte := w.extractLsb' 0 8

/-- IMM8, `w[15:8]` (R90). -/
def immField (w : Word) : Byte := w.extractLsb' 8 8

/-- LEN, `w[31:16]` (R90). -/
def lenField (w : Word) : Half := w.extractLsb' 16 16

/-- The decoder: total, selected by OPCODE alone (R91, R94, R95, R96). WRITE_BIT takes `w[8]` and ignores `w[15:9]`. -/
def decodeWord (w : Word) : Except DecodeError Instr :=
  match (opcodeField w).toNat with
  | 0x01 => .ok .reset
  | 0x02 => .ok (.writeBit (w.getLsbD 8))
  | 0x03 => .ok .readBit
  | 0x04 => .ok (.writeByte (immField w))
  | 0x05 => .ok .readByte
  | 0x06 => .ok (.writeBlock (lenField w))
  | 0x07 => .ok (.readBlock (lenField w))
  | 0x08 => .ok .writeRomCode
  | 0x09 => .ok .readRom
  | 0x0A => .ok .searchFirst
  | 0x0B => .ok .searchNext
  | 0x0C => .ok .verifyRom
  | 0x10 => .ok (.crc8Step (immField w))
  | 0x11 => .ok (.crc8Block (lenField w))
  | _ => .error (.illegalOpcode (opcodeField w))

/-- The OPCODE of each command (R91). -/
def Instr.opcode : Instr → Byte
  | .reset => 0x01
  | .writeBit _ => 0x02
  | .readBit => 0x03
  | .writeByte _ => 0x04
  | .readByte => 0x05
  | .writeBlock _ => 0x06
  | .readBlock _ => 0x07
  | .writeRomCode => 0x08
  | .readRom => 0x09
  | .searchFirst => 0x0A
  | .searchNext => 0x0B
  | .verifyRom => 0x0C
  | .crc8Step _ => 0x10
  | .crc8Block _ => 0x11

/-- The IMM8 field the assembler writes (R97); 0 where the command has no such operand. -/
def Instr.imm : Instr → Byte
  | .writeBit b => if b then 1 else 0
  | .writeByte v => v
  | .crc8Step b => b
  | _ => 0

/-- The LEN field the assembler writes (R97); 0 where the command has no such operand. -/
def Instr.len : Instr → Half
  | .writeBlock n => n
  | .readBlock n => n
  | .crc8Block n => n
  | _ => 0

/-- The command word of R90: LEN, IMM8, OPCODE from the top. -/
def packWord (len : Half) (imm op : Byte) : Word := (len ++ imm ++ op : BitVec (16 + 8 + 8))

/-- The word the assembler writes to CMD (R97). -/
def encode (i : Instr) : Word := packWord i.len i.imm i.opcode

/-- The command that a word holds whose bits above `nbits` are 0, numbered as spec/opcode_table.json numbers them: bit 0 is the
least significant bit of the one 32-bit command word (R90). -/
def decodeTableWord (nbits w : Nat) : Option Instr :=
  match decodeWord (BitVec.ofNat 32 (w % 2 ^ nbits)) with
  | .ok i => some i
  | .error _ => none

end Sys2Proof
end

