-- ==== Sys2Proof/Config.lean ====
section
/-! DEFINITION. What an implementation fixes (the parameters of R11) and the values the spec leaves open (free values). -/

namespace Sys2Proof

/-- The timing table in ticks of a quarter microsecond (R8, R110). Every entry is a lower bound (R15). -/
structure Timing where
  tA : Nat
  tB : Nat
  tC : Nat
  tD : Nat
  tE : Nat
  tF : Nat
  tG : Nat
  tH : Nat
  tI : Nat
  tJ : Nat
  deriving DecidableEq, Repr

/-- R110: the standard-speed profile. -/
def Timing.standard : Timing :=
  { tA := 24, tB := 256, tC := 240, tD := 40, tE := 36, tF := 220, tG := 0, tH := 1920, tI := 280, tJ := 1640 }

/-- SEARCH_ZERO_TEST (R11, R205). -/
inductive ZeroTest where
  | allBytes
  | familyByte
  deriving DecidableEq, Repr

/-- The parameters of R11 that a step reads. No step and no reset changes them (R31, R35). State holds them, so that one step
function covers every value the spec admits (log entry 3). -/
structure Params where
  bufSize : Nat
  cmdReadRom : Byte
  cmdSearchRom : Byte
  zeroTest : ZeroTest
  timing : Timing
  deriving DecidableEq, Repr

/-- The spec's own defaults (R11, R110). -/
def Params.default : Params :=
  { bufSize := 256, cmdReadRom := 0x33, cmdSearchRom := 0xF0, zeroTest := .allBytes, timing := Timing.standard }

/-- R11: `1 ≤ BUF_SIZE ≤ 256`. -/
abbrev Params.wf (p : Params) : Prop := 1 ≤ p.bufSize ∧ p.bufSize ≤ 256

/-- OWB_BASE (R11, R60, U14): the platform's choice. -/
opaque Config.owbBase : Nat

/-- The line level at the `n`-th sample, where the environment's list of levels has run out (R9, U4: any value). -/
opaque Config.lineLevel : Nat → Bool

/-- By how many ticks the engine holds the `n`-th phase beyond its table value (R15, R111, U5: any value). -/
opaque Config.phaseExtra : Nat → Nat

/-- What the `n`-th host read of a register that is open while a command runs returns (R67, U2: any value). -/
opaque Config.busyRead : Nat → Word

/-- What byte `i` of BUF holds after the `n`-th reset until it is written (R32, R270, U1: any value). -/
opaque Config.bufPowerOn : Nat → Nat → Byte

end Sys2Proof
end

