-- ==== Sys2Proof/Machine/State.lean ====
section
/-! DEFINITION. The engine's state as plain data (10_state.md), its value at reset (R270), and the reasons a step can stop. -/

namespace Sys2Proof.Machine

/-- PIN, the drive state of the bus line (R9, R38). -/
inductive Pin where
  | low
  | released
  deriving DecidableEq, Repr

/-- The sequencer (R37): IDLE, or RUN with the accepted command word. STATUS.BUSY is 1 exactly when it is not IDLE, so BUSY has
no second home (log entry 2). The position inside the command's pseudocode is `State.pos`. -/
inductive Sequencer where
  | idle
  | run (w : Word)
  deriving DecidableEq, Repr

/-- The named codes of STATUS.RESULT (R241). Codes 8 to 15 are never produced (U11). -/
inductive ResultCode where
  | ok
  | notPresent
  | crcMismatch
  | verifyMismatch
  | invalidResolution
  | invalidArgument
  | notFound
  | illegalCommand
  deriving DecidableEq, Repr

/-- CTRL (R23). -/
structure Ctrl where
  en : Bool
  crcEn : Bool
  deriving DecidableEq, Repr

/-- The stored fields of STATUS (R25); BUSY is read off the sequencer. -/
structure Flags where
  done : Bool
  ovr : Bool
  present : Bool
  found : Bool
  result : ResultCode
  deriving DecidableEq, Repr

/-- The search cursor (R200): SROM and the fields of SEARCH (R29, R30). -/
structure Cursor where
  srom : RomCode
  ld : BitVec 7
  lfd : BitVec 4
  exh : Bool
  deriving DecidableEq, Repr

/-- What a search pass has in hand: the cursor it walks and its last zero (R16, R39). -/
structure Pass where
  cursor : Cursor
  lastZero : Nat
  deriving DecidableEq, Repr

/-- The cursor that a search pass is given by reference (R202): the registers, or VERIFY_ROM's own (R212). -/
inductive Walked where
  | registers
  | own
  deriving DecidableEq, Repr

/-- Where in its pseudocode a running command stands (R37): before its first action (`start`), at its checks (R243), in a phase of
R116 to R118, just past PRESENT's write, or at its last action, `complete(code)`. A phase carries what its procedure has
in hand: `s1` of R116, the bit of R117, `v` of R118. -/
inductive Place where
  | start
  | checks
  | resetG
  | resetH
  | resetI
  | resetJ (s1 : Bool)
  | present
  | writeLow (b : Bool)
  | writeRel (b : Bool)
  | readLow
  | readRel
  | readEnd (v : Bool)
  | last (code : ResultCode)
  deriving DecidableEq, Repr

/-- The position of R37: the phase, the byte index, the bit index (in a search pass, the position `k`), the ticks of the phase that
have passed and that remain; and the number of points passed (log entry 1). -/
structure Position where
  place : Place
  byte : Nat
  bit : Nat
  past : Nat
  left : Nat
  points : Nat
  deriving DecidableEq, Repr

/-- The start of a command, and the position when none runs. -/
def Position.start : Position := { place := .start, byte := 0, bit := 0, past := 0, left := 0, points := 0 }

/-- The temporaries of R39 that outlive a phase: the bits read of the current byte, the bytes read of READ_ROM's `rbuf`, the bit `a`
of a search pair, `last_zero` of a pass at its positions, and VERIFY_ROM's private cursor (`vrom`, `vld`, `vlfd`, `vexh`). -/
structure Temps where
  bits : List Bool
  rbuf : List Byte
  a : Option Bool
  lastZero : Option Nat
  own : Option Cursor
  deriving DecidableEq, Repr

/-- No temporaries: they have no value outside a command (R39). -/
def Temps.none : Temps := { bits := [], rbuf := [], a := Option.none, lastZero := Option.none, own := Option.none }

/-- The written bytes of the block buffer, by index (R32): addresses strictly rising. An index that is not listed has not been
written since reset and has no stored value; what it reads as is `State.bufByte` (U1). -/
abbrev Memory := List Host.Cell

/-- One event of the bus trace (R111): a phase with its length in ticks, or a sample. `cut` is a phase that a hardware reset cut
short (R271); its length is not recorded. -/
inductive BusEvent where
  | low (ticks : Nat)
  | rel (ticks : Nat)
  | smp (level : Bool)
  | cut (pin : Pin)
  deriving DecidableEq, Repr

/-- What the host does at its port: `MemRead` and `MemWrite` of `size` bytes at a window offset (R14, R60, R61), a poll of WAIT, or
the reset input asserted (R270, R271).

A WAIT (R100) is a row of polls, the last marked so: each reads STATUS, and the first that sees BUSY = 0 ends the WAIT, with the
rest of its polls not made. The last poll is the one that comes when the command is over.

`look` is no access: the model's step ends where it lands, that many ticks into the phase, and the next step goes on from there
(log entry 24). It makes the position of R37 a state between two steps. -/
inductive HostOp where
  | read (off size : Nat)
  | write (off size : Nat) (v : Word)
  | poll (last : Bool)
  | reset
  | look (ticks : Nat)
  deriving DecidableEq, Repr

/-- When a host access reaches the engine if a command is running at its turn: only after it, or at the first
point of the command that is number `pos` or later. An idle engine takes it at once. -/
inductive Arrival where
  | whenIdle
  | during (pos : Nat)
  deriving DecidableEq, Repr

/-- One host access to come. -/
structure HostReq where
  arrival : Arrival
  op : HostOp
  deriving DecidableEq, Repr

/-- The model's own fields: the inputs that the host and the bus environment supply, the indexes of the free values, and the
records of what the outside sees (log entries 4 to 8, 12). They survive a hardware reset. -/
structure Env where
  host : List HostReq
  replies : List Word
  line : List Bool
  samples : Nat
  phases : Nat
  draws : Nat
  resets : Nat
  trace : List BusEvent
  deriving DecidableEq, Repr

/-- The engine (10_state.md), every piece of state R22 to R38 name. -/
structure State where
  cfg : Params
  ctrl : Ctrl
  cmd : Word
  flags : Flags
  data : Byte
  acc : Byte
  rom : RomCode
  cursor : Cursor
  buf : Memory
  seq : Sequencer
  pos : Position
  tmp : Temps
  pin : Pin
  env : Env
  deriving DecidableEq, Repr

/-- The fresh cursor of R200 around a code: LD = 0, LFD = 0, EXH = 0. -/
def Cursor.fresh (srom : RomCode) : Cursor := { srom := srom, ld := 0, lfd := 0, exh := false }

/-- R270: the state right after reset, with the spec's default parameters (R11), nothing listed in BUF (U1), and no input given
yet. -/
def State.reset : State where
  cfg := Params.default
  ctrl := { en := false, crcEn := false }
  cmd := 0
  flags := { done := false, ovr := false, present := false, found := false, result := .ok }
  data := 0
  acc := 0
  rom := 0
  cursor := Cursor.fresh 0
  buf := []
  seq := .idle
  pos := Position.start
  tmp := Temps.none
  pin := .released
  env := { host := [], replies := [], line := [], samples := 0, phases := 0, draws := 0, resets := 0, trace := [] }

/-- There is no fault: "No command raises a trap, halts the engine or leaves it in a fault state" (R240). -/
inductive Fault where
  deriving DecidableEq, Repr

/-- Why a step is refused. -/
inductive Refusal where
  /-- Raised by an arm of `exec` for a command that has no meaning yet (none is left). Safe: the model stops. -/
  | notModelled (mnemonic : String)
  /-- Raised by `step` on an idle engine whose next host access is not an aligned 32-bit one: "A model refuses such an access (it
  has no step)" (R61, U3). Safe: the model stops and no state changes. -/
  | unadmittedAccess (off size : Nat)
  /-- Raised by `step` on a state that is none of the engine's: a command running at a place that its pseudocode does not have. No
  step from a state of the engine leaves one. Safe: the model stops. -/
  | noSuchPosition
  deriving DecidableEq, Repr

end Sys2Proof.Machine
end

