-- ==== Sys2Proof/Machine/Operands.lean ====
section
/-! DEFINITION. Bits and bytes of host words, wire bytes and ROM codes (R12, R13, R64, R65, R123, R180), and where the registers
lie in the window (R22). -/

namespace Sys2Proof.Machine

/-- The bits of a byte in wire order, least significant first (R123). -/
def byteBits (v : Byte) : List Bool := [v.getLsbD 0, v.getLsbD 1, v.getLsbD 2, v.getLsbD 3, v.getLsbD 4, v.getLsbD 5, v.getLsbD 6, v.getLsbD 7]

/-- The byte whose bit `i` is the `i`-th bit read (R123); bits past the list are 0. -/
def byteOfBits : List Bool → Byte
  | [] => 0
  | b :: bs => (byteOfBits bs <<< 1) ||| (if b then 1 else 0)

/-- Byte `j` of a host word: bits `8j+7 .. 8j` (R64). -/
def wordByte (w : Word) (j : Nat) : Byte := w.extractLsb' (8 * j) 8

/-- The host word of four bytes, the first lowest: `{b3, b2, b1, b0}` (R32, R64). -/
def wordOfBytes (b0 b1 b2 b3 : Byte) : Word := (b3 ++ b2 ++ b1 ++ b0 : BitVec (8 + 8 + 8 + 8))

/-- Byte `c[j]` of a ROM code (R64, R180). -/
def romByte (c : RomCode) (j : Nat) : Byte := c.extractLsb' (8 * j) 8

/-- The eight bytes of a ROM code, `c[0]` first (R180). -/
def romBytes (c : RomCode) : List Byte :=
  [romByte c 0, romByte c 1, romByte c 2, romByte c 3, romByte c 4, romByte c 5, romByte c 6, romByte c 7]

/-- The ROM code of a list of bytes, `c[0]` first (R180). -/
def romOfBytes : List Byte → RomCode
  | [] => 0
  | b :: bs => (romOfBytes bs <<< 8) ||| b.setWidth 64

/-- `rombit(c, k)`: the bit at ROM code position `k`, 1-based (R13). -/
def rombit (c : RomCode) (k : Nat) : Bool := c.getLsbD (k - 1)

/-- `setrombit(c, k, d)`: `c` with the bit at position `k` replaced by `d` (R13). -/
def setrombit (c : RomCode) (k : Nat) (d : Bool) : RomCode :=
  let mask : RomCode := (1 : RomCode) <<< (k - 1)
  if d then c ||| mask else c &&& ~~~mask

/-- ROM_LO or SROM_LO: `{c[3], c[2], c[1], c[0]}` (R28, R29). -/
def romLow (c : RomCode) : Word := c.extractLsb' 0 32

/-- ROM_HI or SROM_HI: `{c[7], c[6], c[5], c[4]}` (R28, R29). -/
def romHigh (c : RomCode) : Word := c.extractLsb' 32 32

/-- A write of ROM_LO or SROM_LO: bytes 0 to 3 replaced (R63). -/
def setRomLow (c : RomCode) (v : Word) : RomCode := (romHigh c ++ v : BitVec (32 + 32))

/-- A write of ROM_HI or SROM_HI: bytes 4 to 7 replaced (R63). -/
def setRomHigh (c : RomCode) (v : Word) : RomCode := (v ++ romLow c : BitVec (32 + 32))

/-- The register at an offset of the window (R22, R77); none for a reserved offset (R33). -/
def regAt (off : Nat) : Option Reg :=
  match off with
  | 0x000 => some .ctrl
  | 0x004 => some .cmd
  | 0x008 => some .status
  | 0x00C => some .data
  | 0x010 => some .crc
  | 0x014 => some .romLo
  | 0x018 => some .romHi
  | 0x01C => some .sromLo
  | 0x020 => some .sromHi
  | 0x024 => some .search
  | 0x028 => some .info
  | n => if 0x100 ≤ n ∧ n < 0x200 then some (.buf ((n - 0x100) / 4)) else none

/-- The offset of a register (R22); `BUF+4w` is at `0x100 + 4w`. -/
def regOffset : Reg → Nat
  | .ctrl => 0x000
  | .cmd => 0x004
  | .status => 0x008
  | .data => 0x00C
  | .crc => 0x010
  | .romLo => 0x014
  | .romHi => 0x018
  | .sromLo => 0x01C
  | .sromHi => 0x020
  | .search => 0x024
  | .info => 0x028
  | .buf w => 0x100 + 4 * w

/-- The host address of a window offset (R60). -/
def hostAddress (off : Nat) : Nat := Config.owbBase + off

/-- The window offset of a host address: `off = address - OWB_BASE`, for the 0x200 bytes of the window (R60). -/
def windowOffset (addr : Nat) : Option Nat :=
  if Config.owbBase ≤ addr ∧ addr < Config.owbBase + 0x200 then some (addr - Config.owbBase) else none

/-- The commands of the bus class: OPCODE 0x01 to 0x0C (R91). -/
def isBusCommand (i : Instr) : Bool := decide (1 ≤ i.opcode.toNat ∧ i.opcode.toNat ≤ 0x0C)

/-- The length a block command checks against BUF_SIZE: OPCODE 0x06, 0x07 and 0x11 (R243). -/
def blockLength : Instr → Option Half
  | .writeBlock n => some n
  | .readBlock n => some n
  | .crc8Block n => some n
  | _ => none

end Sys2Proof.Machine
end

