-- ==== Sys2Proof/Machine/Flags.lean ====
section
/-! DEFINITION. The flags and the packed registers: CTRL (R23), STATUS (R25, R34), SEARCH (R30), INFO (R31), the result codes
(R241). Reserved bits read 0 and are not stored (R33). -/

namespace Sys2Proof.Machine

/-- The number of a result code (R241). -/
def resultBits : ResultCode → BitVec 4
  | .ok => 0
  | .notPresent => 1
  | .crcMismatch => 2
  | .verifyMismatch => 3
  | .invalidResolution => 4
  | .invalidArgument => 5
  | .notFound => 6
  | .illegalCommand => 7

/-- STATUS.BUSY: 1 exactly when the sequencer is not IDLE (R37). -/
def State.busy (s : State) : Bool :=
  match s.seq with
  | .idle => false
  | .run _ => true

/-- One bit. -/
def bit (b : Bool) : BitVec 1 := BitVec.ofBool b

/-- CTRL as read (R23). -/
def ctrlWord (c : Ctrl) : Word := (0#30 ++ bit c.crcEn ++ bit c.en : BitVec (30 + 1 + 1))

/-- CTRL as written: `CTRL[1:0] <- v[1:0]` (R63). -/
def ctrlOfWord (v : Word) : Ctrl := { en := v.getLsbD 0, crcEn := v.getLsbD 1 }

/-- STATUS as read (R25). -/
def statusWord (busy : Bool) (f : Flags) : Word :=
  (0#20 ++ resultBits f.result ++ 0#3 ++ bit f.found ++ bit f.present ++ bit f.ovr ++ bit f.done ++ bit busy
    : BitVec (20 + 4 + 3 + 1 + 1 + 1 + 1 + 1))

/-- A host write of STATUS: DONE and OVR are cleared where 1 is written, the rest stays (R25, R63). -/
def w1c (v : Word) (f : Flags) : Flags :=
  { f with done := f.done && !v.getLsbD 1, ovr := f.ovr && !v.getLsbD 2 }

/-- SEARCH as read (R30). -/
def searchWord (c : Cursor) : Word :=
  (0#15 ++ bit c.exh ++ 0#4 ++ c.lfd ++ 0#1 ++ c.ld : BitVec (15 + 1 + 4 + 4 + 1 + 7))

/-- SEARCH as written: `LD <- v[6:0]; LFD <- v[11:8]; EXH <- v[16]`, no legality check (R30, R63). -/
def searchOfWord (v : Word) (c : Cursor) : Cursor :=
  { c with ld := v.extractLsb' 0 7, lfd := v.extractLsb' 8 4, exh := v.getLsbD 16 }

/-- INFO as read: `bits [15:0] = BUF_SIZE, bits [31:16] = 0` (R31). -/
def infoWord (p : Params) : Word := (0#16 ++ BitVec.ofNat 16 p.bufSize : BitVec (16 + 16))

/-- PRESENT takes the result of a bus reset (R25, R34). -/
def State.setPresent (s : State) (p : Bool) : State := { s with flags := { s.flags with present := p } }

/-- FOUND takes the result of a search or verify (R25, R34). -/
def State.setFound (s : State) (b : Bool) : State := { s with flags := { s.flags with found := b } }

/-- A host write is dropped: `STATUS.OVR <- 1` (R66). -/
def State.setOverrun (s : State) : State := { s with flags := { s.flags with ovr := true } }

end Sys2Proof.Machine
end

