-- ==== Sys2Proof/Machine/Ops.lean ====
section
/-! DEFINITION. The named operations: the block buffer, acceptance and completion of a command (R92, R93), hardware reset (R270,
R271), the host's accesses (R62, R63, R66, R67), the bus phases (R111), and the frame every command runs in (R243). -/

namespace Sys2Proof.Machine

/-! ## Plain updates -/

/-- DATA takes a byte (R26). -/
def State.setData (s : State) (v : Byte) : State := { s with data := v }

/-- CRC.ACC takes a byte (R27). -/
def State.setAcc (s : State) (v : Byte) : State := { s with acc := v }

/-- The ROM code register takes a code (R28). -/
def State.setRom (s : State) (c : RomCode) : State := { s with rom := c }

/-- The search cursor takes a value (R29, R30). -/
def State.setCursor (s : State) (c : Cursor) : State := { s with cursor := c }

/-- The host accesses still to come. -/
def State.setHost (s : State) (h : List HostReq) : State := { s with env := { s.env with host := h } }

/-- A host read returns a value. -/
def State.reply (s : State) (v : Word) : State := { s with env := { s.env with replies := s.env.replies ++ [v] } }

/-! ## The block buffer -/

/-- The stored byte at an address, if one has been written. -/
def memRead : Memory → Nat → Option Byte
  | [], _ => none
  | (a, v) :: m, i => if a = i then some v else memRead m i

/-- A byte is stored; the list stays sorted. -/
def memWrite : Memory → Nat → Byte → Memory
  | [], i, v => [(i, v)]
  | (a, x) :: m, i, v =>
    if i < a then (i, v) :: (a, x) :: m
    else if i = a then (i, v) :: m
    else (a, x) :: memWrite m i v

/-- The canonical form: addresses strictly rising. -/
abbrev Memory.wf (m : Memory) : Prop := m.Pairwise fun x y => x.1 < y.1

/-- `BUF[i]` (R32): the byte written last; before any write since reset, any value, the same one each time (U1); 0 at or above
BUF_SIZE (U12). -/
def State.bufByte (s : State) (i : Nat) : Byte :=
  if i < s.cfg.bufSize then (memRead s.buf i).getD (Config.bufPowerOn s.env.resets i) else 0

/-- `BUF[i] <- v` (R32); ignored at or above BUF_SIZE. -/
def State.setBufByte (s : State) (i : Nat) (v : Byte) : State :=
  if i < s.cfg.bufSize then { s with buf := memWrite s.buf i v } else s

/-- `{BUF[4w+3], BUF[4w+2], BUF[4w+1], BUF[4w]}` (R32). -/
def State.bufWord (s : State) (w : Nat) : Word :=
  wordOfBytes (s.bufByte (4 * w)) (s.bufByte (4 * w + 1)) (s.bufByte (4 * w + 2)) (s.bufByte (4 * w + 3))

/-- A host word written to BUF (R63): byte `j` to `BUF[4w+j]`. -/
def State.setBufWord (s : State) (w : Nat) (v : Word) : State :=
  (((s.setBufByte (4 * w) (wordByte v 0)).setBufByte (4 * w + 1) (wordByte v 1)).setBufByte (4 * w + 2) (wordByte v 2)).setBufByte
    (4 * w + 3) (wordByte v 3)

/-! ## Acceptance, completion, hardware reset -/

/-- R92: a word is accepted and issued as a command. RESULT, PRESENT and FOUND stay. -/
def State.accept (s : State) (w : Word) : State :=
  { s with cmd := w, flags := { s.flags with done := false }, seq := .run w, pos := .start, tmp := .none }

/-- R93, `complete(code)`: the one way a command ends, an error included (R240, R246: nothing is saved, control goes nowhere). -/
def State.complete (s : State) (code : ResultCode) : State :=
  { s with pin := .released, flags := { s.flags with result := code, done := true }, seq := .idle, pos := .start, tmp := .none }

/-- R270, R271: every register takes its reset value; the parameters stay; BUF takes fresh unspecified contents. The inputs to
come and the records stay: they are the outside world's. -/
def State.hardReset (s : State) : State :=
  { State.reset with cfg := s.cfg, env := { s.env with resets := s.env.resets + 1 } }

/-! ## Host accesses -/

/-- R61: the only admitted access is a 32-bit one at a multiple of 4. A poll reads STATUS; the reset input is no access. -/
def HostOp.admitted : HostOp → Bool
  | .read off size => decide (size = 4 ∧ off % 4 = 0)
  | .write off size _ => decide (size = 4 ∧ off % 4 = 0)
  | .poll _ | .reset | .look _ => true

/-- The value of a register (R22 to R32). -/
def readReg (r : Reg) (s : State) : Word :=
  match r with
  | .ctrl => ctrlWord s.ctrl
  | .cmd => s.cmd
  | .status => statusWord s.busy s.flags
  | .data => s.data.setWidth 32
  | .crc => s.acc.setWidth 32
  | .romLo => romLow s.rom
  | .romHi => romHigh s.rom
  | .sromLo => romLow s.cursor.srom
  | .sromHi => romHigh s.cursor.srom
  | .search => searchWord s.cursor
  | .info => infoWord s.cfg
  | .buf w => s.bufWord w

/-- The value at an offset: a reserved offset reads 0 (R33). -/
def readAt (off : Nat) (s : State) : Word :=
  match regAt off with
  | some r => readReg r s
  | none => 0

/-- R63: a write to a register of the idle engine. DATA and INFO ignore it. -/
def writeReg (r : Reg) (v : Word) (s : State) : State :=
  match r with
  | .ctrl => { s with ctrl := ctrlOfWord v }
  | .cmd => s.accept v
  | .status => { s with flags := w1c v s.flags }
  | .data => s
  | .crc => s.setAcc (wordByte v 0)
  | .romLo => s.setRom (setRomLow s.rom v)
  | .romHi => s.setRom (setRomHigh s.rom v)
  | .sromLo => s.setCursor { s.cursor with srom := setRomLow s.cursor.srom v }
  | .sromHi => s.setCursor { s.cursor with srom := setRomHigh s.cursor.srom v }
  | .search => s.setCursor (searchOfWord v s.cursor)
  | .info => s
  | .buf w => s.setBufWord w v

/-- A write at an offset: a reserved offset ignores it (R33). -/
def writeAt (off : Nat) (v : Word) (s : State) : State :=
  match regAt off with
  | some r => writeReg r v s
  | none => s

/-- R67: the registers whose value is open while a command runs. A word of the buffer area that lies wholly at or above BUF_SIZE
is reserved (R77, log entry 11). -/
def openWhileBusy (r : Reg) (s : State) : Bool :=
  match r with
  | .ctrl | .cmd | .status | .info => false
  | .buf w => decide (4 * w < s.cfg.bufSize)
  | _ => true

/-- R66: the registers a write to which is dropped with OVR while a command runs. -/
def overrunsWhileBusy (r : Reg) (s : State) : Bool :=
  match r with
  | .data | .info => false
  | .buf w => decide (4 * w < s.cfg.bufSize)
  | _ => true

/-- R67: a host read while a command runs. An open register gives any value, a fresh draw each time (U2). -/
def busyRead (off : Nat) (s : State) : State :=
  match regAt off with
  | some r =>
    if openWhileBusy r s then
      ({ s with env := { s.env with draws := s.env.draws + 1 } } : State).reply (Config.busyRead s.env.draws)
    else s.reply (readReg r s)
  | none => s.reply 0

/-- R66: a host write while a command runs. -/
def busyWrite (off : Nat) (s : State) : State :=
  match regAt off with
  | some r => if overrunsWhileBusy r s then s.setOverrun else s
  | none => s

/-- The polls that a WAIT does not make any more are taken off, through its last. -/
def dropPolls : List HostReq → List HostReq
  | [] => []
  | r :: rest =>
    match r.op with
    | .poll last => if last then rest else dropPolls rest
    | _ => r :: rest

/-- A step of the idle engine: the next host access takes effect (R62, R63, R70), a poll, which sees BUSY = 0 and ends its WAIT
(R100), or the reset input (R270); or nothing comes and the engine stays idle (R113). -/
def hostStep (s : State) : Host.Outcome State Fault Refusal :=
  match s.env.host with
  | [] => .next s
  | r :: rest =>
    match r.op with
    | .reset => .next (s.setHost rest).hardReset
    | .look _ => .next (s.setHost rest)
    | .poll last => .next ((s.setHost (if last then rest else dropPolls rest)).reply (readAt (regOffset .status) s))
    | .read off size =>
      if r.op.admitted then .next ((s.setHost rest).reply (readAt off s)) else .refused (.unadmittedAccess off size)
    | .write off size v =>
      if r.op.admitted then .next (writeAt off v (s.setHost rest)) else .refused (.unadmittedAccess off size)

/-! ## A running command -/

/-- How a piece of a command ends: with a value and the state it leaves; cut by a hardware reset, with the state after that reset
(R271); or stopped by a look, with the state it stands in. -/
inductive Ran (α : Type) where
  | ok (a : α) (s : State)
  | cut (s : State)
  | stopped (s : State)

/-- Sequencing: nothing follows a hardware reset (R271), and what follows a look is another step. -/
def Ran.andThen {α β : Type} (r : Ran α) (f : α → State → Ran β) : Ran β :=
  match r with
  | .ok a s => f a s
  | .cut s => .cut s
  | .stopped s => .stopped s

/-- A command that has ended, or stands where a look stopped it, leaves the machine in a next state (R240). -/
def Ran.outcome (r : Ran Unit) : Host.Outcome State Fault Refusal :=
  match r with
  | .ok _ s => .next s
  | .cut s => .next s
  | .stopped s => .next s

/-- An access lands in a running command if it is an admitted one and its time has come. One that is not admitted has no step
(R61): it waits, and what the host issued after it waits behind it (R70). The last poll of a WAIT comes after the command. -/
def HostReq.lands (r : HostReq) (points : Nat) : Bool :=
  r.op.admitted && r.op != .poll true &&
    match r.arrival with
    | .whenIdle => false
    | .during p => decide (p ≤ points)

/-- So many ticks of the current phase pass, or what is left of it. -/
def State.elapse (s : State) (n : Nat) : State :=
  { s with pos := { s.pos with past := s.pos.past + min n s.pos.left, left := s.pos.left - min n s.pos.left } }

/-- The host accesses that land at this point of a running command, in issue order (R66, R67, R70, R245). -/
def arrivals : List HostReq → State → Ran Unit
  | [], s => .ok () (s.setHost [])
  | r :: rest, s =>
    if r.lands s.pos.points then
      match r.op with
      | .read off _ => arrivals rest (busyRead off s)
      | .write off _ _ => arrivals rest (busyWrite off s)
      | .poll _ => arrivals rest (busyRead (regOffset .status) s)
      | .reset => .cut (s.setHost rest).hardReset
      | .look n => .stopped ((s.setHost rest).elapse n)
    else .ok () (s.setHost (r :: rest))

/-- The host accesses that land where a running command stands. -/
def here (s : State) : Ran Unit := arrivals s.env.host s

/-- The next point of a running command at which host accesses can land. -/
def point (s : State) : Ran Unit := here { s with pos := { s.pos with points := s.pos.points + 1 } }

/-- The command comes to a place of its pseudocode that takes no time; outside a `drive_low` phase the line is released (R38). -/
def State.stand (s : State) (pl : Place) : State :=
  { s with pin := .released, pos := { s.pos with place := pl, past := 0, left := 0 } }

/-- The byte index of the position. -/
def State.atByte (s : State) (j : Nat) : State := { s with pos := { s.pos with byte := j } }

/-- The bit index of the position. -/
def State.atBit (s : State) (i : Nat) : State := { s with pos := { s.pos with bit := i } }

/-- The bits read so far of the current byte; the next one's index is their count. -/
def State.withBits (s : State) (bs : List Bool) : State :=
  { s with pos := { s.pos with bit := bs.length }, tmp := { s.tmp with bits := bs } }

/-- The bytes read so far of `rbuf`; the next one's index is their count. -/
def State.withRbuf (s : State) (vs : List Byte) : State :=
  { s with pos := { s.pos with byte := vs.length }, tmp := { s.tmp with rbuf := vs } }

/-- A search pass at position `k`, with the bit `a` of its pair once it has been read. -/
def State.atPair (s : State) (k : Nat) (a : Option Bool) : State :=
  { s with pos := { s.pos with bit := k }, tmp := { s.tmp with a := a } }

/-- The private cursor of VERIFY_ROM at its start: `vrom <- ROM; vld <- 64; vlfd <- 0; vexh <- 0` (R212). -/
def verifyCursor (rom : RomCode) : Cursor := { srom := rom, ld := 64, lfd := 0, exh := false }

/-- The cursor that a pass walks. -/
def State.walked (s : State) (w : Walked) : Cursor :=
  match w with
  | .registers => s.cursor
  | .own => s.tmp.own.getD (verifyCursor s.rom)

/-- A pass writes the cursor it walks. -/
def State.walk (s : State) (w : Walked) (c : Cursor) : State :=
  match w with
  | .registers => { s with cursor := c }
  | .own => { s with tmp := { s.tmp with own := some c } }

/-- A pass writes its last zero (R39). -/
def State.withLastZero (s : State) (n : Nat) : State := { s with tmp := { s.tmp with lastZero := some n } }

/-- A pass writes what it has in hand, each part where it is kept. -/
def State.withPass (s : State) (w : Walked) (p : Pass) : State := (s.walk w p.cursor).withLastZero p.lastZero

/-- What a pass at its positions has in hand; none before its first position. -/
def State.passOf (s : State) (w : Walked) : Option Pass := s.tmp.lastZero.map fun n => { cursor := s.walked w, lastZero := n }

/-- The event of a phase (R111). -/
def phaseEvent (p : Pin) (d : Nat) : BusEvent :=
  match p with
  | .low => .low d
  | .released => .rel d

/-- The length of the next phase whose table value is `t`: `d ≥ t`, a draw (R15, R111, U5). -/
def State.phaseLength (s : State) (t : Nat) : Nat := t + Config.phaseExtra s.env.phases

/-- A phase begins: the pin is driven or released, and its length is drawn (R111). -/
def State.enter (s : State) (pl : Place) (p : Pin) (t : Nat) : State :=
  { s with pin := p, pos := { s.pos with place := pl, past := 0, left := s.phaseLength t } }

/-- A phase has been held for its length `d`: no tick of it remains, and its event is recorded (R111). -/
def State.held (s : State) (p : Pin) (d : Nat) : State :=
  { s with
    pos := { s.pos with past := d, left := 0 }
    env := { s.env with phases := s.env.phases + 1, trace := s.env.trace ++ [phaseEvent p d] } }

/-- A phase that a hardware reset cut short is over: its event is recorded, and its length, a draw of its own like any phase's, is
drawn no more (R271, U5; log entry 13). -/
def State.cutShort (s : State) (p : Pin) : State :=
  { s with env := { s.env with phases := s.env.phases + 1, trace := s.env.trace ++ [.cut p] } }

/-- A phase of length `d` goes on past what lands in it, to its end. A hardware reset cuts it short (R271). -/
def Ran.held (r : Ran Unit) (p : Pin) (d : Nat) : Ran Unit :=
  match r with
  | .ok _ s => .ok () (s.held p d)
  | .cut s => .cut (s.cutShort p)
  | .stopped s => .stopped s

/-- One phase (R111): the pin is driven or released and held for at least `t` ticks. -/
def phase (pl : Place) (p : Pin) (t : Nat) (s : State) : Ran Unit := (point (s.enter pl p t)).held p (s.phaseLength t)

/-- A command goes on from where it stands, with the line as that place has it (R38): what lands there. -/
def resume (p : Pin) (s : State) : Ran Unit := here { s with pin := p }

/-- The rest of the phase that the position stands in (R37). -/
def restOfTicks (p : Pin) (s : State) : Ran Unit := (resume p s).held p (s.pos.past + s.pos.left)

/-- `drive_low(t)` (R14, R111). -/
def driveLow (pl : Place) (t : Nat) (s : State) : Ran Unit := phase pl .low t s

/-- `release(t)` (R14, R111). -/
def release (pl : Place) (t : Nat) (s : State) : Ran Unit := phase pl .released t s

/-- The level the environment puts on the line at the next sample: any value (R9, U4). -/
def State.level (s : State) : Bool := s.env.line.headD (Config.lineLevel s.env.samples)

/-- A sample has been taken: its event is recorded (R111). -/
def State.sampled (s : State) : State :=
  { s with env := { s.env with line := s.env.line.tail, samples := s.env.samples + 1, trace := s.env.trace ++ [.smp s.level] } }

/-- `sample()` (R14, R111): takes no time and returns the line level. -/
def sample (s : State) : Ran Bool := .ok s.level s.sampled

/-- `complete(code)` after what lands just before it (R93). -/
def Ran.complete (r : Ran Unit) (code : ResultCode) : Ran Unit := r.andThen fun _ s => .ok () (s.complete code)

/-- The last action of a command, `complete(code)`, with a point before it (R93). -/
def finish (code : ResultCode) (s : State) : Ran Unit := (point (s.stand (.last code))).complete code

/-- The prologue's checks after the opcode check, in order (R242, R243). -/
def prologue (i : Instr) (s : State) : Option ResultCode :=
  if isBusCommand i && !s.ctrl.en then some .invalidArgument
  else
    match blockLength i with
    | some n => if s.cfg.bufSize < n.toNat then some .invalidArgument else none
    | none => none

/-- The checks, after what lands at them, then the body (R243). A check that fails completes the command with nothing else changed. -/
def Ran.checked (r : Ran Unit) (i : Instr) (body : State → Ran Unit) : Ran Unit :=
  r.andThen fun _ s =>
    match prologue i s with
    | some code => finish code s
    | none => body s

/-- A command runs from its start. -/
def command (i : Instr) (body : State → Ran Unit) (s : State) : Host.Outcome State Fault Refusal :=
  ((point (s.stand .checks)).checked i body).outcome

/-- An illegal word: `complete(ILLEGAL_COMMAND)`, whatever CTRL.EN holds (R95, R243). -/
def Ran.illegal (r : Ran Unit) : Ran Unit := r.andThen fun _ s => finish .illegalCommand s

/-- An illegal word runs from its start. -/
def illegalCommand (s : State) : Host.Outcome State Fault Refusal := (point (s.stand .checks)).illegal.outcome

end Sys2Proof.Machine
end

