-- ==== Sys2Proof/Machine/BusPhy.lean ====
section
/-! DEFINITION. The bus physical layer (40_bus_phy.md): the procedures of R116 to R118 and R123, and the commands RESET, WRITE_BIT,
READ_BIT, WRITE_BYTE, READ_BYTE, WRITE_BLOCK, READ_BLOCK and WRITE_ROM_CODE. A procedure is cut into what follows each of its phases,
so that a command can go on from any of them (Resume.lean). -/

namespace Sys2Proof.Machine

/-- R116 after its last phase: `s2`, and the result. -/
def resetAfterJ (s1 : Bool) (s : State) : Ran Bool := (sample s).andThen fun s2 s => .ok (!s1 && s2) s

/-- R116 after `release(T_I)`. -/
def resetAfterI (s : State) : Ran Bool :=
  (sample s).andThen fun s1 s => (release (.resetJ s1) s.cfg.timing.tJ s).andThen fun _ s => resetAfterJ s1 s

/-- R116 after the reset pulse. -/
def resetAfterH (s : State) : Ran Bool := (release .resetI s.cfg.timing.tI s).andThen fun _ s => resetAfterI s

/-- R116 after `release(T_G)`. -/
def resetAfterG (s : State) : Ran Bool := (driveLow .resetH s.cfg.timing.tH s).andThen fun _ s => resetAfterH s

/-- R116: the reset procedure; present iff the two samples are (0, 1). -/
def resetSeq (s : State) : Ran Bool := (release .resetG s.cfg.timing.tG s).andThen fun _ s => resetAfterG s

/-- `STATUS.PRESENT <- p` after R116; a host access can land once PRESENT is written. -/
def presence (p : Bool) (s : State) : Ran Bool := (point ((s.setPresent p).stand .present)).andThen fun _ s => .ok p s

/-- R116 with `STATUS.PRESENT <- p`, as RESET, READ_ROM and the search run it. -/
def resetPresence (s : State) : Ran Bool := (resetSeq s).andThen presence

/-- R117 after its first phase. -/
def writeAfterLow (b : Bool) (s : State) : Ran Unit := release (.writeRel b) (if b then s.cfg.timing.tB else s.cfg.timing.tD) s

/-- R117: one write slot. -/
def writeBit (b : Bool) (s : State) : Ran Unit :=
  (driveLow (.writeLow b) (if b then s.cfg.timing.tA else s.cfg.timing.tC) s).andThen fun _ s => writeAfterLow b s

/-- R118 after `release(T_E)`: the sample, then the rest of the slot. -/
def readAfterRel (s : State) : Ran Bool :=
  (sample s).andThen fun v s => (release (.readEnd v) s.cfg.timing.tF s).andThen fun _ s => .ok v s

/-- R118 after its first phase. -/
def readAfterLow (s : State) : Ran Bool := (release .readRel s.cfg.timing.tE s).andThen fun _ s => readAfterRel s

/-- R118: one read slot. -/
def readBit (s : State) : Ran Bool := (driveLow .readLow s.cfg.timing.tA s).andThen fun _ s => readAfterLow s

/-- Write slots, one after another; the first has bit index `i`. -/
def writeBits : Nat → List Bool → State → Ran Unit
  | _, [], s => .ok () s
  | i, b :: bs, s => (writeBit b (s.atBit i)).andThen fun _ s => writeBits (i + 1) bs s

/-- `n` more read slots after the bits already read; the first bit read comes first. -/
def readBits : Nat → List Bool → State → Ran (List Bool)
  | 0, bs, s => .ok bs s
  | n + 1, bs, s => (readBit (s.withBits bs)).andThen fun b s => readBits n (bs ++ [b]) s

/-- R123: eight write slots, least significant bit first. -/
def writeByte (v : Byte) (s : State) : Ran Unit := writeBits 0 (byteBits v) s

/-- The byte of the bits read (R123). -/
def byteRead (bs : List Bool) (s : State) : Ran Byte := .ok (byteOfBits bs) s

/-- R123: eight read slots; the first bit read is bit 0. -/
def readByte (s : State) : Ran Byte := (readBits 8 [] s).andThen byteRead

/-- Bytes written in order, the first of index `j` (R152). -/
def writeBytes : Nat → List Byte → State → Ran Unit
  | _, [], s => .ok () s
  | j, v :: vs, s => (writeByte v (s.atByte j)).andThen fun _ s => writeBytes (j + 1) vs s

/-- `n` more bytes read after those already read, in order. -/
def readBytes : Nat → List Byte → State → Ran (List Byte)
  | 0, vs, s => .ok vs s
  | n + 1, vs, s => (readByte (s.withRbuf vs)).andThen fun v s => readBytes n (vs ++ [v]) s

/-- R150: `n` bytes of BUF from index `j` on are written; each is read from BUF at its turn (R74). -/
def writeBuf : Nat → Nat → State → Ran Unit
  | 0, _, s => .ok () s
  | n + 1, j, s => (writeByte (s.bufByte j) (s.atByte j)).andThen fun _ s => writeBuf n (j + 1) s

/-- R151: `n` bytes are read into BUF from index `j` on. -/
def readBuf : Nat → Nat → State → Ran Unit
  | 0, _, s => .ok () s
  | n + 1, j, s => (readByte (s.atByte j)).andThen fun v s => readBuf n (j + 1) (s.setBufByte j v)

/-- The end of a command that just succeeds: `complete(OK)`. -/
def finishOk (_ : Unit) (s : State) : Ran Unit := finish .ok s

/-- RESET once PRESENT is written (R120). -/
def resetEnd (p : Bool) (s : State) : Ran Unit := finish (if p then .ok else .notPresent) s

/-- READ_BIT once its slot is over (R131): `DATA <- zext_32(v)`. -/
def readBitEnd (v : Bool) (s : State) : Ran Unit := finish .ok (s.setData (if v then 1 else 0))

/-- READ_BYTE once its slots are over (R141): `DATA <- zext_32(r)`. -/
def readByteEnd (v : Byte) (s : State) : Ran Unit := finish .ok (s.setData v)

/-- RESET (R120), past its checks. -/
def bodyReset (s : State) : Ran Unit := (resetPresence s).andThen resetEnd

/-- WRITE_BIT (R130), past its checks. -/
def bodyWriteBit (b : Bool) (s : State) : Ran Unit := (writeBit b s).andThen finishOk

/-- READ_BIT (R131), past its checks. -/
def bodyReadBit (s : State) : Ran Unit := (readBit s).andThen readBitEnd

/-- WRITE_BYTE (R140), past its checks. -/
def bodyWriteByte (v : Byte) (s : State) : Ran Unit := (writeByte v s).andThen finishOk

/-- READ_BYTE (R141), past its checks. -/
def bodyReadByte (s : State) : Ran Unit := (readByte s).andThen readByteEnd

/-- WRITE_BLOCK (R150), past its checks. -/
def bodyWriteBlock (len : Half) (s : State) : Ran Unit := (writeBuf len.toNat 0 s).andThen finishOk

/-- READ_BLOCK (R151), past its checks. -/
def bodyReadBlock (len : Half) (s : State) : Ran Unit := (readBuf len.toNat 0 s).andThen finishOk

/-- WRITE_ROM_CODE (R152), past its checks: the eight bytes of ROM, byte 0 first. -/
def bodyWriteRomCode (s : State) : Ran Unit := (writeBytes 0 (romBytes s.rom) s).andThen finishOk

/-- RESET (R120). -/
def execReset (s : State) : Host.Outcome State Fault Refusal := command .reset bodyReset s

/-- WRITE_BIT (R130). -/
def execWriteBit (b : Bool) (s : State) : Host.Outcome State Fault Refusal := command (.writeBit b) (bodyWriteBit b) s

/-- READ_BIT (R131). -/
def execReadBit (s : State) : Host.Outcome State Fault Refusal := command .readBit bodyReadBit s

/-- WRITE_BYTE (R140). -/
def execWriteByte (v : Byte) (s : State) : Host.Outcome State Fault Refusal := command (.writeByte v) (bodyWriteByte v) s

/-- READ_BYTE (R141). -/
def execReadByte (s : State) : Host.Outcome State Fault Refusal := command .readByte bodyReadByte s

/-- WRITE_BLOCK (R150). -/
def execWriteBlock (len : Half) (s : State) : Host.Outcome State Fault Refusal := command (.writeBlock len) (bodyWriteBlock len) s

/-- READ_BLOCK (R151). -/
def execReadBlock (len : Half) (s : State) : Host.Outcome State Fault Refusal := command (.readBlock len) (bodyReadBlock len) s

/-- WRITE_ROM_CODE (R152). -/
def execWriteRomCode (s : State) : Host.Outcome State Fault Refusal := command .writeRomCode bodyWriteRomCode s

end Sys2Proof.Machine
end

