-- ==== Sys2Proof/Machine/RomCode.lean ====
section
/-! DEFINITION. The ROM code (42_rom_code.md): its fields, validity and textual form, and the command READ_ROM. -/

namespace Sys2Proof.Machine

/-- `family(c) = c[0]` (R181). -/
def romFamily (c : RomCode) : Byte := romByte c 0

/-- `serial(c) = c[1..6]` as a 48-bit number, `c[1]` least significant (R181). -/
def romSerial (c : RomCode) : BitVec 48 := c.extractLsb' 8 48

/-- `crc(c) = c[7]` (R181). -/
def romCrc (c : RomCode) : Byte := romByte c 7

/-- R182: a code is valid iff its eight bytes fold to 0. -/
def romValid (c : RomCode) : Bool := crc8Bytes 0 (romBytes c) == 0

/-- An upper-case hexadecimal digit (R185). -/
def hexDigit (n : Nat) : Char := ['0', '1', '2', '3', '4', '5', '6', '7', '8', '9', 'A', 'B', 'C', 'D', 'E', 'F'].getD n '0'

/-- The characters of R185's text: family byte first, each byte most significant nibble first. -/
def romTextChars (c : RomCode) : List Char := (romBytes c).flatMap fun b => [hexDigit (b.toNat / 16), hexDigit (b.toNat % 16)]

/-- `text(c)` (R185): 16 upper-case hexadecimal digits. -/
def romText (c : RomCode) : String := String.ofList (romTextChars c)

/-- READ_ROM once `rbuf` is full (R186): the CRC check iff CRC_EN, with ROM zero on CRC_MISMATCH (R184). -/
def readRomEnd (rbuf : List Byte) (s : State) : Ran Unit :=
  if s.ctrl.crcEn && crc8Bytes 0 rbuf != 0 then finish .crcMismatch (s.setRom 0) else finish .ok (s.setRom (romOfBytes rbuf))

/-- READ_ROM once its command byte is sent (R186). -/
def readRomAfterByte (_ : Unit) (s : State) : Ran Unit := (readBytes 8 [] s).andThen readRomEnd

/-- READ_ROM once PRESENT is written (R186): ROM becomes zero on NOT_PRESENT (R184). -/
def readRomAfterReset (p : Bool) (s : State) : Ran Unit :=
  if !p then finish .notPresent (s.setRom 0) else (writeByte s.cfg.cmdReadRom s).andThen readRomAfterByte

/-- READ_ROM (R186), past its checks. -/
def bodyReadRom (s : State) : Ran Unit := (resetPresence s).andThen readRomAfterReset

/-- READ_ROM (R186). ROM is written on every path past the checks. -/
def execReadRom (s : State) : Host.Outcome State Fault Refusal := command .readRom bodyReadRom s

end Sys2Proof.Machine
end

