-- ==== Sys2Proof/Machine/Search.lean ====
section
/-! DEFINITION. The device search (43_search.md): the search pass of R202 and the commands SEARCH_FIRST, SEARCH_NEXT and
VERIFY_ROM. -/

namespace Sys2Proof.Machine

/-- R205: the zero test of SEARCH_ZERO_TEST. -/
def zeroTestHolds (t : ZeroTest) (c : RomCode) : Bool :=
  match t with
  | .allBytes => c == 0
  | .familyByte => romByte c 0 == 0

/-- R203: the direction at a discrepancy: the stored bit before the last discrepancy, 1 at it, 0 after it. -/
def discrepancyDir (c : Cursor) (k : Nat) : Bool :=
  if k < c.ld.toNat then rombit c.srom k else decide (k = c.ld.toNat)

/-- The direction written at position `k`: the bit of SROM takes it (R202, R203). -/
def Pass.turn (p : Pass) (k : Nat) (dir : Bool) : Pass := { p with cursor := { p.cursor with srom := setrombit p.cursor.srom k dir } }

/-- R203: a direction 0 taken at a discrepancy is recorded as last zero, and as LFD in the family byte. -/
def Pass.recordZero (p : Pass) (k : Nat) : Pass :=
  { cursor := if k ≤ 8 then { p.cursor with lfd := BitVec.ofNat 4 k } else p.cursor, lastZero := k }

/-- R202, R203: what the pair read at position `k` leads to: the direction, and the pass with what is recorded of it before the
direction is written. A pair (1, 1) leads to none (R201). -/
def choose (a c : Bool) (k : Nat) (p : Pass) : Option (Bool × Pass) :=
  match a, c with
  | true, true => none
  | true, false => some (true, p)
  | false, true => some (false, p)
  | false, false => if discrepancyDir p.cursor k then some (true, p) else some (false, p.recordZero k)

/-- R202 once the direction of position `k` is written on the bus: bit `k` of SROM takes it, and the pass goes on. -/
def searchWritten (w : Walked) (k : Nat) (p : Pass) (rest : Pass → State → Ran (Bool × Pass)) (dir : Bool) (s : State) :
    Ran (Bool × Pass) := rest (p.turn k dir) (s.withPass w (p.turn k dir))

/-- R202 once the pair of position `k` is read: a zero is recorded and the direction written, in that order; with no direction the
pass is aborted (R207). The value of a pass is what it has in hand and whether it reached the end. -/
def searchTurn (w : Walked) (k : Nat) (p : Pass) (rest : Pass → State → Ran (Bool × Pass)) (a c : Bool) (s : State) :
    Ran (Bool × Pass) :=
  match choose a c k p with
  | none => .ok (false, p) s
  | some (dir, p') => (writeBit dir ((s.withPass w p').atPair k none)).andThen fun _ s => searchWritten w k p' rest dir s

/-- R202 once the bit `a` of position `k` is read. -/
def searchSecond (w : Walked) (k : Nat) (p : Pass) (rest : Pass → State → Ran (Bool × Pass)) (a : Bool) (s : State) :
    Ran (Bool × Pass) :=
  (readBit (s.atPair k (some a))).andThen fun c s => searchTurn w k p rest a c s

/-- R201, R202: `n` positions from `k` on. The pass in hand is the one the state holds (`State.passOf`). -/
def searchBits (w : Walked) : Nat → Nat → Pass → State → Ran (Bool × Pass)
  | 0, _, p, s => .ok (true, p) s
  | n + 1, k, p, s => (readBit (s.atPair k none)).andThen fun a s => searchSecond w k p (searchBits w n (k + 1)) a s

/-- R207, `fail(code)`: LD, LFD and EXH are reset; SROM keeps the bits written so far. -/
def searchFail (c : Cursor) (code : ResultCode) : ResultCode × Cursor := (code, Cursor.fresh c.srom)

/-- R204 to R206: the end of a pass that reached position 64: CRC test, zero test, then success with LD the last zero, and EXH set
if there was none. -/
def searchEnd (t : ZeroTest) (p : Pass) : ResultCode × Cursor :=
  if !romValid p.cursor.srom then searchFail p.cursor .crcMismatch
  else if zeroTestHolds t p.cursor.srom then searchFail p.cursor .notFound
  else (.ok, { p.cursor with ld := BitVec.ofNat 7 p.lastZero, exh := p.cursor.exh || decide (p.lastZero = 0) })

/-- The end of a pass: the cursor it walked takes what the pass comes to. -/
def conclude (w : Walked) (r : ResultCode × Cursor) (s : State) : Ran (ResultCode × Cursor) := .ok r (s.walk w r.2)

/-- What a pass over the positions comes to. -/
def passEnd (w : Walked) (r : Bool × Pass) (s : State) : Ran (ResultCode × Cursor) :=
  conclude w (if r.1 then searchEnd s.cfg.zeroTest r.2 else searchFail r.2.cursor .notPresent) s

/-- A pass once its command byte is sent: `last_zero <- 0`, then the positions. -/
def passAfterByte (w : Walked) (c : Cursor) (_ : Unit) (s : State) : Ran (ResultCode × Cursor) :=
  (searchBits w 64 1 { cursor := c, lastZero := 0 } (s.withLastZero 0)).andThen (passEnd w)

/-- A pass once PRESENT is written. -/
def passAfterReset (w : Walked) (c : Cursor) (p : Bool) (s : State) : Ran (ResultCode × Cursor) :=
  if !p then conclude w (searchFail c .notPresent) s else (writeByte s.cfg.cmdSearchRom s).andThen (passAfterByte w c)

/-- R202, `search_step`: one pass over the cursor given by reference, which holds `c`; the value is the result and the cursor as it
leaves it. With EXH = 1 on entry there is no bus activity (R208). -/
def searchStep (w : Walked) (c : Cursor) (s : State) : Ran (ResultCode × Cursor) :=
  if c.exh then conclude w (searchFail c .notFound) s else (resetPresence s).andThen (passAfterReset w c)

/-- SEARCH_FIRST and SEARCH_NEXT once their pass is over (R210, R211). -/
def searchCommandEnd (r : ResultCode × Cursor) (s : State) : Ran Unit := finish r.1 (s.setFound (r.1 == .ok))

/-- SEARCH_FIRST (R210), past its checks: the cursor is cleared, SROM too, then one pass. -/
def bodySearchFirst (s : State) : Ran Unit :=
  (searchStep .registers (Cursor.fresh 0) (s.setCursor (Cursor.fresh 0))).andThen searchCommandEnd

/-- SEARCH_NEXT (R211), past its checks: one pass from the cursor as it stands. -/
def bodySearchNext (s : State) : Ran Unit := (searchStep .registers s.cursor s).andThen searchCommandEnd

/-- SEARCH_FIRST (R210). -/
def execSearchFirst (s : State) : Host.Outcome State Fault Refusal := command .searchFirst bodySearchFirst s

/-- SEARCH_NEXT (R211). -/
def execSearchNext (s : State) : Host.Outcome State Fault Refusal := command .searchNext bodySearchNext s

/-- VERIFY_ROM's result from that of its pass: a pass that walked another code finds nothing (R183, R212). -/
def verifyResult (rom : RomCode) (r : ResultCode × Cursor) : ResultCode :=
  if r.1 == .ok && r.2.srom != rom then .notFound else r.1

/-- VERIFY_ROM once its pass is over (R212). -/
def verifyEnd (r : ResultCode × Cursor) (s : State) : Ran Unit :=
  finish (verifyResult s.rom r) (s.setFound (verifyResult s.rom r == .ok))

/-- VERIFY_ROM (R212), past its checks: a pass on a private cursor; ROM, SROM, SEARCH and CRC.ACC are not written. -/
def bodyVerifyRom (s : State) : Ran Unit :=
  (searchStep .own (verifyCursor s.rom) (s.walk .own (verifyCursor s.rom))).andThen verifyEnd

/-- VERIFY_ROM (R212). -/
def execVerifyRom (s : State) : Host.Outcome State Fault Refusal := command .verifyRom bodyVerifyRom s

end Sys2Proof.Machine
end

