-- ==== Sys2Proof/Machine/Dispatch.lean ====
section
/-! DEFINITION. The meaning of every command of R91, one arm per constructor of `Instr`. -/

namespace Sys2Proof.Machine

def exec (i : Instr) (s : State) : Host.Outcome State Fault Refusal :=
  match i with
  | .reset => Sys2Proof.Machine.execReset s
  | .writeBit b => Sys2Proof.Machine.execWriteBit b s
  | .readBit => Sys2Proof.Machine.execReadBit s
  | .writeByte v => Sys2Proof.Machine.execWriteByte v s
  | .readByte => Sys2Proof.Machine.execReadByte s
  | .writeBlock len => Sys2Proof.Machine.execWriteBlock len s
  | .readBlock len => Sys2Proof.Machine.execReadBlock len s
  | .writeRomCode => Sys2Proof.Machine.execWriteRomCode s
  | .readRom => Sys2Proof.Machine.execReadRom s
  | .searchFirst => Sys2Proof.Machine.execSearchFirst s
  | .searchNext => Sys2Proof.Machine.execSearchNext s
  | .verifyRom => Sys2Proof.Machine.execVerifyRom s
  | .crc8Step b => Sys2Proof.Machine.execCrc8Step b s
  | .crc8Block len => Sys2Proof.Machine.execCrc8Block len s

end Sys2Proof.Machine
end

