-- ==== Sys2Proof/Machine/Resume.lean ====
section
/-! DEFINITION. The sequencer goes on from where it stands (R21, R37): the rest of the phase, of the slot, of the byte, and of each
command, from any position of its pseudocode. -/

namespace Sys2Proof.Machine

/-- The body of each command, past its checks. -/
def bodyOf : Instr → State → Ran Unit
  | .reset => bodyReset
  | .writeBit b => bodyWriteBit b
  | .readBit => bodyReadBit
  | .writeByte v => bodyWriteByte v
  | .readByte => bodyReadByte
  | .writeBlock len => bodyWriteBlock len
  | .readBlock len => bodyReadBlock len
  | .writeRomCode => bodyWriteRomCode
  | .readRom => bodyReadRom
  | .searchFirst => bodySearchFirst
  | .searchNext => bodySearchNext
  | .verifyRom => bodyVerifyRom
  | .crc8Step b => bodyCrc8Step b
  | .crc8Block len => bodyCrc8Block len

/-- The rest of the procedure that the position stands in: a bus reset with PRESENT's write, a write slot, or a read slot. -/
inductive Rest where
  | reset (r : Ran Bool)
  | write (r : Ran Unit)
  | read (r : Ran Bool)
  | none

/-- The rest of a procedure from the phase that the position stands in (R116 to R118). -/
def restOfSlot (s : State) : Rest :=
  match s.pos.place with
  | .resetG => .reset (((restOfTicks .released s).andThen fun _ s => resetAfterG s).andThen presence)
  | .resetH => .reset (((restOfTicks .low s).andThen fun _ s => resetAfterH s).andThen presence)
  | .resetI => .reset (((restOfTicks .released s).andThen fun _ s => resetAfterI s).andThen presence)
  | .resetJ s1 => .reset (((restOfTicks .released s).andThen fun _ s => resetAfterJ s1 s).andThen presence)
  | .present => .reset ((resume .released s).andThen fun _ s => .ok s.flags.present s)
  | .writeLow b => .write ((restOfTicks .low s).andThen fun _ s => writeAfterLow b s)
  | .writeRel _ => .write (restOfTicks .released s)
  | .readLow => .read ((restOfTicks .low s).andThen fun _ s => readAfterLow s)
  | .readRel => .read ((restOfTicks .released s).andThen fun _ s => readAfterRel s)
  | .readEnd v => .read ((restOfTicks .released s).andThen fun _ s => .ok v s)
  | .start | .checks | .last _ => .none

/-- The rest of a byte that is being written (R123), from the end of its slot `i` on. -/
def restOfByteOut (v : Byte) (i : Nat) (r : Ran Unit) : Ran Unit :=
  r.andThen fun _ s => writeBits (i + 1) ((byteBits v).drop (i + 1)) s

/-- The rest of a byte that is being read (R123), from the end of the slot after the bits already read. -/
def restOfByteIn (bs : List Bool) (r : Ran Bool) : Ran Byte :=
  (r.andThen fun b s => readBits (7 - bs.length) (bs ++ [b]) s).andThen byteRead

/-- The bit that a write slot is writing (R117). -/
def Place.slotBit : Place → Bool
  | .writeLow b | .writeRel b => b
  | _ => false

/-- The rest of a search pass (R202) over the cursor given by reference, from the position: with no pass in hand yet the command
byte is being written. -/
def restOfPass (w : Walked) (s : State) : Option (Ran (ResultCode × Cursor)) :=
  let k := s.pos.bit
  let rest := searchBits w (64 - k) (k + 1)
  match restOfSlot s with
  | .reset r => some (r.andThen (passAfterReset w (s.walked w)))
  | .write r =>
    match s.passOf w with
    | none => some ((restOfByteOut s.cfg.cmdSearchRom k r).andThen (passAfterByte w (s.walked w)))
    | some p => some ((r.andThen fun _ s' => searchWritten w k p rest s.pos.place.slotBit s').andThen (passEnd w))
  | .read r =>
    match s.passOf w, s.tmp.a with
    | none, _ => none
    | some p, none => some ((r.andThen (searchSecond w k p rest)).andThen (passEnd w))
    | some p, some a => some ((r.andThen (searchTurn w k p rest a)).andThen (passEnd w))
  | .none => none

/-- The rest of each command's body, from a phase of it; none if the command has no such phase. -/
def restOfBody (i : Instr) (s : State) : Option (Ran Unit) :=
  let j := s.pos.byte
  match i, restOfSlot s with
  | .reset, .reset r => some (r.andThen resetEnd)
  | .writeBit _, .write r => some (r.andThen finishOk)
  | .readBit, .read r => some (r.andThen readBitEnd)
  | .writeByte v, .write r => some ((restOfByteOut v s.pos.bit r).andThen finishOk)
  | .readByte, .read r => some ((restOfByteIn s.tmp.bits r).andThen readByteEnd)
  | .writeBlock n, .write r =>
    some (((restOfByteOut (s.bufByte j) s.pos.bit r).andThen fun _ s => writeBuf (n.toNat - (j + 1)) (j + 1) s).andThen finishOk)
  | .readBlock n, .read r =>
    some (((restOfByteIn s.tmp.bits r).andThen fun v s => readBuf (n.toNat - (j + 1)) (j + 1) (s.setBufByte j v)).andThen finishOk)
  | .writeRomCode, .write r =>
    some (((restOfByteOut (romByte s.rom j) s.pos.bit r).andThen fun _ s' =>
      writeBytes (j + 1) ((romBytes s.rom).drop (j + 1)) s').andThen finishOk)
  | .readRom, .reset r => some (r.andThen readRomAfterReset)
  | .readRom, .write r => some ((restOfByteOut s.cfg.cmdReadRom s.pos.bit r).andThen readRomAfterByte)
  | .readRom, .read r =>
    some (((restOfByteIn s.tmp.bits r).andThen fun v s' => readBytes (7 - s.tmp.rbuf.length) (s.tmp.rbuf ++ [v]) s').andThen readRomEnd)
  | .searchFirst, _ => (restOfPass .registers s).map (·.andThen searchCommandEnd)
  | .searchNext, _ => (restOfPass .registers s).map (·.andThen searchCommandEnd)
  | .verifyRom, _ => (restOfPass .own s).map (·.andThen verifyEnd)
  | _, _ => none

/-- The rest of a command from a position past its start; none if its pseudocode has no such place. -/
def restOf (i : Instr) (s : State) : Option (Ran Unit) :=
  match s.pos.place with
  | .checks => some ((resume .released s).checked i (bodyOf i))
  | .last code => some ((resume .released s).complete code)
  | _ => restOfBody i s

/-- The rest of an illegal word's run (R95). -/
def restOfIllegal (s : State) : Option (Ran Unit) :=
  match s.pos.place with
  | .checks => some (resume .released s).illegal
  | .last code => some ((resume .released s).complete code)
  | _ => none

/-- A running command goes on; a place that it does not have has no step. -/
def goOn (r : Option (Ran Unit)) : Host.Outcome State Fault Refusal :=
  match r with
  | some r => r.outcome
  | none => .refused .noSuchPosition

end Sys2Proof.Machine
end

