-- ==== Sys2Proof/Machine/Step.lean ====
section
/-! DEFINITION. One step: an idle engine takes the next host access (R70); an engine with a command runs it from where it stands
(R37) to its end (R92, R93), with the host accesses that land in it. -/

namespace Sys2Proof.Machine

/-- The step function. The accepted command word is the sequencer's (R37); a word that is no command is illegal (R95). A command
at its start is run by `exec`, one further on goes on from there. -/
def step (s : State) : Host.Outcome State Fault Refusal :=
  match s.seq with
  | .idle => hostStep s
  | .run w =>
    match decodeWord w, s.pos.place with
    | .ok i, .start => exec i s
    | .ok i, _ => goOn (restOf i s)
    | .error _, .start => illegalCommand s
    | .error _, _ => goOn (restOfIllegal s)

/-- The state with a command word accepted (R92), as a host write of CMD leaves an idle engine: the next step runs it (log entry
16). Bits at or above `nbits` are 0. -/
def State.withFetchWord (s : State) (nbits w : Nat) : State := s.accept (BitVec.ofNat 32 (w % 2 ^ nbits))

end Sys2Proof.Machine
end

