-- ==== Sys2Proof/Machine/Assembler.lean ====
section
/-! DEFINITION. The assembler of host programs (R97, R98, R100): the host accesses each line makes. -/

namespace Sys2Proof.Machine

/-- What a line adds to the host's stream: an access, or a wait for completion. -/
inductive AsmItem where
  | access (op : HostOp)
  | wait
  deriving DecidableEq, Repr

/-- A command line: `MemWrite(0x004, 4, word)` (R97). -/
def commandAccess (i : Instr) : AsmItem := .access (.write 0x004 4 (encode i))

/-- The accesses of a line (R97) and of a pseudo-instruction's expansion (R100). What the host does with the value that CHECK reads is
the host's own. -/
def lineItems : AsmLine → List AsmItem
  | .reset => [commandAccess .reset]
  | .writeBit b => [commandAccess (.writeBit (b == 1))]
  | .readBit => [commandAccess .readBit]
  | .writeByte v => [commandAccess (.writeByte (BitVec.ofNat 8 v))]
  | .readByte => [commandAccess .readByte]
  | .writeBlock n => [commandAccess (.writeBlock (BitVec.ofNat 16 n))]
  | .readBlock n => [commandAccess (.readBlock (BitVec.ofNat 16 n))]
  | .writeRomCode => [commandAccess .writeRomCode]
  | .readRom => [commandAccess .readRom]
  | .searchFirst => [commandAccess .searchFirst]
  | .searchNext => [commandAccess .searchNext]
  | .verifyRom => [commandAccess .verifyRom]
  | .crc8Step v => [commandAccess (.crc8Step (BitVec.ofNat 8 v))]
  | .crc8Block n => [commandAccess (.crc8Block (BitVec.ofNat 16 n))]
  | .wr r v => [.access (.write (regOffset r) 4 (BitVec.ofNat 32 v))]
  | .rd r => [.access (.read (regOffset r) 4)]
  | .wait => [.wait]
  | .check _ => [.access (.read (regOffset .status) 4)]
  | .matchRom => [commandAccess (.writeByte 0x55), .wait, commandAccess .writeRomCode]
  | .skipRom => [commandAccess (.writeByte 0xCC)]
  | .clearDone => [.access (.write (regOffset .status) 4 0x6)]

/-- WAIT (R100): `RD STATUS` until BUSY = 0. `points` are the points of the running command at which the host polls, and the last
poll comes when the command is over. -/
def waitPolls (points : List Nat) : List HostReq :=
  points.map (fun p => { arrival := .during p, op := .poll false }) ++ [{ arrival := .whenIdle, op := .poll true }]

/-- The host's stream: an access comes as soon as the one before it is done, in a running command at its next point (R98); each WAIT
polls at the next list of points, and with no list left only once. -/
def scheduleItems : List (List Nat) → List AsmItem → List HostReq
  | _, [] => []
  | polls, .access op :: l => { arrival := .during 0, op := op } :: scheduleItems polls l
  | polls, .wait :: l => waitPolls (polls.headD []) ++ scheduleItems polls.tail l

/-- The host's stream for a program whose WAITs poll at the points given; a program with a line out of range is refused (R97). How
often and when a host polls is not the spec's to say, so it is an input (log entry 23). -/
def assemble (polls : List (List Nat)) (p : List AsmLine) : Option (List HostReq) :=
  if p.all AsmLine.wellFormed then some (scheduleItems polls (p.flatMap lineItems)) else none

end Sys2Proof.Machine
end

