-- ==== Sys2Proof/Safety.lean ====
section
/-! DEFINITION. What counts as a safe run, and the words the statements use: the invariant, how a command ends, the bus trace it
leaves, and the reference bus of 95_test_vectors.md section 2 for one search pass. -/

namespace Sys2Proof.Machine

/-! ## The invariant of the machine between steps -/

/-- The drive state of the line at a place: low in a `drive_low` phase, released everywhere else (R38). -/
def Place.pin : Place → Pin
  | .resetH | .writeLow _ | .readLow => .low
  | _ => .released

/-- Whether the engine ever produces a result code (R241, U11). -/
def ResultCode.produced : ResultCode → Bool
  | .verifyMismatch | .invalidResolution => false
  | _ => true

/-- The code that a place is about to complete with, if any, is one the engine produces. -/
def Place.produced : Place → Bool
  | .last code => code.produced
  | _ => true

/-- A command past its start stands at a place that its pseudocode has, so that there is a rest of it to run. -/
def State.stands (s : State) : Bool :=
  match s.seq, s.pos.place with
  | .idle, .start => true
  | .idle, _ => false
  | .run _, .start => true
  | .run w, _ =>
    match decodeWord w with
    | .ok i => (restOf i s).isSome
    | .error _ => (restOfIllegal s).isSome

/-- Between steps: the parameters are ones the spec admits (R11); BUF is in canonical form with every stored byte below BUF_SIZE
(R32); the pin is low exactly in a `drive_low` phase of a running command (R38, R115); the position is one of the command's
(R37), and outside a command there is none and no temporary has a value (R39); RESULT, and the code a command is about to
complete with, is one the engine produces (R241, U11). -/
abbrev State.Inv (s : State) : Prop :=
  s.cfg.wf ∧ Memory.wf s.buf ∧ (∀ c ∈ s.buf, c.1 < s.cfg.bufSize) ∧ s.pin = s.pos.place.pin ∧ s.stands = true ∧
    (s.pos.place = .start → s.pos = .start ∧ s.tmp = .none) ∧
    s.flags.result.produced = true ∧ s.pos.place.produced = true

/-- Whether an input is a look, which ends a step of the model before its command is over (log entry 24). -/
def HostOp.isLook : HostOp → Bool
  | .look _ => true
  | _ => false

/-- No hardware reset is among the host's accesses to come. -/
abbrev State.noReset (s : State) : Prop := ∀ r ∈ s.env.host, r.op ≠ .reset

/-- No look is among the host's accesses to come. -/
abbrev State.noLook (s : State) : Prop := ∀ r ∈ s.env.host, r.op.isLook = false

/-- Neither is to come: a command runs to its end in one step. -/
abbrev State.unbroken (s : State) : Prop := s.noReset ∧ s.noLook

/-! ## Levels, phases and traces -/

/-- The level of the `i`-th sample from here on (R9, U4). -/
def State.upcoming (s : State) (i : Nat) : Bool := (s.env.line.drop i).headD (Config.lineLevel (s.env.samples + i))

/-- What a rule says of one event of the bus trace: a phase of at least so many ticks, or a sample with its level (R15, R111). -/
inductive Expect where
  | low (atLeast : Nat)
  | rel (atLeast : Nat)
  | smp (level : Bool)
  deriving DecidableEq, Repr

/-- An event is as a rule says. -/
def BusEvent.meets : BusEvent → Expect → Prop
  | .low d, .low t => t ≤ d
  | .rel d, .rel t => t ≤ d
  | .smp v, .smp w => v = w
  | _, _ => False

/-- One for a sample, none for a phase. -/
def Expect.isSample : Expect → Bool
  | .smp _ => true
  | _ => false

/-- The samples among the events a rule names. -/
def samplesIn (tr : List Expect) : Nat := tr.countP Expect.isSample

/-- The ticks of an event; a phase cut short counts for none. -/
def BusEvent.ticks : BusEvent → Nat
  | .low d => d
  | .rel d => d
  | _ => 0

/-- The bus time of a trace, in ticks (R290). -/
def busTime (es : List BusEvent) : Nat := (es.map BusEvent.ticks).sum

/-- The trace of R116. -/
def resetTrace (tm : Timing) (s1 s2 : Bool) : List Expect := [.rel tm.tG, .low tm.tH, .rel tm.tI, .smp s1, .rel tm.tJ, .smp s2]

/-- The trace of R117. -/
def writeBitTrace (tm : Timing) (b : Bool) : List Expect := if b then [.low tm.tA, .rel tm.tB] else [.low tm.tC, .rel tm.tD]

/-- The trace of R118. -/
def readBitTrace (tm : Timing) (v : Bool) : List Expect := [.low tm.tA, .rel tm.tE, .smp v, .rel tm.tF]

/-- Write slots for bits in the order given. -/
def writeBitsTrace (tm : Timing) (bs : List Bool) : List Expect := bs.flatMap (writeBitTrace tm)

/-- Read slots for levels in the order given. -/
def readBitsTrace (tm : Timing) (bs : List Bool) : List Expect := bs.flatMap (readBitTrace tm)

/-- The write slots of bytes: in order, each least significant bit first (R123). -/
def writeBytesTrace (tm : Timing) (vs : List Byte) : List Expect := vs.flatMap fun v => writeBitsTrace tm (byteBits v)

/-- The next `n` levels from the `i`-th sample on. -/
def State.levels (s : State) (i n : Nat) : List Bool := (List.range n).map fun j => s.upcoming (i + j)

/-! ## How a command goes on and ends -/

/-- Whether an access that lands in a command running in `s` draws a free value (R67). -/
def drawsAt (off : Nat) (s : State) : Bool :=
  match regAt off with
  | some r => openWhileBusy r s
  | none => false

/-- Whether a write that lands in a command running in `s` is dropped with OVR (R66). -/
def overrunsAt (off : Nat) (s : State) : Bool :=
  match regAt off with
  | some r => overrunsWhileBusy r s
  | none => false

/-- Accesses have landed in a command running from `s`, in the order of the list, and got these replies, in that order (R66, R67,
R70). The numbers are of the free values drawn before and after, the flags OVR before and after. A read or poll of STATUS sees the
OVR that the writes before it have set; PRESENT and FOUND it sees as the command has them by then, the rest of STATUS as in `s`.
-/
inductive Landed (s : State) : Nat → Bool → List HostReq → List Word → Nat → Bool → Prop where
  | none (n : Nat) (o : Bool) : Landed s n o [] [] n o
  | draw {n n' : Nat} {o o' : Bool} {a : Arrival} {off size : Nat} {l : List HostReq} {vs : List Word} :
    drawsAt off s = true → Landed s (n + 1) o l vs n' o' → Landed s n o (⟨a, .read off size⟩ :: l) (Config.busyRead n :: vs) n' o'
  | exact {n n' : Nat} {o o' : Bool} {a : Arrival} {off size : Nat} {l : List HostReq} {vs : List Word} :
    drawsAt off s = false → off ≠ 0x008 → Landed s n o l vs n' o' →
    Landed s n o (⟨a, .read off size⟩ :: l) (readAt off s :: vs) n' o'
  | status {n n' : Nat} {o o' : Bool} {r : HostReq} {v : Word} {l : List HostReq} {vs : List Word} :
    (∃ size, r.op = .read 0x008 size) ∨ (∃ last, r.op = .poll last) → v.getLsbD 2 = o →
    v &&& 0xFFFFFFE3 = readAt 0x008 s &&& 0xFFFFFFE3 → Landed s n o l vs n' o' → Landed s n o (r :: l) (v :: vs) n' o'
  | write {n n' : Nat} {o o' : Bool} {a : Arrival} {off size : Nat} {v : Word} {l : List HostReq} {vs : List Word} :
    Landed s n (o || overrunsAt off s) l vs n' o' → Landed s n o (⟨a, .write off size v⟩ :: l) vs n' o'

/-- From `s` to `t` the accesses `l` have landed, and the records of `t` say so; `o` is OVR after them. -/
def Took (s : State) (l : List HostReq) (o : Bool) (t : State) : Prop :=
  ∃ vs, Landed s s.env.draws s.flags.ovr l vs t.env.draws o ∧ t.env.replies = s.env.replies ++ vs

/-- What a piece of a running command does to the machine apart from the registers its rule names: from `s` to `t` the events `tr`
are added to the trace and their samples taken, host accesses that were due have landed in order (R66, R67, R70), and nothing else
changes but OVR, which they may set, and the pin, the position and the temporaries. -/
structure During (s : State) (tr : List Expect) (t : State) : Prop where
  regs : t = { s with flags := { s.flags with ovr := t.flags.ovr }, pos := t.pos, tmp := t.tmp, pin := t.pin, env := t.env }
  took : ∃ l, s.env.host = l ++ t.env.host ∧ Took s l t.flags.ovr t
  line : t.env.line = s.env.line.drop (samplesIn tr)
  samples : t.env.samples = s.env.samples + samplesIn tr
  resets : t.env.resets = s.env.resets
  trace : ∃ es, t.env.trace = s.env.trace ++ es ∧ List.Forall₂ BusEvent.meets es tr

/-- A hardware reset has cut a command run from `s` (R271): every register is at its reset value, the parameters stay, and BUF
has fresh contents. -/
structure CutFrom (s t : State) : Prop where
  regs : t = { State.reset with cfg := s.cfg, env := t.env }
  took : ∃ l a o, s.env.host = l ++ ⟨a, .reset⟩ :: t.env.host ∧ Took s l o t
  resets : t.env.resets = s.env.resets + 1

/-- A look has ended the step of a command run from `s` part-way: the command still runs, with what it never changes as it was. -/
structure StoppedFrom (s t : State) : Prop where
  cfg : t.cfg = s.cfg
  ctrl : t.ctrl = s.ctrl
  cmd : t.cmd = s.cmd
  seq : t.seq = s.seq
  done : t.flags.done = s.flags.done
  result : t.flags.result = s.flags.result
  took : ∃ l a n, s.env.host = l ++ ⟨a, .look n⟩ :: t.env.host ∧ Took s l t.flags.ovr t
  resets : t.env.resets = s.env.resets

/-- What is known of a piece of a running command started in `s`: it yields `a` with the trace `tr`, or a hardware reset or a look
that was to come has ended it. -/
def Ran.Yields {α : Type} (s : State) (tr : List Expect) (a : α) (r : Ran α) : Prop :=
  match r with
  | .ok b t => b = a ∧ During s tr t
  | .cut t => CutFrom s t
  | .stopped t => StoppedFrom s t

/-- A command run from `s` has ended in `t` with the bus trace `tr`, and every register but BUF and OVR as in `u`. Host accesses that
were due have landed in order (R66, R67, R70), and OVR is as they leave it. -/
structure EndsAs (s : State) (tr : List Expect) (u t : State) : Prop where
  cfg : t.cfg = u.cfg
  ctrl : t.ctrl = u.ctrl
  cmd : t.cmd = u.cmd
  done : t.flags.done = u.flags.done
  present : t.flags.present = u.flags.present
  found : t.flags.found = u.flags.found
  result : t.flags.result = u.flags.result
  data : t.data = u.data
  acc : t.acc = u.acc
  rom : t.rom = u.rom
  cursor : t.cursor = u.cursor
  seq : t.seq = u.seq
  pos : t.pos = u.pos
  tmp : t.tmp = u.tmp
  pin : t.pin = u.pin
  took : ∃ l, s.env.host = l ++ t.env.host ∧ Took s l t.flags.ovr t
  line : t.env.line = s.env.line.drop (samplesIn tr)
  samples : t.env.samples = s.env.samples + samplesIn tr
  resets : t.env.resets = s.env.resets
  trace : ∃ es, t.env.trace = s.env.trace ++ es ∧ List.Forall₂ BusEvent.meets es tr

/-- Every byte of BUF reads as before. -/
def SameBuf (s t : State) : Prop := ∀ a, t.bufByte a = s.bufByte a

/-! ## One search pass over given levels -/

/-- The bit loop of R202 over levels `lv`, where the pair of position `k` is `lv (2k)`, `lv (2k+1)` (samples 0 and 1 are the
reset's): whether it reaches the end, the pass after it, and its trace. -/
def walkBits (tm : Timing) (lv : Nat → Bool) : Nat → Nat → Pass → Bool × Pass × List Expect
  | 0, _, p => (true, p, [])
  | n + 1, k, p =>
    let a := lv (2 * k)
    let c := lv (2 * k + 1)
    let tr := readBitTrace tm a ++ readBitTrace tm c
    match choose a c k p with
    | none => (false, p, tr)
    | some (dir, p') =>
      let w := walkBits tm lv n (k + 1) (p'.turn k dir)
      (w.1, w.2.1, tr ++ writeBitTrace tm dir ++ w.2.2)

/-- The pass of R202 over levels `lv`: the result, the cursor after it, and its trace. -/
def walkPass (cfg : Params) (lv : Nat → Bool) (c : Cursor) : (ResultCode × Cursor) × List Expect :=
  if c.exh then (searchFail c .notFound, [])
  else if !(!lv 0 && lv 1) then (searchFail c .notPresent, resetTrace cfg.timing (lv 0) (lv 1))
  else
    let w := walkBits cfg.timing lv 64 1 { cursor := c, lastZero := 0 }
    (if w.1 then searchEnd cfg.zeroTest w.2.1 else searchFail w.2.1.cursor .notPresent,
      resetTrace cfg.timing (lv 0) (lv 1) ++ writeBytesTrace cfg.timing [cfg.cmdSearchRom] ++ w.2.2)

/-- PRESENT after a search pass: that of its reset, or as before if the pass had none (R208). -/
def presentAfterPass (lv : Nat → Bool) (c : Cursor) (before : Bool) : Bool := if c.exh then before else !lv 0 && lv 1

/-! ## The reference bus (95_test_vectors.md section 2; no part of the engine) -/

/-- The pairs that active devices put on a wired-AND line from position `k` on, as the engine walks: each active device drives bit
`k`, then its complement, and drops out if its bit is not the direction written (R17). -/
def refPairs : Nat → Nat → List RomCode → Pass → List Bool
  | 0, _, _, _ => []
  | n + 1, k, active, p =>
    let a := active.all fun d => rombit d k
    let c := active.all fun d => !rombit d k
    match choose a c k p with
    | none => [a, c]
    | some (dir, p') => a :: c :: refPairs n (k + 1) (active.filter fun d => rombit d k == dir) (p'.turn k dir)

/-- The levels of one search pass on a bus with devices: presence (0, 1), then the pairs of the 64 positions. -/
def refPass (devices : List RomCode) (c : Cursor) : List Bool :=
  false :: true :: refPairs 64 1 devices { cursor := c, lastZero := 0 }

/-- Two codes agree at every position below `k`. -/
def agreeBelow (x y : RomCode) (k : Nat) : Prop := ∀ j, 1 ≤ j → j < k → rombit x j = rombit y j

/-- The order of R213: at the first position where two codes differ, the earlier has 0. -/
def earlier (x y : RomCode) : Prop := ∃ k, 1 ≤ k ∧ k ≤ 64 ∧ agreeBelow x y k ∧ rombit x k = false ∧ rombit y k = true

/-- Position `k` is a branch that the walk to `x` left for later: some device agrees with `x` below `k` and has 1 where `x` has 0. -/
def branchAt (devices : List RomCode) (x : RomCode) (k : Nat) : Prop :=
  1 ≤ k ∧ k ≤ 64 ∧ rombit x k = false ∧ ∃ d ∈ devices, agreeBelow d x k ∧ rombit d k = true

/-- A cursor that has just found a device: SROM is its code, LD the last branch left for later (0 if none), and EXH says that
there is none (R206). -/
def CursorAt (devices : List RomCode) (c : Cursor) : Prop :=
  c.srom ∈ devices ∧ (c.ld.toNat = 0 ∨ branchAt devices c.srom c.ld.toNat) ∧
    (∀ k, c.ld.toNat < k → ¬ branchAt devices c.srom k) ∧ c.exh = decide (c.ld.toNat = 0)

/-- What R213 assumes of the devices: at least one, each code valid, and none that the zero test holds of: all zero, or, with
`family_byte`, of family 0. -/
def GoodDevices (t : ZeroTest) (devices : List RomCode) : Prop :=
  devices ≠ [] ∧ ∀ d ∈ devices, romValid d = true ∧ zeroTestHolds t d = false

end Sys2Proof.Machine
end

