-- ==== Sys2Proof/Certificates/Slice0/Obligations.lean ====
section
/-! DEFINITION. The statements for the provers. Each docstring names the rule or section of spec/ it formalises. A command's statement
says for every state with no hardware reset to come what the command does where its checks pass, and where they fail; what a
hardware reset does to a running command is stated of all commands together. A look, which ends a step part-way, is the model's own
(log entry 24): where it matters a statement is about a run without one (`unbroken`, `noLook`), and what a look leaves, and that
the next step goes on from there, is stated of all commands together. -/

open Sys2Proof Sys2Proof.Machine

/-! ## Encoding -/

/-- 30_encoding.md sections 1 and 5: the word the assembler writes for a command decodes to that command, with every operand. -/
def Obligations.DecodeUndoesEncode : Prop := ∀ i : Instr, decodeWord (encode i) = .ok i

/-- 30_encoding.md section 4: every word is one command, the one of its OPCODE, or it is illegal; the illegal OPCODEs are 0x00,
0x0D to 0x0F and 0x12 to 0xFF. (R96, totality, is an inference the spec marks "[derived: from rule R90, rule R94 and rule
R95]".) -/
def Obligations.DecoderIsTotalByOpcode : Prop :=
  ∀ w : Word,
    let op := w.toNat % 256
    ((op = 0x00 ∨ (0x0D ≤ op ∧ op ≤ 0x0F) ∨ 0x12 ≤ op) → decodeWord w = .error (.illegalOpcode (BitVec.ofNat 8 op))) ∧
    (¬(op = 0x00 ∨ (0x0D ≤ op ∧ op ≤ 0x0F) ∨ 0x12 ≤ op) → ∃ i, decodeWord w = .ok i ∧ i.opcode.toNat = op)

/-- R94: IMM8 is `w[15:8]`, LEN is `w[31:16]`, WRITE_BIT takes `w[8]`, and a field a command does not use is ignored. -/
def Obligations.OperandFieldsDecode : Prop :=
  ∀ w : Word,
    let op := w.toNat % 256
    let imm : Byte := BitVec.ofNat 8 (w.toNat / 2 ^ 8)
    let len : Half := BitVec.ofNat 16 (w.toNat / 2 ^ 16)
    (op = 0x01 → decodeWord w = .ok .reset) ∧ (op = 0x02 → decodeWord w = .ok (.writeBit (w.toNat / 2 ^ 8 % 2 == 1))) ∧
    (op = 0x03 → decodeWord w = .ok .readBit) ∧ (op = 0x04 → decodeWord w = .ok (.writeByte imm)) ∧
    (op = 0x05 → decodeWord w = .ok .readByte) ∧ (op = 0x06 → decodeWord w = .ok (.writeBlock len)) ∧
    (op = 0x07 → decodeWord w = .ok (.readBlock len)) ∧ (op = 0x08 → decodeWord w = .ok .writeRomCode) ∧
    (op = 0x09 → decodeWord w = .ok .readRom) ∧ (op = 0x0A → decodeWord w = .ok .searchFirst) ∧
    (op = 0x0B → decodeWord w = .ok .searchNext) ∧ (op = 0x0C → decodeWord w = .ok .verifyRom) ∧
    (op = 0x10 → decodeWord w = .ok (.crc8Step imm)) ∧ (op = 0x11 → decodeWord w = .ok (.crc8Block len))

/-- Words written out from R97 and 95_test_vectors.md section 3 decode to their commands. -/
def Obligations.WrittenOutWordsDecode : Prop :=
  decodeWord 0x00000001 = .ok .reset ∧ decodeWord 0xFFFFFF01 = .ok .reset ∧
  decodeWord 0x00000102 = .ok (.writeBit true) ∧ decodeWord 0x0000FE02 = .ok (.writeBit false) ∧
  decodeWord 0x0000A504 = .ok (.writeByte 0xA5) ∧ decodeWord 0x00030006 = .ok (.writeBlock 3) ∧
  decodeWord 0x00090007 = .ok (.readBlock 9) ∧ decodeWord 0x0000000A = .ok .searchFirst ∧
  decodeWord 0x0000FF10 = .ok (.crc8Step 0xFF) ∧ decodeWord 0x00080011 = .ok (.crc8Block 8)

/-- 30_encoding.md section 5 (R97, R98, R100): what each line of the assembler and each pseudo-instruction assembles to, and
that an operand out of range is refused. (A line is syntax here, not text. A WAIT's polls come at points that are an input of
the assembler, `polls`, and its last poll when the command is over: log entry 23. The ranges of WR's value, of CHECK's code and
of `w` in `BUF+4w` are the model's choice, log entry 25: R97 and R100 give none.) -/
def Obligations.AssemblerWritesTheWords : Prop :=
  ∀ polls : List (List Nat),
    let asm : AsmLine → Option (List HostReq) := fun l => assemble polls [l]
    let acc : HostOp → Option (List HostReq) := fun op => some [⟨.during 0, op⟩]
    let cmd : Nat → Option (List HostReq) := fun w => acc (.write 0x004 4 (BitVec.ofNat 32 w))
    asm .reset = cmd 0x01 ∧ asm .readBit = cmd 0x03 ∧ asm .readByte = cmd 0x05 ∧ asm .writeRomCode = cmd 0x08 ∧
    asm .readRom = cmd 0x09 ∧ asm .searchFirst = cmd 0x0A ∧ asm .searchNext = cmd 0x0B ∧ asm .verifyRom = cmd 0x0C ∧
    asm .wait = some ((polls.headD []).map (fun p => ⟨.during p, .poll false⟩) ++ [⟨.whenIdle, .poll true⟩]) ∧
    assemble polls [.matchRom] = assemble polls [.writeByte 0x55, .wait, .writeRomCode] ∧
    asm .skipRom = cmd 0xCC04 ∧ asm .clearDone = acc (.write 0x008 4 0x6) ∧
    ∀ n : Nat,
      asm (.writeBit n) = (if n ≤ 1 then cmd (n * 2 ^ 8 + 0x02) else none) ∧
      asm (.writeByte n) = (if n ≤ 255 then cmd (n * 2 ^ 8 + 0x04) else none) ∧
      asm (.crc8Step n) = (if n ≤ 255 then cmd (n * 2 ^ 8 + 0x10) else none) ∧
      asm (.writeBlock n) = (if n ≤ 65535 then cmd (n * 2 ^ 16 + 0x06) else none) ∧
      asm (.readBlock n) = (if n ≤ 65535 then cmd (n * 2 ^ 16 + 0x07) else none) ∧
      asm (.crc8Block n) = (if n ≤ 65535 then cmd (n * 2 ^ 16 + 0x11) else none) ∧
      asm (.check n) = (if n ≤ 15 then acc (.read 0x008 4) else none) ∧
      ∀ r : Reg, r.wellFormed = true →
        asm (.rd r) = acc (.read (regOffset r) 4) ∧
        asm (.wr r n) = if n < 2 ^ 32 then acc (.write (regOffset r) 4 (BitVec.ofNat 32 n)) else none

/-! ## Steps -/

/-- 10_state.md R21, R37 and 30_encoding.md section 2: a step with an accepted word that decodes to a command runs exactly that
command if it is at its start, and else the rest of it from where it stands (that one step runs a command as far as this is the
model's choice, log entries 1 and 24). The last clause is the model's choice, log entry 16 (DESIGN CHOICE), and no rule: the
engine fetches nothing (R74), so `withFetchWord` accepts the word, and what it puts in place is what the next step runs. -/
def Obligations.StepRunsTheDecodedCommand : Prop :=
  (∀ (s : State) (w : Word) (i : Instr), s.seq = .run w → decodeWord w = .ok i →
    (s.pos.place = .start → step s = exec i s) ∧ (s.pos.place ≠ .start → step s = goOn (restOf i s))) ∧
  ∀ (s : State) (w : Word) (i : Instr), decodeWord w = .ok i → step (s.withFetchWord 32 w.toNat) = exec i (s.accept w)

/-- 10_state.md R21 and R37: the position inside a command is a phase, a byte index, a bit index and the remaining ticks of the
phase, and the command goes on from it. A running command always has a next step; a look (the model's own, log entry 24) that
lands in a phase leaves the position there; and when a command is run from its start with one look to come, wherever it lands,
the next step goes on exactly as without it. (The access after the look must not have been due before it: what the host issued
later waits behind it, R70.) -/
def Obligations.AStoppedCommandGoesOnWhereItStands : Prop :=
  (∀ s : State, s.Inv → s.seq ≠ .idle → ∃ t, step s = .next t) ∧
  (∀ (pl : Place) (d : Pin) (least q n : Nat) (rest : List HostReq) (s : State),
    s.env.host = ⟨.during q, .look n⟩ :: rest → q ≤ s.pos.points + 1 →
    ∃ u, phase pl d least s = .stopped u ∧ u.env.host = rest ∧ u.pin = d ∧ u.pos.place = pl ∧ u.pos.byte = s.pos.byte ∧
      u.pos.bit = s.pos.bit ∧ u.pos.past = min n (s.phaseLength least) ∧ u.pos.past + u.pos.left = s.phaseLength least) ∧
  ∀ (s t : State) (q n : Nat) (before rest : List HostReq), s.seq ≠ .idle → s.pos.place = .start → s.tmp = .none →
    s.env.host = before ++ ⟨.during q, .look n⟩ :: rest → (∀ r ∈ before ++ rest, r.op.isLook = false) →
    (∀ r ∈ rest.head?, ∀ m, r.arrival = .during m → q ≤ m) → step s = .next t → t.seq ≠ .idle →
    t.env.host = rest ∧ step t = step (s.setHost (before ++ rest))

/-- R92: a write of CMD while idle is accepted: CMD takes the word, BUSY is set and DONE cleared in one step, the sequencer is at
the start of the command, everything else stays; the next step runs the command, prologue first. A write of CMD while a command
runs is dropped. -/
def Obligations.CommandWordsAreAccepted : Prop :=
  (∀ (s : State) (a : Arrival) (w : Word) (rest : List HostReq), s.seq = .idle → s.env.host = ⟨a, .write 0x004 4 w⟩ :: rest →
    step s = .next { s with
      cmd := w, flags := { s.flags with done := false }, seq := .run w, pos := .start, tmp := .none, env := { s.env with host := rest } }) ∧
  (∀ (s : State) (w : Word) (i : Instr), s.seq = .run w → s.pos.place = .start → decodeWord w = .ok i →
    step s = exec i s ∧ s.busy = true) ∧
  ∀ (i : Instr) (s : State) (v : Word), s.env.host = [⟨.during 0, .write 0x004 4 v⟩] →
    ∃ t, exec i s = .next t ∧ t.cmd = s.cmd ∧ t.seq = .idle ∧ t.flags.ovr = true ∧ t.env.host = []

/-- R95: an illegal word completes with ILLEGAL_COMMAND, whatever CTRL.EN holds, with no bus activity and no other change. -/
def Obligations.IllegalWordsCompleteAtOnce : Prop :=
  ∀ (s : State) (w : Word),
    s.seq = .run w → s.pos.place = .start →
    (w.toNat % 256 = 0x00 ∨ (0x0D ≤ w.toNat % 256 ∧ w.toNat % 256 ≤ 0x0F) ∨ 0x12 ≤ w.toNat % 256) → s.unbroken →
    ∃ t, step s = .next t ∧ EndsAs s [] (s.complete .illegalCommand) t ∧ SameBuf s t

/-- R242: every bus command with CTRL.EN = 0 completes with INVALID_ARGUMENT, with no bus activity and no register changed but
RESULT, BUSY and DONE; the CRC commands do not check EN: with EN the other way they end the same (what host reads of CTRL see
aside). -/
def Obligations.BusCommandsNeedEnable : Prop :=
  (∀ (i : Instr) (s : State), 1 ≤ i.opcode.toNat → i.opcode.toNat ≤ 0x0C → s.ctrl.en = false → s.unbroken →
    ∃ t, exec i s = .next t ∧ EndsAs s [] (s.complete .invalidArgument) t ∧ SameBuf s t) ∧
  ∀ (i : Instr) (s s' : State), i.opcode = 0x10 ∨ i.opcode = 0x11 → s.unbroken →
    s' = { s with ctrl := { s.ctrl with en := !s.ctrl.en } } →
    ∃ t t', exec i s = .next t ∧ exec i s' = .next t' ∧
      t' = { t with ctrl := s'.ctrl, env := { t.env with replies := t'.env.replies } }

/-- R243: the checks that begin every command, in order: the opcode, then CTRL.EN for a bus command, then LEN of a block command
against BUF_SIZE. The first that fails gives the result code, with no bus activity, and nothing but RESULT, BUSY and DONE changes. -/
def Obligations.PrologueChecksComeInOrder : Prop :=
  ∀ (s : State) (w : Word), s.seq = .run w → s.pos.place = .start → s.unbroken →
    let op := w.toNat % 256
    let failed : Option ResultCode :=
      if op = 0x00 ∨ (0x0D ≤ op ∧ op ≤ 0x0F) ∨ 0x12 ≤ op then some .illegalCommand
      else if 0x01 ≤ op ∧ op ≤ 0x0C ∧ s.ctrl.en = false then some .invalidArgument
      else if (op = 0x06 ∨ op = 0x07 ∨ op = 0x11) ∧ s.cfg.bufSize < w.toNat / 2 ^ 16 then some .invalidArgument
      else none
    ∀ code, failed = some code → ∃ t, step s = .next t ∧ EndsAs s [] (s.complete code) t ∧ SameBuf s t

/-! ## The host's accesses to an idle engine -/

/-- R62: an admitted read of an idle engine returns the register at its offset and changes nothing else; a second read returns the
same. -/
def Obligations.IdleReadsHaveNoSideEffect : Prop :=
  ∀ (s : State) (a : Arrival) (off : Nat) (rest : List HostReq), s.seq = .idle → off % 4 = 0 →
    s.env.host = ⟨a, .read off 4⟩ :: rest →
    ∃ t, step s = .next t ∧ t = { s with env := { s.env with host := rest, replies := s.env.replies ++ [readAt off s] } } ∧
      readAt off t = readAt off s

/-- 10_state.md section 2 (R22 to R32): what each register reads as, bit by bit; BUSY is 1 exactly when a command is accepted and
not complete. -/
def Obligations.RegistersReadAsLaidOut : Prop :=
  ∀ s : State,
    (∀ k, (readAt 0x000 s).getLsbD k = ((k == 0 && s.ctrl.en) || (k == 1 && s.ctrl.crcEn))) ∧
    readAt 0x004 s = s.cmd ∧
    (∀ k, (readAt 0x008 s).getLsbD k =
      ((k == 0 && s.seq != .idle) || (k == 1 && s.flags.done) || (k == 2 && s.flags.ovr) || (k == 3 && s.flags.present) ||
        (k == 4 && s.flags.found) || (decide (8 ≤ k) && (resultBits s.flags.result).getLsbD (k - 8)))) ∧
    (readAt 0x00C s).toNat = s.data.toNat ∧ (readAt 0x010 s).toNat = s.acc.toNat ∧
    (readAt 0x014 s).toNat = s.rom.toNat % 2 ^ 32 ∧ (readAt 0x018 s).toNat = s.rom.toNat / 2 ^ 32 ∧
    (readAt 0x01C s).toNat = s.cursor.srom.toNat % 2 ^ 32 ∧ (readAt 0x020 s).toNat = s.cursor.srom.toNat / 2 ^ 32 ∧
    (readAt 0x024 s).toNat = s.cursor.ld.toNat + 2 ^ 8 * s.cursor.lfd.toNat + 2 ^ 16 * s.cursor.exh.toNat ∧
    (s.cfg.wf → (readAt 0x028 s).toNat = s.cfg.bufSize) ∧
    ∀ w j, w < 64 → j < 4 → wordByte (readAt (0x100 + 4 * w) s) j = s.bufByte (4 * w + j)

/-- 20_memory.md R63: what an admitted write does to an idle engine, register by register. That an offset from 0x200 on is
reserved and ignores the write is the model's reading of R33 beside R60 (log entry 10, DEDUCED; 93_implementation_defined.md
U9). -/
def Obligations.IdleWritesAsListed : Prop :=
  ∀ (s : State) (a : Arrival) (off : Nat) (v : Word) (rest : List HostReq), s.seq = .idle → off % 4 = 0 →
    s.env.host = ⟨a, .write off 4 v⟩ :: rest →
    ∃ t, step s = .next t ∧
      (off = 0x000 → t = { s.setHost rest with ctrl := { en := v.getLsbD 0, crcEn := v.getLsbD 1 } }) ∧
      (off = 0x004 → t = { s.setHost rest with cmd := v, flags := { s.flags with done := false }, seq := .run v, pos := .start, tmp := .none }) ∧
      (off = 0x008 → t = { s.setHost rest with
        flags := { s.flags with done := s.flags.done && !v.getLsbD 1, ovr := s.flags.ovr && !v.getLsbD 2 } }) ∧
      (off = 0x010 → t = { s.setHost rest with acc := wordByte v 0 }) ∧
      (off = 0x014 → t = { s.setHost rest with rom := t.rom } ∧
        ∀ j, j < 8 → romByte t.rom j = if j < 4 then wordByte v j else romByte s.rom j) ∧
      (off = 0x018 → t = { s.setHost rest with rom := t.rom } ∧
        ∀ j, j < 8 → romByte t.rom j = if j < 4 then romByte s.rom j else wordByte v (j - 4)) ∧
      (off = 0x01C → t = { s.setHost rest with cursor := { s.cursor with srom := t.cursor.srom } } ∧
        ∀ j, j < 8 → romByte t.cursor.srom j = if j < 4 then wordByte v j else romByte s.cursor.srom j) ∧
      (off = 0x020 → t = { s.setHost rest with cursor := { s.cursor with srom := t.cursor.srom } } ∧
        ∀ j, j < 8 → romByte t.cursor.srom j = if j < 4 then romByte s.cursor.srom j else wordByte v (j - 4)) ∧
      (off = 0x024 → t = { s.setHost rest with
        cursor := { srom := s.cursor.srom, ld := BitVec.ofNat 7 v.toNat, lfd := BitVec.ofNat 4 (v.toNat / 2 ^ 8), exh := v.getLsbD 16 } }) ∧
      (0x100 ≤ off ∧ off < 0x200 → t = { s.setHost rest with buf := t.buf } ∧
        ∀ i, t.bufByte i =
          if off - 0x100 ≤ i ∧ i < off - 0x100 + 4 ∧ i < s.cfg.bufSize then wordByte v (i - (off - 0x100)) else s.bufByte i) ∧
      (off = 0x00C ∨ off = 0x028 ∨ (0x02C ≤ off ∧ off < 0x100) ∨ 0x200 ≤ off → t = s.setHost rest)

/-- R61: the only admitted access is an aligned 32-bit one; every other is refused, and an admitted one is not. -/
def Obligations.OnlyAlignedWordAccessesAreAdmitted : Prop :=
  ∀ (s : State) (a : Arrival) (off size : Nat) (v : Word) (rest : List HostReq) (op : HostOp),
    s.seq = .idle → op = .read off size ∨ op = .write off size v → s.env.host = ⟨a, op⟩ :: rest →
    (size = 4 ∧ off % 4 = 0 → ∃ t, step s = .next t ∧ t.env.host = rest) ∧
    (¬(size = 4 ∧ off % 4 = 0) → step s = .refused (.unadmittedAccess off size))

/-- 10_state.md R33: a reserved bit reads 0 and ignores writes, a reserved offset reads 0 and ignores writes, and neither sets
OVR, while idle or while a command runs. The clauses for every offset from 0x200 on are the model's reading (log entry 10,
DEDUCED): R33 says 'from 0x200 to the end of the window', R60 ends the window at 0x200, and U9 says '0x200 upward'. -/
def Obligations.ReservedBitsAndOffsetsAreInert : Prop :=
  (∀ (s : State) (off : Nat) (v : Word), (0x02C ≤ off ∧ off < 0x100) ∨ 0x200 ≤ off →
    readAt off s = 0 ∧ writeAt off v s = s ∧ busyRead off s = s.reply 0 ∧ busyWrite off s = s) ∧
  (∀ s : State,
    readAt 0x000 s &&& 0xFFFFFFFC = 0 ∧ readAt 0x008 s &&& 0xFFFFF0E0 = 0 ∧ readAt 0x00C s &&& 0xFFFFFF00 = 0 ∧
    readAt 0x010 s &&& 0xFFFFFF00 = 0 ∧ readAt 0x024 s &&& 0xFFFEF080 = 0 ∧ readAt 0x028 s &&& 0xFFFF0000 = 0) ∧
  ∀ (s : State) (v v' : Word),
    (v &&& 0x3 = v' &&& 0x3 → writeAt 0x000 v s = writeAt 0x000 v' s) ∧
    (v &&& 0x6 = v' &&& 0x6 → writeAt 0x008 v s = writeAt 0x008 v' s) ∧
    (v &&& 0xFF = v' &&& 0xFF → writeAt 0x010 v s = writeAt 0x010 v' s) ∧
    (v &&& 0x10F7F = v' &&& 0x10F7F → writeAt 0x024 v s = writeAt 0x024 v' s)

/-- R32: a word written to BUF reads back byte by byte where its bytes lie below BUF_SIZE and as 0 where they do not; the bytes
of other words stay. 20_memory.md R77 with R33 and 10_state.md R22: a word of the buffer area wholly at or above BUF_SIZE is
reserved: it reads 0 and ignores writes, with no OVR while a command runs (the model's reading where R22 and R77 differ: log
entry 11, DEDUCED). -/
def Obligations.BufferWordsReadBack : Prop :=
  (∀ (s : State) (w : Nat) (v : Word), w < 64 →
    (∀ j, j < 4 → wordByte (readAt (0x100 + 4 * w) (writeAt (0x100 + 4 * w) v s)) j = if 4 * w + j < s.cfg.bufSize then wordByte v j else 0) ∧
    ∀ w', w' < 64 → w' ≠ w → readAt (0x100 + 4 * w') (writeAt (0x100 + 4 * w) v s) = readAt (0x100 + 4 * w') s) ∧
  ∀ (s : State) (off : Nat) (v : Word), off % 4 = 0 → 0x100 + s.cfg.bufSize ≤ off → off < 0x200 →
    readAt off s = 0 ∧ writeAt off v s = s ∧ busyRead off s = s.reply 0 ∧ busyWrite off s = s

/-- 20_memory.md section 2 (R64): `{ROM_HI, ROM_LO}` read as one 64-bit value is the code, and its bit `k - 1` is ROM code bit
position `k`; the same for SROM. -/
def Obligations.RomHalvesMakeOneCode : Prop :=
  ∀ (s : State) (lo hi : Word),
    (writeAt 0x018 hi (writeAt 0x014 lo s)).rom.toNat = hi.toNat * 2 ^ 32 + lo.toNat ∧
    (writeAt 0x020 hi (writeAt 0x01C lo s)).cursor.srom.toNat = hi.toNat * 2 ^ 32 + lo.toNat ∧
    ∀ k, 1 ≤ k → k ≤ 64 →
      rombit (writeAt 0x018 hi (writeAt 0x014 lo s)).rom k = (if k ≤ 32 then lo.getLsbD (k - 1) else hi.getLsbD (k - 33)) ∧
      rombit (writeAt 0x018 hi (writeAt 0x014 lo s)).rom k =
        (romByte (writeAt 0x018 hi (writeAt 0x014 lo s)).rom ((k - 1) / 8)).getLsbD ((k - 1) % 8)

/-- 20_memory.md R60: the window's 0x200 offsets and its host addresses correspond; other addresses are not the engine's. -/
def Obligations.WindowOffsetsAreAddresses : Prop :=
  (∀ off, off < 0x200 → windowOffset (hostAddress off) = some off) ∧
  ∀ addr off, windowOffset addr = some off → off < 0x200 ∧ hostAddress off = addr

/-! ## The host's accesses to a running command -/

/-- 20_memory.md R66: a write that lands in a running command, at whatever point, has no register, buffer or bus effect: the
command ends as it would have without it, but OVR is set for CTRL, CMD, STATUS, CRC, ROM, SROM, SEARCH and BUF, and not for
DATA, INFO or a reserved offset. That an offset from 0x200 on is reserved is the model's reading of R33 beside R60 (log entry
10, DEDUCED; 93_implementation_defined.md U9). -/
def Obligations.BusyWritesAreDropped : Prop :=
  ∀ (i : Instr) (s : State) (p off : Nat) (v : Word), off % 4 = 0 → s.env.host = [⟨.during p, .write off 4 v⟩] →
    ∃ t t0, exec i s = .next t ∧ exec i (s.setHost []) = .next t0 ∧
      t = { t0 with flags := { t0.flags with ovr := t.flags.ovr }, env := { t0.env with host := t.env.host } } ∧
      (p ≤ s.pos.points + 1 → t.env.host = []) ∧
      (t.env.host = [] →
        (off = 0x000 ∨ off = 0x004 ∨ off = 0x008 ∨ off = 0x010 ∨ off = 0x014 ∨ off = 0x018 ∨ off = 0x01C ∨ off = 0x020 ∨ off = 0x024 ∨
          (0x100 ≤ off ∧ off < 0x200 ∧ off < 0x100 + s.cfg.bufSize) → t.flags.ovr = true) ∧
        (off = 0x00C ∨ off = 0x028 ∨ (0x02C ≤ off ∧ off < 0x100) ∨ 0x200 ≤ off → t.flags.ovr = s.flags.ovr))

/-- R67: a read while a command runs returns the current value of STATUS, CTRL, CMD or INFO, and any value (the free value of its
draw) for DATA, CRC, ROM, SROM, SEARCH and BUF; a read that lands changes nothing of the command. -/
def Obligations.BusyReadsAreExactOrOpen : Prop :=
  (∀ (s : State) (off : Nat),
    (off = 0x000 ∨ off = 0x004 ∨ off = 0x008 ∨ off = 0x028 → busyRead off s = s.reply (readAt off s)) ∧
    (off = 0x00C ∨ off = 0x010 ∨ off = 0x014 ∨ off = 0x018 ∨ off = 0x01C ∨ off = 0x020 ∨ off = 0x024 ∨
      (0x100 ≤ off ∧ off < 0x200 ∧ off % 4 = 0 ∧ off < 0x100 + s.cfg.bufSize) →
      busyRead off s = { s with env := { s.env with
        draws := s.env.draws + 1, replies := s.env.replies ++ [Config.busyRead s.env.draws] } })) ∧
  ∀ (i : Instr) (s : State) (off : Nat), off % 4 = 0 → s.env.host = [⟨.during 0, .read off 4⟩] →
    ∃ t t0, exec i s = .next t ∧ exec i (s.setHost []) = .next t0 ∧
      t = { t0 with env := { t0.env with replies := t.env.replies, draws := t.env.draws } } ∧
      t.env.replies = (busyRead off s).env.replies ∧ t.env.draws = (busyRead off s).env.draws

/-- R114 and R245 ("That changes neither the running command nor its result code", which the spec marks as derived from R66 and
R93): whatever host reads and writes land in a command, at whatever points, the command ends in the same registers, BUF, samples
and bus trace as with none; only OVR, the accesses still to come and the replies may differ. -/
def Obligations.HostAccessesNeverDisturbACommand : Prop :=
  ∀ (i : Instr) (s : State), s.unbroken →
    ∃ t t0, exec i s = .next t ∧ exec i (s.setHost []) = .next t0 ∧
      t = { t0 with
        flags := { t0.flags with ovr := t.flags.ovr },
        env := { t0.env with host := t.env.host, replies := t.env.replies, draws := t.env.draws } }

/-- 20_memory.md section 4 (R70, its first item), with R66, R67 and R100: host accesses take effect in issue order. A step of a
running command takes a first part `l` of the host's list, each access of it with its effect and its reply in the order of the
list (`Took`), and with the reset or the look that ends the step, if one does; a step of an idle engine takes the next access. A
poll of a WAIT that sees BUSY = 0 ends the WAIT: its further polls are not made. -/
def Obligations.HostAccessesTakeEffectInOrder : Prop :=
  (∀ s t : State, s.seq ≠ .idle → step s = .next t →
    ∃ l o, Took s l o t ∧
      ((s.env.host = l ++ t.env.host ∧ t.seq = .idle ∧ t.flags.ovr = o ∧ t.env.resets = s.env.resets) ∨
        (∃ a, s.env.host = l ++ ⟨a, .reset⟩ :: t.env.host ∧ t.seq = .idle ∧ t.env.resets = s.env.resets + 1) ∨
        ∃ a n, s.env.host = l ++ ⟨a, .look n⟩ :: t.env.host ∧ t.seq = s.seq ∧ t.flags.ovr = o ∧ t.env.resets = s.env.resets)) ∧
  ∀ (s : State) (r : HostReq) (rest : List HostReq), s.seq = .idle → s.env.host = r :: rest → r.op.admitted = true →
    ∃ t, step s = .next t ∧
      match r.op with
      | .read off _ => t.env.host = rest ∧ t.env.replies = s.env.replies ++ [readAt off s]
      | .write _ _ _ | .reset | .look _ => t.env.host = rest ∧ t.env.replies = s.env.replies
      | .poll last =>
        t.env.replies = s.env.replies ++ [readAt 0x008 s] ∧ (readAt 0x008 s).getLsbD 0 = false ∧
          t.env.host = if last then rest else dropPolls rest

/-! ## Reset, ends and invariants -/

/-- R270: what a hardware reset leaves, register by register, from every state; an idle engine takes the reset input as its next
step. (BUF is unspecified, and nothing is said of it.) -/
def Obligations.ResetValuesAsListed : Prop :=
  (∀ (s : State) (a : Arrival) (rest : List HostReq), s.seq = .idle → s.env.host = ⟨a, .reset⟩ :: rest →
    step s = .next (s.setHost rest).hardReset) ∧
  ∀ s r : State, r = s.hardReset ∨ r = State.reset →
    r.ctrl = { en := false, crcEn := false } ∧ r.cmd = 0 ∧ readAt 0x008 r = 0 ∧ r.data = 0 ∧ r.acc = 0 ∧ r.rom = 0 ∧
    r.cursor.srom = 0 ∧ readAt 0x024 r = 0 ∧ r.seq = .idle ∧ r.pin = .released ∧
    (r = s.hardReset → r.cfg = s.cfg ∧ readAt 0x028 r = readAt 0x028 s) ∧
    ∀ off, off < 0x100 → off ≠ 0x028 → readAt off r = 0

/-- 70_reset_and_hazards.md section 1 (R271): a hardware reset that lands in a running command, at whatever point, aborts it at
once: no completion, so DONE = 0, PIN is RELEASED and every register takes its reset value; the current phase is cut short (how
the model records the cut phase is its own choice, log entry 13). If the command ends before the reset's time has come, it ends
as usual. -/
def Obligations.ResetAbortsACommandAtOnce : Prop :=
  (∀ (i : Instr) (s : State) (p : Nat) (rest : List HostReq), s.env.host = ⟨.during p, .reset⟩ :: rest →
    ∃ t, exec i s = .next t ∧
      ((t.env.resets = s.env.resets + 1 ∧ t = { State.reset with cfg := s.cfg, env := t.env } ∧ t.flags.done = false ∧
          t.pin = .released ∧ t.env.host = rest) ∨
        (t.env.resets = s.env.resets ∧ t.flags.done = true ∧ t.pin = .released ∧ t.env.host = s.env.host)) ∧
      (p ≤ s.pos.points + 1 → t.env.resets = s.env.resets + 1)) ∧
  ∀ (pl : Place) (d : Pin) (least : Nat) (s : State) (p : Nat) (rest : List HostReq),
    s.env.host = ⟨.during p, .reset⟩ :: rest → p ≤ s.pos.points + 1 →
    phase pl d least s = .cut ((s.setHost rest).hardReset.cutShort d)

/-- R240 (with R271 for the reset): every command from every state ends: it completes (DONE set, the sequencer idle, the pin
released, CMD and the settings kept), or a hardware reset aborted it and every register is at its reset value, with DONE clear.
There is no other end. (A look, the model's own, ends only the step: log entry 24.) -/
def Obligations.EveryCommandCompletesOrIsReset : Prop :=
  ∀ (i : Instr) (s : State), s.noLook →
    ∃ t, exec i s = .next t ∧ t.seq = .idle ∧ t.pin = .released ∧ t.cfg = s.cfg ∧
      ((t.env.resets = s.env.resets ∧ t.flags.done = true ∧ t.cmd = s.cmd ∧ t.ctrl = s.ctrl) ∨
        (t.env.resets = s.env.resets + 1 ∧ t = { State.reset with cfg := s.cfg, env := t.env } ∧ t.flags.done = false ∧ ¬ s.noReset))

/-- R32, R37, R38, R39, R115, R241, R11: every step keeps the invariant: BUF in canonical form with no byte at or above
BUF_SIZE; the pin low exactly in a `drive_low` phase; the position one of the running command's, and neither position nor
temporaries outside a command; RESULT no code the engine never produces; the parameters as the spec admits. -/
def Obligations.EveryStepKeepsTheInvariant : Prop := ∀ s t : State, s.Inv → step s = .next t → t.Inv

/-- The state after reset meets the invariant. -/
def Obligations.ResetMeetsTheInvariant : Prop := State.reset.Inv

/-- R31 (INFO) and R35 (the timing table): no step, a reset among them, changes BUF_SIZE or the timing table. That none changes
the two command bytes or the zero test either is the model's choice, log entry 3 (DESIGN CHOICE) with 00_scope.md section 4
(R11), which lists them as parameters fixed for the machine; it does not follow from 10_state.md. -/
def Obligations.NoStepChangesTheParameters : Prop := ∀ s t : State, step s = .next t → t.cfg = s.cfg

/-- 10_state.md R26 to R32 and R34: which commands write which register. From every state, a command that is not cut by a reset
changes DATA only if it is READ_BIT or READ_BYTE, CRC.ACC only if CRC8_STEP or CRC8_BLOCK, ROM only if READ_ROM, the cursor only
if SEARCH_FIRST or SEARCH_NEXT, BUF only if READ_BLOCK, PRESENT and FOUND only if named in its rule, and CTRL and CMD never. -/
def Obligations.OnlyNamedCommandsWriteARegister : Prop :=
  ∀ (i : Instr) (s t : State), s.noLook → exec i s = .next t → t.env.resets = s.env.resets →
    (t.data ≠ s.data → i = .readBit ∨ i = .readByte) ∧
    (t.acc ≠ s.acc → (∃ b, i = .crc8Step b) ∨ ∃ n, i = .crc8Block n) ∧
    (t.rom ≠ s.rom → i = .readRom) ∧
    (t.cursor ≠ s.cursor → i = .searchFirst ∨ i = .searchNext) ∧
    (∀ a, t.bufByte a ≠ s.bufByte a → ∃ n, i = .readBlock n ∧ a < n.toNat) ∧
    (t.flags.present ≠ s.flags.present → i = .reset ∨ i = .readRom ∨ i = .searchFirst ∨ i = .searchNext ∨ i = .verifyRom) ∧
    (t.flags.found ≠ s.flags.found → i = .searchFirst ∨ i = .searchNext ∨ i = .verifyRom) ∧
    t.ctrl = s.ctrl ∧ t.cmd = s.cmd

/-- 60_exceptions.md section 1 (R241): which commands can report which code; a decoded command never reports a reserved code or
ILLEGAL_COMMAND. -/
def Obligations.ResultCodesHaveTheirRaisers : Prop :=
  ∀ (i : Instr) (s t : State), s.noLook → exec i s = .next t → t.env.resets = s.env.resets →
    match t.flags.result with
    | .ok => True
    | .notPresent => i = .reset ∨ i = .readRom ∨ i = .searchFirst ∨ i = .searchNext ∨ i = .verifyRom
    | .crcMismatch => (i = .readRom ∧ s.ctrl.crcEn = true) ∨ i = .searchFirst ∨ i = .searchNext ∨ i = .verifyRom
    | .invalidArgument =>
      (i.opcode.toNat ≤ 0x0C ∧ s.ctrl.en = false) ∨
        ∃ n : Half, s.cfg.bufSize < n.toNat ∧ (i = .writeBlock n ∨ i = .readBlock n ∨ i = .crc8Block n)
    | .notFound => i = .searchFirst ∨ i = .searchNext ∨ i = .verifyRom
    | .verifyMismatch => False
    | .invalidResolution => False
    | .illegalCommand => False

/-- R25, R34: OVR, once set, stays until a write of 1 to STATUS bit 2 while idle or a hardware reset. -/
def Obligations.OverrunStaysUntilCleared : Prop :=
  ∀ s t : State, step s = .next t → s.flags.ovr = true → t.flags.ovr = false →
    t.env.resets = s.env.resets + 1 ∨
      (s.seq = .idle ∧ ∃ a v rest, s.env.host = ⟨a, .write 0x008 4 v⟩ :: rest ∧ v.getLsbD 2 = true)

/-! ## The bus physical layer -/

/-- R120: RESET. -/
def Obligations.ResetCommandReportsPresence : Prop :=
  decodeWord 0x00000001 = .ok .reset ∧
  ∀ s : State, s.unbroken →
    (s.ctrl.en = true → ∃ t, exec .reset s = .next t ∧ SameBuf s t ∧
      EndsAs s (resetTrace s.cfg.timing (s.upcoming 0) (s.upcoming 1))
        ((s.setPresent (!s.upcoming 0 && s.upcoming 1)).complete (if !s.upcoming 0 && s.upcoming 1 then .ok else .notPresent)) t) ∧
    (s.ctrl.en = false → ∃ t, exec .reset s = .next t ∧ SameBuf s t ∧ EndsAs s [] (s.complete .invalidArgument) t)

/-- R130: WRITE_BIT. -/
def Obligations.WriteBitDrivesOneSlot : Prop :=
  decodeWord 0x00000002 = .ok (.writeBit false) ∧ decodeWord 0x00000102 = .ok (.writeBit true) ∧
  ∀ (b : Bool) (s : State), s.unbroken →
    (s.ctrl.en = true → ∃ t, exec (.writeBit b) s = .next t ∧ SameBuf s t ∧
      EndsAs s (if b then [.low s.cfg.timing.tA, .rel s.cfg.timing.tB] else [.low s.cfg.timing.tC, .rel s.cfg.timing.tD])
        (s.complete .ok) t) ∧
    (s.ctrl.en = false → ∃ t, exec (.writeBit b) s = .next t ∧ SameBuf s t ∧ EndsAs s [] (s.complete .invalidArgument) t)

/-- R131: READ_BIT. -/
def Obligations.ReadBitStoresTheLevel : Prop :=
  decodeWord 0x00000003 = .ok .readBit ∧
  ∀ s : State, s.unbroken →
    (s.ctrl.en = true → ∃ t, exec .readBit s = .next t ∧ SameBuf s t ∧
      EndsAs s [.low s.cfg.timing.tA, .rel s.cfg.timing.tE, .smp (s.upcoming 0), .rel s.cfg.timing.tF]
        (({ s with data := if s.upcoming 0 then 1 else 0 } : State).complete .ok) t) ∧
    (s.ctrl.en = false → ∃ t, exec .readBit s = .next t ∧ SameBuf s t ∧ EndsAs s [] (s.complete .invalidArgument) t)

/-- R140: WRITE_BYTE. -/
def Obligations.WriteByteSendsBitsLowFirst : Prop :=
  (∀ v : Byte, decodeWord (BitVec.ofNat 32 (v.toNat * 2 ^ 8 + 0x04)) = .ok (.writeByte v)) ∧
  ∀ (v : Byte) (s : State), s.unbroken →
    (s.ctrl.en = true → ∃ t, exec (.writeByte v) s = .next t ∧ SameBuf s t ∧
      EndsAs s (writeBitsTrace s.cfg.timing ((List.range 8).map fun i => v.getLsbD i)) (s.complete .ok) t) ∧
    (s.ctrl.en = false → ∃ t, exec (.writeByte v) s = .next t ∧ SameBuf s t ∧ EndsAs s [] (s.complete .invalidArgument) t)

/-- R141: READ_BYTE: the first bit read is bit 0. -/
def Obligations.ReadByteAssemblesBitsLowFirst : Prop :=
  decodeWord 0x00000005 = .ok .readByte ∧
  ∀ s : State, s.unbroken →
    (s.ctrl.en = true → ∀ v : Byte, (∀ i, i < 8 → v.getLsbD i = s.upcoming i) →
      ∃ t, exec .readByte s = .next t ∧ SameBuf s t ∧
        EndsAs s (readBitsTrace s.cfg.timing (s.levels 0 8)) (({ s with data := v } : State).complete .ok) t) ∧
    (s.ctrl.en = false → ∃ t, exec .readByte s = .next t ∧ SameBuf s t ∧ EndsAs s [] (s.complete .invalidArgument) t)

/-- R150: WRITE_BLOCK. -/
def Obligations.WriteBlockSendsTheBuffer : Prop :=
  (∀ n : Half, decodeWord (BitVec.ofNat 32 (n.toNat * 2 ^ 16 + 0x06)) = .ok (.writeBlock n)) ∧
  ∀ (n : Half) (s : State), s.unbroken →
    (s.ctrl.en = true → n.toNat ≤ s.cfg.bufSize → ∃ t, exec (.writeBlock n) s = .next t ∧ SameBuf s t ∧
      EndsAs s (writeBytesTrace s.cfg.timing ((List.range n.toNat).map fun j => s.bufByte j)) (s.complete .ok) t) ∧
    (s.ctrl.en = false ∨ s.cfg.bufSize < n.toNat →
      ∃ t, exec (.writeBlock n) s = .next t ∧ SameBuf s t ∧ EndsAs s [] (s.complete .invalidArgument) t)

/-- R151: READ_BLOCK: bit `i` of `BUF[j]` is sample `8j + i`; BUF at or above LEN stays. -/
def Obligations.ReadBlockFillsTheBuffer : Prop :=
  (∀ n : Half, decodeWord (BitVec.ofNat 32 (n.toNat * 2 ^ 16 + 0x07)) = .ok (.readBlock n)) ∧
  ∀ (n : Half) (s : State), s.unbroken →
    (s.ctrl.en = true → n.toNat ≤ s.cfg.bufSize → ∃ t, exec (.readBlock n) s = .next t ∧
      EndsAs s (readBitsTrace s.cfg.timing (s.levels 0 (8 * n.toNat))) (s.complete .ok) t ∧
      (∀ j, j < n.toNat → ∀ i, i < 8 → (t.bufByte j).getLsbD i = s.upcoming (8 * j + i)) ∧
      ∀ a, n.toNat ≤ a → t.bufByte a = s.bufByte a) ∧
    (s.ctrl.en = false ∨ s.cfg.bufSize < n.toNat →
      ∃ t, exec (.readBlock n) s = .next t ∧ SameBuf s t ∧ EndsAs s [] (s.complete .invalidArgument) t)

/-- R152: WRITE_ROM_CODE: the 64 bits go out in ROM position order 1 to 64. -/
def Obligations.WriteRomCodeSendsPositionsInOrder : Prop :=
  decodeWord 0x00000008 = .ok .writeRomCode ∧
  ∀ s : State, s.unbroken →
    (s.ctrl.en = true → ∃ t, exec .writeRomCode s = .next t ∧ SameBuf s t ∧
      EndsAs s (writeBitsTrace s.cfg.timing ((List.range 64).map fun i => rombit s.rom (i + 1))) (s.complete .ok) t) ∧
    (s.ctrl.en = false → ∃ t, exec .writeRomCode s = .next t ∧ SameBuf s t ∧ EndsAs s [] (s.complete .invalidArgument) t)

/-- 40_bus_phy.md section 2: in the bus trace of every command each sample is taken with the pin released: nothing but samples
comes between the last release phase and it. (R112, an inference the spec marks "[derived: from rule R116, rule R117 and rule
R118]".) -/
def Obligations.SamplesAreTakenReleased : Prop :=
  ∀ (i : Instr) (s t : State) (es : List BusEvent), s.unbroken → exec i s = .next t → t.env.trace = s.env.trace ++ es →
    ∀ (before after : List BusEvent) (v : Bool), es = before ++ .smp v :: after →
      ∃ first d more, before = first ++ .rel d :: more ∧ ∀ e ∈ more, ∃ x, e = .smp x

/-- 70_reset_and_hazards.md section 4: at the timing table of R110 a command that its prologue does not end takes at least its
nominal bus time. (R155, R214 and R290 are inferences the spec marks as derived: "No rule depends on these figures".) -/
def Obligations.NominalBusTimesAreLowerBounds : Prop :=
  ∀ (i : Instr) (s t : State), s.cfg.timing = Timing.standard → s.unbroken → exec i s = .next t →
    let took := busTime t.env.trace - busTime s.env.trace
    t.flags.result ≠ .invalidArgument →
    match i with
    | .reset => 3840 ≤ took
    | .writeBit _ | .readBit => 280 ≤ took
    | .writeByte _ | .readByte => 2240 ≤ took
    | .writeBlock n | .readBlock n => 2240 * n.toNat ≤ took
    | .writeRomCode => 17920 ≤ took
    | .readRom => if t.flags.present then 24000 ≤ took else 3840 ≤ took
    | .searchFirst | .searchNext | .verifyRom => t.flags.result = .ok → 59840 ≤ took
    | .crc8Step _ | .crc8Block _ => took = 0

/-! ## CRC-8 -/

/-- 41_crc8.md section 1: the table step is the bit-serial CRC for every accumulator and byte. (R161, an inference the spec
marks "[derived: from rule R160 and rule R162]".) -/
def Obligations.CrcTableStepIsBitSerial : Prop :=
  ∀ acc b : Byte, crc8 acc b = crcTable.getD (acc ^^^ b).toNat 0 ∧ crcTable.getD (acc ^^^ b).toNat 0 = crc8Bitwise acc b

/-- 41_crc8.md section 1 (R164): a sequence followed by its own CRC folds to 0, from every starting accumulator. -/
def Obligations.CrcSelfCheckFoldsToZero : Prop := ∀ (a : Byte) (d : List Byte), crc8Bytes a (d ++ [crc8Bytes a d]) = 0

/-- 41_crc8.md: the step is linear, each entry is the XOR of the entries of its set bits, and the eight basis values. (R167, an
inference the spec marks "[derived: from rule R160 and rule R162]".) -/
def Obligations.CrcTableIsLinear : Prop :=
  let T : Byte → Byte := fun i => crcTable.getD i.toNat 0
  (∀ a b : Byte, T (a ^^^ b) = T a ^^^ T b) ∧
  (∀ i : Byte, T i = (List.range 8).foldl (fun x j => if i.getLsbD j then x ^^^ T (BitVec.twoPow 8 j) else x) 0) ∧
  (List.range 8).map (fun j => T (BitVec.twoPow 8 j)) = [0x5E, 0xBC, 0x61, 0xC2, 0x9D, 0x23, 0x46, 0x8C]

/-- R165: CRC8_STEP; CTRL.EN is not asked. -/
def Obligations.Crc8StepFoldsOneByte : Prop :=
  (∀ b : Byte, decodeWord (BitVec.ofNat 32 (b.toNat * 2 ^ 8 + 0x10)) = .ok (.crc8Step b)) ∧
  ∀ (b : Byte) (s : State), s.unbroken → ∃ t, exec (.crc8Step b) s = .next t ∧ SameBuf s t ∧
    EndsAs s [] (({ s with acc := crcTable.getD (s.acc ^^^ b).toNat 0 } : State).complete .ok) t

/-- R166: CRC8_BLOCK; CTRL.EN is not asked. -/
def Obligations.Crc8BlockFoldsTheBuffer : Prop :=
  (∀ n : Half, decodeWord (BitVec.ofNat 32 (n.toNat * 2 ^ 16 + 0x11)) = .ok (.crc8Block n)) ∧
  ∀ (n : Half) (s : State), s.unbroken →
    (n.toNat ≤ s.cfg.bufSize → ∃ t, exec (.crc8Block n) s = .next t ∧ SameBuf s t ∧
      EndsAs s [] (({ s with acc := ((List.range n.toNat).map fun j => s.bufByte j).foldl crc8 s.acc } : State).complete .ok) t) ∧
    (s.cfg.bufSize < n.toNat →
      ∃ t, exec (.crc8Block n) s = .next t ∧ SameBuf s t ∧ EndsAs s [] (s.complete .invalidArgument) t)

/-! ## ROM codes -/

/-- 42_rom_code.md section 1: the accessors of a ROM code. (R181, which the spec marks "[derived: from rule R180 and
20_memory.md rule R64]".) -/
def Obligations.RomAccessorsReadTheFields : Prop :=
  ∀ c : RomCode,
    romFamily c = romByte c 0 ∧ romCrc c = romByte c 7 ∧
    (romSerial c).toNat = ((List.range 6).map fun j => (romByte c (j + 1)).toNat * 2 ^ (8 * j)).sum ∧
    c.toNat = ((List.range 8).map fun j => (romByte c j).toNat * 2 ^ (8 * j)).sum

/-- 42_rom_code.md section 1 (R182, its first sentence): a code is valid iff its CRC byte is the CRC of its first seven bytes.
-/
def Obligations.ValidCodesCarryTheirCrc : Prop :=
  ∀ c : RomCode, romValid c = true ↔ romByte c 7 = crc8Bytes 0 ((List.range 7).map (romByte c))

/-- 42_rom_code.md R185: the text has 16 digits, high nibble first, bytes in increasing index, and determines the code. -/
def Obligations.RomTextDeterminesTheCode : Prop :=
  (∀ c : RomCode, (romTextChars c).length = 16 ∧
    ∀ j, j < 8 → (romTextChars c)[2 * j]? = some (hexDigit ((romByte c j).toNat / 16)) ∧
      (romTextChars c)[2 * j + 1]? = some (hexDigit ((romByte c j).toNat % 16))) ∧
  ∀ c d : RomCode, romText c = romText d → c = d

/-- R186: READ_ROM. The code `c` is the 64 samples after the reset's two, in position order. -/
def Obligations.ReadRomReadsCheckedCode : Prop :=
  decodeWord 0x00000009 = .ok .readRom ∧
  ∀ s : State, s.unbroken →
    (s.ctrl.en = true → (!s.upcoming 0 && s.upcoming 1) = false → ∃ t, exec .readRom s = .next t ∧ SameBuf s t ∧
      EndsAs s (resetTrace s.cfg.timing (s.upcoming 0) (s.upcoming 1))
        (({ s.setPresent false with rom := 0 } : State).complete .notPresent) t) ∧
    (s.ctrl.en = true → (!s.upcoming 0 && s.upcoming 1) = true → ∀ c : RomCode, (∀ k, k < 64 → c.getLsbD k = s.upcoming (2 + k)) →
      ∃ t, exec .readRom s = .next t ∧ SameBuf s t ∧
        EndsAs s
          (resetTrace s.cfg.timing (s.upcoming 0) (s.upcoming 1) ++ writeBytesTrace s.cfg.timing [s.cfg.cmdReadRom] ++
            readBitsTrace s.cfg.timing (s.levels 2 64))
          (if s.ctrl.crcEn && crc8Bytes 0 (romBytes c) != 0 then ({ s.setPresent true with rom := 0 } : State).complete .crcMismatch
            else ({ s.setPresent true with rom := c } : State).complete .ok) t) ∧
    (s.ctrl.en = false → ∃ t, exec .readRom s = .next t ∧ SameBuf s t ∧ EndsAs s [] (s.complete .invalidArgument) t)

/-! ## Search and verify -/

/-- R210: SEARCH_FIRST: the cursor is cleared, then one pass of R202 over the samples to come. -/
def Obligations.SearchFirstRunsAFreshPass : Prop :=
  decodeWord 0x0000000A = .ok .searchFirst ∧
  ∀ s : State, s.unbroken →
    (s.ctrl.en = true → ∃ t, exec .searchFirst s = .next t ∧ SameBuf s t ∧
      EndsAs s (walkPass s.cfg s.upcoming (Cursor.fresh 0)).2
        (((({ s with cursor := (walkPass s.cfg s.upcoming (Cursor.fresh 0)).1.2 } : State).setPresent
          (!s.upcoming 0 && s.upcoming 1)).setFound ((walkPass s.cfg s.upcoming (Cursor.fresh 0)).1.1 == .ok)).complete
          (walkPass s.cfg s.upcoming (Cursor.fresh 0)).1.1) t) ∧
    (s.ctrl.en = false → ∃ t, exec .searchFirst s = .next t ∧ SameBuf s t ∧ EndsAs s [] (s.complete .invalidArgument) t)

/-- R211: SEARCH_NEXT: one pass of R202 from the cursor as it stands; PRESENT is written unless EXH was 1 on entry. -/
def Obligations.SearchNextRunsAPassFromTheCursor : Prop :=
  decodeWord 0x0000000B = .ok .searchNext ∧
  ∀ s : State, s.unbroken →
    (s.ctrl.en = true → ∃ t, exec .searchNext s = .next t ∧ SameBuf s t ∧
      EndsAs s (walkPass s.cfg s.upcoming s.cursor).2
        (((({ s with cursor := (walkPass s.cfg s.upcoming s.cursor).1.2 } : State).setPresent
          (if s.cursor.exh then s.flags.present else !s.upcoming 0 && s.upcoming 1)).setFound
          ((walkPass s.cfg s.upcoming s.cursor).1.1 == .ok)).complete (walkPass s.cfg s.upcoming s.cursor).1.1) t) ∧
    (s.ctrl.en = false → ∃ t, exec .searchNext s = .next t ∧ SameBuf s t ∧ EndsAs s [] (s.complete .invalidArgument) t)

/-- R212: VERIFY_ROM: a pass with the private cursor `(ROM, 64, 0, 0)`, then the compare; ROM, SROM, SEARCH and CRC.ACC stay. -/
def Obligations.VerifyRomComparesTheWalkedCode : Prop :=
  decodeWord 0x0000000C = .ok .verifyRom ∧
  ∀ s : State, s.unbroken →
    let w := walkPass s.cfg s.upcoming { srom := s.rom, ld := 64, lfd := 0, exh := false }
    let code := if w.1.1 = .ok ∧ w.1.2.srom ≠ s.rom then .notFound else w.1.1
    (s.ctrl.en = true → ∃ t, exec .verifyRom s = .next t ∧ SameBuf s t ∧
      EndsAs s w.2 (((s.setPresent (!s.upcoming 0 && s.upcoming 1)).setFound (code == .ok)).complete code) t) ∧
    (s.ctrl.en = false → ∃ t, exec .verifyRom s = .next t ∧ SameBuf s t ∧ EndsAs s [] (s.complete .invalidArgument) t)

/-- 43_search.md section 1 (R208, all but what later calls do): with EXH = 1 on entry SEARCH_NEXT has no bus activity, resets
the cursor, keeps SROM and PRESENT, and reports NOT_FOUND. -/
def Obligations.ExhaustedSearchReportsOnce : Prop :=
  ∀ s : State, s.unbroken → s.ctrl.en = true → s.cursor.exh = true →
    ∃ t, exec .searchNext s = .next t ∧ SameBuf s t ∧
      EndsAs s [] ((({ s with cursor := { srom := s.cursor.srom, ld := 0, lfd := 0, exh := false } } : State).setFound false).complete
        .notFound) t

/-- 43_search.md R201 and R203: the pair (1, 1) gives no direction, and the pass is aborted with nothing written and nothing
recorded (R207); every other pair gives one: what it is where the pair is no discrepancy, and at the discrepancy (0, 0), what is
recorded (`p'`), and that bit `k` of SROM, and no other, takes the direction (`p''`). The record is in the cursor registers
before the write slot, the bit of SROM after it (R29); VERIFY_ROM's pass writes neither (R212). -/
def Obligations.DirectionFollowsLastDiscrepancy : Prop :=
  ∀ (k : Nat) (p : Pass), 1 ≤ k → k ≤ 64 →
    choose true true k p = none ∧
    (∀ (w : Walked) (rest : Pass → State → Ran (Bool × Pass)) (s : State),
      searchTurn w k p rest true true s = .ok (false, p) s) ∧
    ∀ a c : Bool, ¬(a = true ∧ c = true) → ∃ dir p', choose a c k p = some (dir, p') ∧
      (a ≠ c → dir = a ∧ p'.lastZero = p.lastZero ∧ p'.cursor.lfd = p.cursor.lfd) ∧
      (a = false ∧ c = false →
        (k < p.cursor.ld.toNat → dir = rombit p.cursor.srom k) ∧ (k = p.cursor.ld.toNat → dir = true) ∧
        (p.cursor.ld.toNat < k → dir = false) ∧
        (dir = true → p'.lastZero = p.lastZero ∧ p'.cursor.lfd = p.cursor.lfd) ∧
        (dir = false → p'.lastZero = k ∧ p'.cursor.lfd.toNat = if k ≤ 8 then k else p.cursor.lfd.toNat)) ∧
      p'.cursor.ld = p.cursor.ld ∧ p'.cursor.exh = p.cursor.exh ∧ p'.cursor.srom = p.cursor.srom ∧
      ∃ p'' : Pass,
        (∀ j, 1 ≤ j → j ≤ 64 → rombit p''.cursor.srom j = if j = k then dir else rombit p.cursor.srom j) ∧
        p''.cursor = { p'.cursor with srom := p''.cursor.srom } ∧ p''.lastZero = p'.lastZero ∧
        (∀ (w : Walked) (rest : Pass → State → Ran (Bool × Pass)) (s : State),
          searchTurn w k p rest a c s =
            (writeBit dir ((s.withPass w p').atPair k none)).andThen fun _ t => rest p'' (t.withPass w p'')) ∧
        ∀ s : State, (s.withPass .registers p').cursor = p'.cursor ∧ (s.withPass .registers p'').cursor = p''.cursor ∧
          (s.withPass .own p').cursor = s.cursor ∧ (s.withPass .own p'').cursor = s.cursor

/-- 43_search.md R204 to R207: a search that reports a device leaves a code that passes the CRC test and the zero test, whatever
CRC_EN holds, with EXH set exactly when LD is 0; a search that runs and fails leaves FOUND = 0 and LD, LFD, EXH reset. -/
def Obligations.SearchLeavesAFoundCodeOrAFreshCursor : Prop :=
  ∀ (i : Instr) (s t : State), i = .searchFirst ∨ i = .searchNext → s.noLook → exec i s = .next t → t.env.resets = s.env.resets →
    s.ctrl.en = true →
    (t.flags.result = .ok → t.flags.found = true ∧ romValid t.cursor.srom = true ∧ zeroTestHolds s.cfg.zeroTest t.cursor.srom = false ∧
      (t.cursor.exh = true ↔ t.cursor.ld = 0)) ∧
    (t.flags.result ≠ .ok → t.flags.found = false ∧ t.cursor.ld = 0 ∧ t.cursor.lfd = 0 ∧ t.cursor.exh = false)

/-- 43_search.md R213 law 1 (an inference the spec marks "[derived: from rule R202, rule R203, rule R206 and rule R208]"), first
call, for both zero tests, on the reference bus of 95_test_vectors.md: SEARCH_FIRST finds the earliest code of the devices and
leaves the cursor at it. -/
def Obligations.SearchFirstFindsTheEarliestDevice : Prop :=
  ∀ (s : State) (devices : List RomCode), GoodDevices s.cfg.zeroTest devices → s.unbroken → s.ctrl.en = true →
    refPass devices (Cursor.fresh 0) <+: s.env.line →
    ∃ t, exec .searchFirst s = .next t ∧ t.flags.result = .ok ∧ t.flags.found = true ∧ CursorAt devices t.cursor ∧
      ∀ d ∈ devices, d = t.cursor.srom ∨ earlier t.cursor.srom d

/-- 43_search.md R213 laws 1 and 2 (an inference the spec marks "[derived: from rule R202, rule R203, rule R206 and rule
R208]"), later calls, for both zero tests, on the reference bus: from the cursor at a device, if there is a later one,
SEARCH_NEXT finds the next in order, skipping none; and the cursor is exhausted exactly at the last. -/
def Obligations.SearchNextFindsTheNextDevice : Prop :=
  ∀ (s : State) (devices : List RomCode), GoodDevices s.cfg.zeroTest devices → CursorAt devices s.cursor →
    (s.cursor.exh = true ↔ ∀ d ∈ devices, ¬ earlier s.cursor.srom d) ∧
    (s.unbroken → s.ctrl.en = true → s.cursor.exh = false →
      refPass devices s.cursor <+: s.env.line →
      ∃ t, exec .searchNext s = .next t ∧ t.flags.result = .ok ∧ t.flags.found = true ∧ CursorAt devices t.cursor ∧
        earlier s.cursor.srom t.cursor.srom ∧
        ∀ d ∈ devices, earlier s.cursor.srom d → d = t.cursor.srom ∨ earlier t.cursor.srom d)

/-- 43_search.md R212 (its corner cases, partly marked "[derived: from 42_rom_code.md rule R182]"), for both zero tests, on the
reference bus: VERIFY_ROM finds the device in ROM exactly when it is on the bus. -/
def Obligations.VerifyRomFindsExactlyThePresentDevice : Prop :=
  ∀ (s : State) (devices : List RomCode), GoodDevices s.cfg.zeroTest devices → s.unbroken → s.ctrl.en = true →
    refPass devices (verifyCursor s.rom) <+: s.env.line →
    ∃ t, exec .verifyRom s = .next t ∧ t.rom = s.rom ∧ t.cursor = s.cursor ∧
      (s.rom ∈ devices → t.flags.result = .ok ∧ t.flags.found = true) ∧
      (s.rom ∉ devices → t.flags.result = .notFound ∧ t.flags.found = false)
end

