-- ==== Sys2Proof/Laws/Bits.lean ====
section
/-! SUPPORT. Bits of bytes and ROM codes: the byte helpers invert one another, and one bit of a ROM code is set without touching the
others. -/

namespace Sys2Proof.Machine

/-- Bit `i` of the byte that eight bits make is the `i`-th bit (R123). -/
theorem byteOfBits_getLsbD (bs : List Bool) (i : Nat) (hi : i < 8) : (byteOfBits bs).getLsbD i = bs.getD i false := by
  induction bs generalizing i with
  | nil => simp [byteOfBits]
  | cons b bs ih =>
    cases i with
    | zero => cases b <;> simp [byteOfBits]
    | succ i =>
      have h1 : ((if b then (1 : Byte) else 0)).getLsbD (i + 1) = false := by
        cases b <;> simp [BitVec.getLsbD, Nat.testBit_succ]
      rw [byteOfBits, BitVec.getLsbD_or, BitVec.getLsbD_shiftLeft, h1, Nat.add_sub_cancel, ih i (by omega)]
      simp [hi]

theorem byteBits_getD (v : Byte) (i : Nat) (hi : i < 8) : (byteBits v).getD i false = v.getLsbD i := by
  interval_cases i <;> rfl

theorem byteOfBits_byteBits (v : Byte) : byteOfBits (byteBits v) = v := by
  refine BitVec.eq_of_getLsbD_eq fun i hi => ?_
  rw [byteOfBits_getLsbD _ _ hi, byteBits_getD _ _ hi]

/-- Bit `i` of byte `j` of a ROM code (R13, R64). -/
theorem romByte_getLsbD (c : RomCode) (j i : Nat) (hi : i < 8) : (romByte c j).getLsbD i = c.getLsbD (8 * j + i) := by
  simp [romByte, hi]

theorem romOfBytes_getLsbD (vs : List Byte) (j i : Nat) (hi : i < 8) (hj : 8 * j + i < 64) :
    (romOfBytes vs).getLsbD (8 * j + i) = (vs.getD j 0).getLsbD i := by
  induction vs generalizing j with
  | nil => simp [romOfBytes]
  | cons v vs ih =>
    cases j with
    | zero => simp [romOfBytes, hi, show i < 64 by omega]
    | succ j =>
      rw [romOfBytes, BitVec.getLsbD_or, BitVec.getLsbD_shiftLeft, show 8 * (j + 1) + i - 8 = 8 * j + i by omega, ih j (by omega),
        BitVec.getLsbD_setWidth, BitVec.getLsbD_of_ge v (8 * (j + 1) + i) (by omega)]
      simp [show ¬ 8 * (j + 1) + i < 8 by omega, show 8 * (j + 1) + i < 64 from hj]

/-- The code of eight bytes has those bytes (R180). -/
theorem romBytes_romOfBytes (vs : List Byte) (h : vs.length = 8) : romBytes (romOfBytes vs) = vs := by
  have hb : ∀ j, j < 8 → romByte (romOfBytes vs) j = vs.getD j 0 := fun j hj =>
    BitVec.eq_of_getLsbD_eq fun i hi => by rw [romByte_getLsbD _ _ _ hi, romOfBytes_getLsbD _ _ _ hi (by omega)]
  refine List.ext_getElem (by simp [romBytes, h]) fun j h1 h2 => ?_
  have hj : j < 8 := by simpa [romBytes] using h1
  refine Eq.trans (b := romByte (romOfBytes vs) j) (by interval_cases j <;> rfl) ?_
  rw [hb j hj]
  simp [h2]

/-- R13: `setrombit` sets one position and leaves the others. -/
theorem rombit_setrombit (c : RomCode) (k j : Nat) (d : Bool) (hk : 1 ≤ k ∧ k ≤ 64) (hj : 1 ≤ j ∧ j ≤ 64) :
    rombit (setrombit c k d) j = if j = k then d else rombit c j := by
  have hm : ∀ i, i < 64 → ((1 : RomCode) <<< (k - 1)).getLsbD i = decide (i = k - 1) := fun i hi => by
    have h1 : ∀ n, (1 : RomCode).getLsbD n = decide (n = 0) := fun n => by
      cases n <;> simp [BitVec.getLsbD, Nat.testBit_succ]
    rw [BitVec.getLsbD_shiftLeft, h1]
    by_cases h : i = k - 1
    · simp [h, show k - 1 < 64 by omega]
    · simp [h, hi]
      omega
  have hi : j - 1 < 64 := by omega
  have hd : decide (j - 1 = k - 1) = decide (j = k) := by rw [decide_eq_decide]; omega
  unfold rombit setrombit
  cases d
  · rw [if_neg (by simp), BitVec.getLsbD_and, BitVec.getLsbD_not, hm _ hi, hd]
    by_cases h : j = k <;> simp [h, hi]
  · rw [if_pos rfl, BitVec.getLsbD_or, hm _ hi, hd]
    by_cases h : j = k <;> simp [h]

end Sys2Proof.Machine
end

