-- ==== Sys2Proof/Laws/State.lean ====
section
/-! SUPPORT. One lemma per field of State per update, each true by unfolding the update; later proofs use these and unfold no
record update. -/

namespace Sys2Proof.Machine

/-! ### setPresent -/

@[simp] theorem State.setPresent_cfg (s : State) (p : Bool) : (s.setPresent p).cfg = s.cfg := rfl
@[simp] theorem State.setPresent_ctrl (s : State) (p : Bool) : (s.setPresent p).ctrl = s.ctrl := rfl
@[simp] theorem State.setPresent_cmd (s : State) (p : Bool) : (s.setPresent p).cmd = s.cmd := rfl
@[simp] theorem State.setPresent_flags (s : State) (p : Bool) : (s.setPresent p).flags = { s.flags with present := p } := rfl
@[simp] theorem State.setPresent_data (s : State) (p : Bool) : (s.setPresent p).data = s.data := rfl
@[simp] theorem State.setPresent_acc (s : State) (p : Bool) : (s.setPresent p).acc = s.acc := rfl
@[simp] theorem State.setPresent_rom (s : State) (p : Bool) : (s.setPresent p).rom = s.rom := rfl
@[simp] theorem State.setPresent_cursor (s : State) (p : Bool) : (s.setPresent p).cursor = s.cursor := rfl
@[simp] theorem State.setPresent_buf (s : State) (p : Bool) : (s.setPresent p).buf = s.buf := rfl
@[simp] theorem State.setPresent_seq (s : State) (p : Bool) : (s.setPresent p).seq = s.seq := rfl
@[simp] theorem State.setPresent_pos (s : State) (p : Bool) : (s.setPresent p).pos = s.pos := rfl
@[simp] theorem State.setPresent_tmp (s : State) (p : Bool) : (s.setPresent p).tmp = s.tmp := rfl
@[simp] theorem State.setPresent_pin (s : State) (p : Bool) : (s.setPresent p).pin = s.pin := rfl
@[simp] theorem State.setPresent_env (s : State) (p : Bool) : (s.setPresent p).env = s.env := rfl

/-! ### setFound -/

@[simp] theorem State.setFound_cfg (s : State) (b : Bool) : (s.setFound b).cfg = s.cfg := rfl
@[simp] theorem State.setFound_ctrl (s : State) (b : Bool) : (s.setFound b).ctrl = s.ctrl := rfl
@[simp] theorem State.setFound_cmd (s : State) (b : Bool) : (s.setFound b).cmd = s.cmd := rfl
@[simp] theorem State.setFound_flags (s : State) (b : Bool) : (s.setFound b).flags = { s.flags with found := b } := rfl
@[simp] theorem State.setFound_data (s : State) (b : Bool) : (s.setFound b).data = s.data := rfl
@[simp] theorem State.setFound_acc (s : State) (b : Bool) : (s.setFound b).acc = s.acc := rfl
@[simp] theorem State.setFound_rom (s : State) (b : Bool) : (s.setFound b).rom = s.rom := rfl
@[simp] theorem State.setFound_cursor (s : State) (b : Bool) : (s.setFound b).cursor = s.cursor := rfl
@[simp] theorem State.setFound_buf (s : State) (b : Bool) : (s.setFound b).buf = s.buf := rfl
@[simp] theorem State.setFound_seq (s : State) (b : Bool) : (s.setFound b).seq = s.seq := rfl
@[simp] theorem State.setFound_pos (s : State) (b : Bool) : (s.setFound b).pos = s.pos := rfl
@[simp] theorem State.setFound_tmp (s : State) (b : Bool) : (s.setFound b).tmp = s.tmp := rfl
@[simp] theorem State.setFound_pin (s : State) (b : Bool) : (s.setFound b).pin = s.pin := rfl
@[simp] theorem State.setFound_env (s : State) (b : Bool) : (s.setFound b).env = s.env := rfl

/-! ### setOverrun -/

@[simp] theorem State.setOverrun_cfg (s : State) : (s.setOverrun).cfg = s.cfg := rfl
@[simp] theorem State.setOverrun_ctrl (s : State) : (s.setOverrun).ctrl = s.ctrl := rfl
@[simp] theorem State.setOverrun_cmd (s : State) : (s.setOverrun).cmd = s.cmd := rfl
@[simp] theorem State.setOverrun_flags (s : State) : (s.setOverrun).flags = { s.flags with ovr := true } := rfl
@[simp] theorem State.setOverrun_data (s : State) : (s.setOverrun).data = s.data := rfl
@[simp] theorem State.setOverrun_acc (s : State) : (s.setOverrun).acc = s.acc := rfl
@[simp] theorem State.setOverrun_rom (s : State) : (s.setOverrun).rom = s.rom := rfl
@[simp] theorem State.setOverrun_cursor (s : State) : (s.setOverrun).cursor = s.cursor := rfl
@[simp] theorem State.setOverrun_buf (s : State) : (s.setOverrun).buf = s.buf := rfl
@[simp] theorem State.setOverrun_seq (s : State) : (s.setOverrun).seq = s.seq := rfl
@[simp] theorem State.setOverrun_pos (s : State) : (s.setOverrun).pos = s.pos := rfl
@[simp] theorem State.setOverrun_tmp (s : State) : (s.setOverrun).tmp = s.tmp := rfl
@[simp] theorem State.setOverrun_pin (s : State) : (s.setOverrun).pin = s.pin := rfl
@[simp] theorem State.setOverrun_env (s : State) : (s.setOverrun).env = s.env := rfl

/-! ### setData -/

@[simp] theorem State.setData_cfg (s : State) (v : Byte) : (s.setData v).cfg = s.cfg := rfl
@[simp] theorem State.setData_ctrl (s : State) (v : Byte) : (s.setData v).ctrl = s.ctrl := rfl
@[simp] theorem State.setData_cmd (s : State) (v : Byte) : (s.setData v).cmd = s.cmd := rfl
@[simp] theorem State.setData_flags (s : State) (v : Byte) : (s.setData v).flags = s.flags := rfl
@[simp] theorem State.setData_data (s : State) (v : Byte) : (s.setData v).data = v := rfl
@[simp] theorem State.setData_acc (s : State) (v : Byte) : (s.setData v).acc = s.acc := rfl
@[simp] theorem State.setData_rom (s : State) (v : Byte) : (s.setData v).rom = s.rom := rfl
@[simp] theorem State.setData_cursor (s : State) (v : Byte) : (s.setData v).cursor = s.cursor := rfl
@[simp] theorem State.setData_buf (s : State) (v : Byte) : (s.setData v).buf = s.buf := rfl
@[simp] theorem State.setData_seq (s : State) (v : Byte) : (s.setData v).seq = s.seq := rfl
@[simp] theorem State.setData_pos (s : State) (v : Byte) : (s.setData v).pos = s.pos := rfl
@[simp] theorem State.setData_tmp (s : State) (v : Byte) : (s.setData v).tmp = s.tmp := rfl
@[simp] theorem State.setData_pin (s : State) (v : Byte) : (s.setData v).pin = s.pin := rfl
@[simp] theorem State.setData_env (s : State) (v : Byte) : (s.setData v).env = s.env := rfl

/-! ### setAcc -/

@[simp] theorem State.setAcc_cfg (s : State) (v : Byte) : (s.setAcc v).cfg = s.cfg := rfl
@[simp] theorem State.setAcc_ctrl (s : State) (v : Byte) : (s.setAcc v).ctrl = s.ctrl := rfl
@[simp] theorem State.setAcc_cmd (s : State) (v : Byte) : (s.setAcc v).cmd = s.cmd := rfl
@[simp] theorem State.setAcc_flags (s : State) (v : Byte) : (s.setAcc v).flags = s.flags := rfl
@[simp] theorem State.setAcc_data (s : State) (v : Byte) : (s.setAcc v).data = s.data := rfl
@[simp] theorem State.setAcc_acc (s : State) (v : Byte) : (s.setAcc v).acc = v := rfl
@[simp] theorem State.setAcc_rom (s : State) (v : Byte) : (s.setAcc v).rom = s.rom := rfl
@[simp] theorem State.setAcc_cursor (s : State) (v : Byte) : (s.setAcc v).cursor = s.cursor := rfl
@[simp] theorem State.setAcc_buf (s : State) (v : Byte) : (s.setAcc v).buf = s.buf := rfl
@[simp] theorem State.setAcc_seq (s : State) (v : Byte) : (s.setAcc v).seq = s.seq := rfl
@[simp] theorem State.setAcc_pos (s : State) (v : Byte) : (s.setAcc v).pos = s.pos := rfl
@[simp] theorem State.setAcc_tmp (s : State) (v : Byte) : (s.setAcc v).tmp = s.tmp := rfl
@[simp] theorem State.setAcc_pin (s : State) (v : Byte) : (s.setAcc v).pin = s.pin := rfl
@[simp] theorem State.setAcc_env (s : State) (v : Byte) : (s.setAcc v).env = s.env := rfl

/-! ### setRom -/

@[simp] theorem State.setRom_cfg (s : State) (c : RomCode) : (s.setRom c).cfg = s.cfg := rfl
@[simp] theorem State.setRom_ctrl (s : State) (c : RomCode) : (s.setRom c).ctrl = s.ctrl := rfl
@[simp] theorem State.setRom_cmd (s : State) (c : RomCode) : (s.setRom c).cmd = s.cmd := rfl
@[simp] theorem State.setRom_flags (s : State) (c : RomCode) : (s.setRom c).flags = s.flags := rfl
@[simp] theorem State.setRom_data (s : State) (c : RomCode) : (s.setRom c).data = s.data := rfl
@[simp] theorem State.setRom_acc (s : State) (c : RomCode) : (s.setRom c).acc = s.acc := rfl
@[simp] theorem State.setRom_rom (s : State) (c : RomCode) : (s.setRom c).rom = c := rfl
@[simp] theorem State.setRom_cursor (s : State) (c : RomCode) : (s.setRom c).cursor = s.cursor := rfl
@[simp] theorem State.setRom_buf (s : State) (c : RomCode) : (s.setRom c).buf = s.buf := rfl
@[simp] theorem State.setRom_seq (s : State) (c : RomCode) : (s.setRom c).seq = s.seq := rfl
@[simp] theorem State.setRom_pos (s : State) (c : RomCode) : (s.setRom c).pos = s.pos := rfl
@[simp] theorem State.setRom_tmp (s : State) (c : RomCode) : (s.setRom c).tmp = s.tmp := rfl
@[simp] theorem State.setRom_pin (s : State) (c : RomCode) : (s.setRom c).pin = s.pin := rfl
@[simp] theorem State.setRom_env (s : State) (c : RomCode) : (s.setRom c).env = s.env := rfl

/-! ### setCursor -/

@[simp] theorem State.setCursor_cfg (s : State) (c : Cursor) : (s.setCursor c).cfg = s.cfg := rfl
@[simp] theorem State.setCursor_ctrl (s : State) (c : Cursor) : (s.setCursor c).ctrl = s.ctrl := rfl
@[simp] theorem State.setCursor_cmd (s : State) (c : Cursor) : (s.setCursor c).cmd = s.cmd := rfl
@[simp] theorem State.setCursor_flags (s : State) (c : Cursor) : (s.setCursor c).flags = s.flags := rfl
@[simp] theorem State.setCursor_data (s : State) (c : Cursor) : (s.setCursor c).data = s.data := rfl
@[simp] theorem State.setCursor_acc (s : State) (c : Cursor) : (s.setCursor c).acc = s.acc := rfl
@[simp] theorem State.setCursor_rom (s : State) (c : Cursor) : (s.setCursor c).rom = s.rom := rfl
@[simp] theorem State.setCursor_cursor (s : State) (c : Cursor) : (s.setCursor c).cursor = c := rfl
@[simp] theorem State.setCursor_buf (s : State) (c : Cursor) : (s.setCursor c).buf = s.buf := rfl
@[simp] theorem State.setCursor_seq (s : State) (c : Cursor) : (s.setCursor c).seq = s.seq := rfl
@[simp] theorem State.setCursor_pos (s : State) (c : Cursor) : (s.setCursor c).pos = s.pos := rfl
@[simp] theorem State.setCursor_tmp (s : State) (c : Cursor) : (s.setCursor c).tmp = s.tmp := rfl
@[simp] theorem State.setCursor_pin (s : State) (c : Cursor) : (s.setCursor c).pin = s.pin := rfl
@[simp] theorem State.setCursor_env (s : State) (c : Cursor) : (s.setCursor c).env = s.env := rfl

/-! ### setHost -/

@[simp] theorem State.setHost_cfg (s : State) (h : List HostReq) : (s.setHost h).cfg = s.cfg := rfl
@[simp] theorem State.setHost_ctrl (s : State) (h : List HostReq) : (s.setHost h).ctrl = s.ctrl := rfl
@[simp] theorem State.setHost_cmd (s : State) (h : List HostReq) : (s.setHost h).cmd = s.cmd := rfl
@[simp] theorem State.setHost_flags (s : State) (h : List HostReq) : (s.setHost h).flags = s.flags := rfl
@[simp] theorem State.setHost_data (s : State) (h : List HostReq) : (s.setHost h).data = s.data := rfl
@[simp] theorem State.setHost_acc (s : State) (h : List HostReq) : (s.setHost h).acc = s.acc := rfl
@[simp] theorem State.setHost_rom (s : State) (h : List HostReq) : (s.setHost h).rom = s.rom := rfl
@[simp] theorem State.setHost_cursor (s : State) (h : List HostReq) : (s.setHost h).cursor = s.cursor := rfl
@[simp] theorem State.setHost_buf (s : State) (h : List HostReq) : (s.setHost h).buf = s.buf := rfl
@[simp] theorem State.setHost_seq (s : State) (h : List HostReq) : (s.setHost h).seq = s.seq := rfl
@[simp] theorem State.setHost_pos (s : State) (h : List HostReq) : (s.setHost h).pos = s.pos := rfl
@[simp] theorem State.setHost_tmp (s : State) (h : List HostReq) : (s.setHost h).tmp = s.tmp := rfl
@[simp] theorem State.setHost_pin (s : State) (h : List HostReq) : (s.setHost h).pin = s.pin := rfl
@[simp] theorem State.setHost_env (s : State) (h : List HostReq) : (s.setHost h).env = { s.env with host := h } := rfl

/-! ### reply -/

@[simp] theorem State.reply_cfg (s : State) (v : Word) : (s.reply v).cfg = s.cfg := rfl
@[simp] theorem State.reply_ctrl (s : State) (v : Word) : (s.reply v).ctrl = s.ctrl := rfl
@[simp] theorem State.reply_cmd (s : State) (v : Word) : (s.reply v).cmd = s.cmd := rfl
@[simp] theorem State.reply_flags (s : State) (v : Word) : (s.reply v).flags = s.flags := rfl
@[simp] theorem State.reply_data (s : State) (v : Word) : (s.reply v).data = s.data := rfl
@[simp] theorem State.reply_acc (s : State) (v : Word) : (s.reply v).acc = s.acc := rfl
@[simp] theorem State.reply_rom (s : State) (v : Word) : (s.reply v).rom = s.rom := rfl
@[simp] theorem State.reply_cursor (s : State) (v : Word) : (s.reply v).cursor = s.cursor := rfl
@[simp] theorem State.reply_buf (s : State) (v : Word) : (s.reply v).buf = s.buf := rfl
@[simp] theorem State.reply_seq (s : State) (v : Word) : (s.reply v).seq = s.seq := rfl
@[simp] theorem State.reply_pos (s : State) (v : Word) : (s.reply v).pos = s.pos := rfl
@[simp] theorem State.reply_tmp (s : State) (v : Word) : (s.reply v).tmp = s.tmp := rfl
@[simp] theorem State.reply_pin (s : State) (v : Word) : (s.reply v).pin = s.pin := rfl
@[simp] theorem State.reply_env (s : State) (v : Word) : (s.reply v).env = { s.env with replies := s.env.replies ++ [v] } := rfl

/-! ### accept -/

@[simp] theorem State.accept_cfg (s : State) (w : Word) : (s.accept w).cfg = s.cfg := rfl
@[simp] theorem State.accept_ctrl (s : State) (w : Word) : (s.accept w).ctrl = s.ctrl := rfl
@[simp] theorem State.accept_cmd (s : State) (w : Word) : (s.accept w).cmd = w := rfl
@[simp] theorem State.accept_flags (s : State) (w : Word) : (s.accept w).flags = { s.flags with done := false } := rfl
@[simp] theorem State.accept_data (s : State) (w : Word) : (s.accept w).data = s.data := rfl
@[simp] theorem State.accept_acc (s : State) (w : Word) : (s.accept w).acc = s.acc := rfl
@[simp] theorem State.accept_rom (s : State) (w : Word) : (s.accept w).rom = s.rom := rfl
@[simp] theorem State.accept_cursor (s : State) (w : Word) : (s.accept w).cursor = s.cursor := rfl
@[simp] theorem State.accept_buf (s : State) (w : Word) : (s.accept w).buf = s.buf := rfl
@[simp] theorem State.accept_seq (s : State) (w : Word) : (s.accept w).seq = .run w := rfl
@[simp] theorem State.accept_pos (s : State) (w : Word) : (s.accept w).pos = .start := rfl
@[simp] theorem State.accept_tmp (s : State) (w : Word) : (s.accept w).tmp = .none := rfl
@[simp] theorem State.accept_pin (s : State) (w : Word) : (s.accept w).pin = s.pin := rfl
@[simp] theorem State.accept_env (s : State) (w : Word) : (s.accept w).env = s.env := rfl

/-! ### complete -/

@[simp] theorem State.complete_cfg (s : State) (r : ResultCode) : (s.complete r).cfg = s.cfg := rfl
@[simp] theorem State.complete_ctrl (s : State) (r : ResultCode) : (s.complete r).ctrl = s.ctrl := rfl
@[simp] theorem State.complete_cmd (s : State) (r : ResultCode) : (s.complete r).cmd = s.cmd := rfl
@[simp] theorem State.complete_flags (s : State) (r : ResultCode) :
    (s.complete r).flags = { s.flags with result := r, done := true } := rfl
@[simp] theorem State.complete_data (s : State) (r : ResultCode) : (s.complete r).data = s.data := rfl
@[simp] theorem State.complete_acc (s : State) (r : ResultCode) : (s.complete r).acc = s.acc := rfl
@[simp] theorem State.complete_rom (s : State) (r : ResultCode) : (s.complete r).rom = s.rom := rfl
@[simp] theorem State.complete_cursor (s : State) (r : ResultCode) : (s.complete r).cursor = s.cursor := rfl
@[simp] theorem State.complete_buf (s : State) (r : ResultCode) : (s.complete r).buf = s.buf := rfl
@[simp] theorem State.complete_seq (s : State) (r : ResultCode) : (s.complete r).seq = .idle := rfl
@[simp] theorem State.complete_pos (s : State) (r : ResultCode) : (s.complete r).pos = .start := rfl
@[simp] theorem State.complete_tmp (s : State) (r : ResultCode) : (s.complete r).tmp = .none := rfl
@[simp] theorem State.complete_pin (s : State) (r : ResultCode) : (s.complete r).pin = .released := rfl
@[simp] theorem State.complete_env (s : State) (r : ResultCode) : (s.complete r).env = s.env := rfl

/-! ### hardReset -/

@[simp] theorem State.hardReset_cfg (s : State) : (s.hardReset).cfg = s.cfg := rfl
@[simp] theorem State.hardReset_ctrl (s : State) : (s.hardReset).ctrl = State.reset.ctrl := rfl
@[simp] theorem State.hardReset_cmd (s : State) : (s.hardReset).cmd = 0 := rfl
@[simp] theorem State.hardReset_flags (s : State) : (s.hardReset).flags = State.reset.flags := rfl
@[simp] theorem State.hardReset_data (s : State) : (s.hardReset).data = 0 := rfl
@[simp] theorem State.hardReset_acc (s : State) : (s.hardReset).acc = 0 := rfl
@[simp] theorem State.hardReset_rom (s : State) : (s.hardReset).rom = 0 := rfl
@[simp] theorem State.hardReset_cursor (s : State) : (s.hardReset).cursor = Cursor.fresh 0 := rfl
@[simp] theorem State.hardReset_buf (s : State) : (s.hardReset).buf = [] := rfl
@[simp] theorem State.hardReset_seq (s : State) : (s.hardReset).seq = .idle := rfl
@[simp] theorem State.hardReset_pos (s : State) : (s.hardReset).pos = .start := rfl
@[simp] theorem State.hardReset_tmp (s : State) : (s.hardReset).tmp = .none := rfl
@[simp] theorem State.hardReset_pin (s : State) : (s.hardReset).pin = .released := rfl
@[simp] theorem State.hardReset_env (s : State) : (s.hardReset).env = { s.env with resets := s.env.resets + 1 } := rfl

/-! ### elapse -/

@[simp] theorem State.elapse_cfg (s : State) (n : Nat) : (s.elapse n).cfg = s.cfg := rfl
@[simp] theorem State.elapse_ctrl (s : State) (n : Nat) : (s.elapse n).ctrl = s.ctrl := rfl
@[simp] theorem State.elapse_cmd (s : State) (n : Nat) : (s.elapse n).cmd = s.cmd := rfl
@[simp] theorem State.elapse_flags (s : State) (n : Nat) : (s.elapse n).flags = s.flags := rfl
@[simp] theorem State.elapse_data (s : State) (n : Nat) : (s.elapse n).data = s.data := rfl
@[simp] theorem State.elapse_acc (s : State) (n : Nat) : (s.elapse n).acc = s.acc := rfl
@[simp] theorem State.elapse_rom (s : State) (n : Nat) : (s.elapse n).rom = s.rom := rfl
@[simp] theorem State.elapse_cursor (s : State) (n : Nat) : (s.elapse n).cursor = s.cursor := rfl
@[simp] theorem State.elapse_buf (s : State) (n : Nat) : (s.elapse n).buf = s.buf := rfl
@[simp] theorem State.elapse_seq (s : State) (n : Nat) : (s.elapse n).seq = s.seq := rfl
@[simp] theorem State.elapse_pos (s : State) (n : Nat) :
    (s.elapse n).pos = { s.pos with past := s.pos.past + min n s.pos.left, left := s.pos.left - min n s.pos.left } := rfl
@[simp] theorem State.elapse_tmp (s : State) (n : Nat) : (s.elapse n).tmp = s.tmp := rfl
@[simp] theorem State.elapse_pin (s : State) (n : Nat) : (s.elapse n).pin = s.pin := rfl
@[simp] theorem State.elapse_env (s : State) (n : Nat) : (s.elapse n).env = s.env := rfl

/-! ### stand -/

@[simp] theorem State.stand_cfg (s : State) (pl : Place) : (s.stand pl).cfg = s.cfg := rfl
@[simp] theorem State.stand_ctrl (s : State) (pl : Place) : (s.stand pl).ctrl = s.ctrl := rfl
@[simp] theorem State.stand_cmd (s : State) (pl : Place) : (s.stand pl).cmd = s.cmd := rfl
@[simp] theorem State.stand_flags (s : State) (pl : Place) : (s.stand pl).flags = s.flags := rfl
@[simp] theorem State.stand_data (s : State) (pl : Place) : (s.stand pl).data = s.data := rfl
@[simp] theorem State.stand_acc (s : State) (pl : Place) : (s.stand pl).acc = s.acc := rfl
@[simp] theorem State.stand_rom (s : State) (pl : Place) : (s.stand pl).rom = s.rom := rfl
@[simp] theorem State.stand_cursor (s : State) (pl : Place) : (s.stand pl).cursor = s.cursor := rfl
@[simp] theorem State.stand_buf (s : State) (pl : Place) : (s.stand pl).buf = s.buf := rfl
@[simp] theorem State.stand_seq (s : State) (pl : Place) : (s.stand pl).seq = s.seq := rfl
@[simp] theorem State.stand_pos (s : State) (pl : Place) :
    (s.stand pl).pos = { s.pos with place := pl, past := 0, left := 0 } := rfl
@[simp] theorem State.stand_tmp (s : State) (pl : Place) : (s.stand pl).tmp = s.tmp := rfl
@[simp] theorem State.stand_pin (s : State) (pl : Place) : (s.stand pl).pin = .released := rfl
@[simp] theorem State.stand_env (s : State) (pl : Place) : (s.stand pl).env = s.env := rfl

/-! ### atByte -/

@[simp] theorem State.atByte_cfg (s : State) (j : Nat) : (s.atByte j).cfg = s.cfg := rfl
@[simp] theorem State.atByte_ctrl (s : State) (j : Nat) : (s.atByte j).ctrl = s.ctrl := rfl
@[simp] theorem State.atByte_cmd (s : State) (j : Nat) : (s.atByte j).cmd = s.cmd := rfl
@[simp] theorem State.atByte_flags (s : State) (j : Nat) : (s.atByte j).flags = s.flags := rfl
@[simp] theorem State.atByte_data (s : State) (j : Nat) : (s.atByte j).data = s.data := rfl
@[simp] theorem State.atByte_acc (s : State) (j : Nat) : (s.atByte j).acc = s.acc := rfl
@[simp] theorem State.atByte_rom (s : State) (j : Nat) : (s.atByte j).rom = s.rom := rfl
@[simp] theorem State.atByte_cursor (s : State) (j : Nat) : (s.atByte j).cursor = s.cursor := rfl
@[simp] theorem State.atByte_buf (s : State) (j : Nat) : (s.atByte j).buf = s.buf := rfl
@[simp] theorem State.atByte_seq (s : State) (j : Nat) : (s.atByte j).seq = s.seq := rfl
@[simp] theorem State.atByte_pos (s : State) (j : Nat) : (s.atByte j).pos = { s.pos with byte := j } := rfl
@[simp] theorem State.atByte_tmp (s : State) (j : Nat) : (s.atByte j).tmp = s.tmp := rfl
@[simp] theorem State.atByte_pin (s : State) (j : Nat) : (s.atByte j).pin = s.pin := rfl
@[simp] theorem State.atByte_env (s : State) (j : Nat) : (s.atByte j).env = s.env := rfl

/-! ### atBit -/

@[simp] theorem State.atBit_cfg (s : State) (i : Nat) : (s.atBit i).cfg = s.cfg := rfl
@[simp] theorem State.atBit_ctrl (s : State) (i : Nat) : (s.atBit i).ctrl = s.ctrl := rfl
@[simp] theorem State.atBit_cmd (s : State) (i : Nat) : (s.atBit i).cmd = s.cmd := rfl
@[simp] theorem State.atBit_flags (s : State) (i : Nat) : (s.atBit i).flags = s.flags := rfl
@[simp] theorem State.atBit_data (s : State) (i : Nat) : (s.atBit i).data = s.data := rfl
@[simp] theorem State.atBit_acc (s : State) (i : Nat) : (s.atBit i).acc = s.acc := rfl
@[simp] theorem State.atBit_rom (s : State) (i : Nat) : (s.atBit i).rom = s.rom := rfl
@[simp] theorem State.atBit_cursor (s : State) (i : Nat) : (s.atBit i).cursor = s.cursor := rfl
@[simp] theorem State.atBit_buf (s : State) (i : Nat) : (s.atBit i).buf = s.buf := rfl
@[simp] theorem State.atBit_seq (s : State) (i : Nat) : (s.atBit i).seq = s.seq := rfl
@[simp] theorem State.atBit_pos (s : State) (i : Nat) : (s.atBit i).pos = { s.pos with bit := i } := rfl
@[simp] theorem State.atBit_tmp (s : State) (i : Nat) : (s.atBit i).tmp = s.tmp := rfl
@[simp] theorem State.atBit_pin (s : State) (i : Nat) : (s.atBit i).pin = s.pin := rfl
@[simp] theorem State.atBit_env (s : State) (i : Nat) : (s.atBit i).env = s.env := rfl

/-! ### withBits -/

@[simp] theorem State.withBits_cfg (s : State) (bs : List Bool) : (s.withBits bs).cfg = s.cfg := rfl
@[simp] theorem State.withBits_ctrl (s : State) (bs : List Bool) : (s.withBits bs).ctrl = s.ctrl := rfl
@[simp] theorem State.withBits_cmd (s : State) (bs : List Bool) : (s.withBits bs).cmd = s.cmd := rfl
@[simp] theorem State.withBits_flags (s : State) (bs : List Bool) : (s.withBits bs).flags = s.flags := rfl
@[simp] theorem State.withBits_data (s : State) (bs : List Bool) : (s.withBits bs).data = s.data := rfl
@[simp] theorem State.withBits_acc (s : State) (bs : List Bool) : (s.withBits bs).acc = s.acc := rfl
@[simp] theorem State.withBits_rom (s : State) (bs : List Bool) : (s.withBits bs).rom = s.rom := rfl
@[simp] theorem State.withBits_cursor (s : State) (bs : List Bool) : (s.withBits bs).cursor = s.cursor := rfl
@[simp] theorem State.withBits_buf (s : State) (bs : List Bool) : (s.withBits bs).buf = s.buf := rfl
@[simp] theorem State.withBits_seq (s : State) (bs : List Bool) : (s.withBits bs).seq = s.seq := rfl
@[simp] theorem State.withBits_pos (s : State) (bs : List Bool) : (s.withBits bs).pos = { s.pos with bit := bs.length } := rfl
@[simp] theorem State.withBits_tmp (s : State) (bs : List Bool) : (s.withBits bs).tmp = { s.tmp with bits := bs } := rfl
@[simp] theorem State.withBits_pin (s : State) (bs : List Bool) : (s.withBits bs).pin = s.pin := rfl
@[simp] theorem State.withBits_env (s : State) (bs : List Bool) : (s.withBits bs).env = s.env := rfl

/-! ### withRbuf -/

@[simp] theorem State.withRbuf_cfg (s : State) (vs : List Byte) : (s.withRbuf vs).cfg = s.cfg := rfl
@[simp] theorem State.withRbuf_ctrl (s : State) (vs : List Byte) : (s.withRbuf vs).ctrl = s.ctrl := rfl
@[simp] theorem State.withRbuf_cmd (s : State) (vs : List Byte) : (s.withRbuf vs).cmd = s.cmd := rfl
@[simp] theorem State.withRbuf_flags (s : State) (vs : List Byte) : (s.withRbuf vs).flags = s.flags := rfl
@[simp] theorem State.withRbuf_data (s : State) (vs : List Byte) : (s.withRbuf vs).data = s.data := rfl
@[simp] theorem State.withRbuf_acc (s : State) (vs : List Byte) : (s.withRbuf vs).acc = s.acc := rfl
@[simp] theorem State.withRbuf_rom (s : State) (vs : List Byte) : (s.withRbuf vs).rom = s.rom := rfl
@[simp] theorem State.withRbuf_cursor (s : State) (vs : List Byte) : (s.withRbuf vs).cursor = s.cursor := rfl
@[simp] theorem State.withRbuf_buf (s : State) (vs : List Byte) : (s.withRbuf vs).buf = s.buf := rfl
@[simp] theorem State.withRbuf_seq (s : State) (vs : List Byte) : (s.withRbuf vs).seq = s.seq := rfl
@[simp] theorem State.withRbuf_pos (s : State) (vs : List Byte) : (s.withRbuf vs).pos = { s.pos with byte := vs.length } := rfl
@[simp] theorem State.withRbuf_tmp (s : State) (vs : List Byte) : (s.withRbuf vs).tmp = { s.tmp with rbuf := vs } := rfl
@[simp] theorem State.withRbuf_pin (s : State) (vs : List Byte) : (s.withRbuf vs).pin = s.pin := rfl
@[simp] theorem State.withRbuf_env (s : State) (vs : List Byte) : (s.withRbuf vs).env = s.env := rfl

/-! ### atPair -/

@[simp] theorem State.atPair_cfg (s : State) (k : Nat) (a : Option Bool) : (s.atPair k a).cfg = s.cfg := rfl
@[simp] theorem State.atPair_ctrl (s : State) (k : Nat) (a : Option Bool) : (s.atPair k a).ctrl = s.ctrl := rfl
@[simp] theorem State.atPair_cmd (s : State) (k : Nat) (a : Option Bool) : (s.atPair k a).cmd = s.cmd := rfl
@[simp] theorem State.atPair_flags (s : State) (k : Nat) (a : Option Bool) : (s.atPair k a).flags = s.flags := rfl
@[simp] theorem State.atPair_data (s : State) (k : Nat) (a : Option Bool) : (s.atPair k a).data = s.data := rfl
@[simp] theorem State.atPair_acc (s : State) (k : Nat) (a : Option Bool) : (s.atPair k a).acc = s.acc := rfl
@[simp] theorem State.atPair_rom (s : State) (k : Nat) (a : Option Bool) : (s.atPair k a).rom = s.rom := rfl
@[simp] theorem State.atPair_cursor (s : State) (k : Nat) (a : Option Bool) : (s.atPair k a).cursor = s.cursor := rfl
@[simp] theorem State.atPair_buf (s : State) (k : Nat) (a : Option Bool) : (s.atPair k a).buf = s.buf := rfl
@[simp] theorem State.atPair_seq (s : State) (k : Nat) (a : Option Bool) : (s.atPair k a).seq = s.seq := rfl
@[simp] theorem State.atPair_pos (s : State) (k : Nat) (a : Option Bool) : (s.atPair k a).pos = { s.pos with bit := k } := rfl
@[simp] theorem State.atPair_tmp (s : State) (k : Nat) (a : Option Bool) : (s.atPair k a).tmp = { s.tmp with a := a } := rfl
@[simp] theorem State.atPair_pin (s : State) (k : Nat) (a : Option Bool) : (s.atPair k a).pin = s.pin := rfl
@[simp] theorem State.atPair_env (s : State) (k : Nat) (a : Option Bool) : (s.atPair k a).env = s.env := rfl

/-! ### withLastZero -/

@[simp] theorem State.withLastZero_cfg (s : State) (n : Nat) : (s.withLastZero n).cfg = s.cfg := rfl
@[simp] theorem State.withLastZero_ctrl (s : State) (n : Nat) : (s.withLastZero n).ctrl = s.ctrl := rfl
@[simp] theorem State.withLastZero_cmd (s : State) (n : Nat) : (s.withLastZero n).cmd = s.cmd := rfl
@[simp] theorem State.withLastZero_flags (s : State) (n : Nat) : (s.withLastZero n).flags = s.flags := rfl
@[simp] theorem State.withLastZero_data (s : State) (n : Nat) : (s.withLastZero n).data = s.data := rfl
@[simp] theorem State.withLastZero_acc (s : State) (n : Nat) : (s.withLastZero n).acc = s.acc := rfl
@[simp] theorem State.withLastZero_rom (s : State) (n : Nat) : (s.withLastZero n).rom = s.rom := rfl
@[simp] theorem State.withLastZero_cursor (s : State) (n : Nat) : (s.withLastZero n).cursor = s.cursor := rfl
@[simp] theorem State.withLastZero_buf (s : State) (n : Nat) : (s.withLastZero n).buf = s.buf := rfl
@[simp] theorem State.withLastZero_seq (s : State) (n : Nat) : (s.withLastZero n).seq = s.seq := rfl
@[simp] theorem State.withLastZero_pos (s : State) (n : Nat) : (s.withLastZero n).pos = s.pos := rfl
@[simp] theorem State.withLastZero_tmp (s : State) (n : Nat) : (s.withLastZero n).tmp = { s.tmp with lastZero := some n } := rfl
@[simp] theorem State.withLastZero_pin (s : State) (n : Nat) : (s.withLastZero n).pin = s.pin := rfl
@[simp] theorem State.withLastZero_env (s : State) (n : Nat) : (s.withLastZero n).env = s.env := rfl

/-! ### enter -/

@[simp] theorem State.enter_cfg (s : State) (pl : Place) (p : Pin) (t : Nat) : (s.enter pl p t).cfg = s.cfg := rfl
@[simp] theorem State.enter_ctrl (s : State) (pl : Place) (p : Pin) (t : Nat) : (s.enter pl p t).ctrl = s.ctrl := rfl
@[simp] theorem State.enter_cmd (s : State) (pl : Place) (p : Pin) (t : Nat) : (s.enter pl p t).cmd = s.cmd := rfl
@[simp] theorem State.enter_flags (s : State) (pl : Place) (p : Pin) (t : Nat) : (s.enter pl p t).flags = s.flags := rfl
@[simp] theorem State.enter_data (s : State) (pl : Place) (p : Pin) (t : Nat) : (s.enter pl p t).data = s.data := rfl
@[simp] theorem State.enter_acc (s : State) (pl : Place) (p : Pin) (t : Nat) : (s.enter pl p t).acc = s.acc := rfl
@[simp] theorem State.enter_rom (s : State) (pl : Place) (p : Pin) (t : Nat) : (s.enter pl p t).rom = s.rom := rfl
@[simp] theorem State.enter_cursor (s : State) (pl : Place) (p : Pin) (t : Nat) : (s.enter pl p t).cursor = s.cursor := rfl
@[simp] theorem State.enter_buf (s : State) (pl : Place) (p : Pin) (t : Nat) : (s.enter pl p t).buf = s.buf := rfl
@[simp] theorem State.enter_seq (s : State) (pl : Place) (p : Pin) (t : Nat) : (s.enter pl p t).seq = s.seq := rfl
@[simp] theorem State.enter_pos (s : State) (pl : Place) (p : Pin) (t : Nat) :
    (s.enter pl p t).pos = { s.pos with place := pl, past := 0, left := s.phaseLength t } := rfl
@[simp] theorem State.enter_tmp (s : State) (pl : Place) (p : Pin) (t : Nat) : (s.enter pl p t).tmp = s.tmp := rfl
@[simp] theorem State.enter_pin (s : State) (pl : Place) (p : Pin) (t : Nat) : (s.enter pl p t).pin = p := rfl
@[simp] theorem State.enter_env (s : State) (pl : Place) (p : Pin) (t : Nat) : (s.enter pl p t).env = s.env := rfl

/-! ### held -/

@[simp] theorem State.held_cfg (s : State) (p : Pin) (d : Nat) : (s.held p d).cfg = s.cfg := rfl
@[simp] theorem State.held_ctrl (s : State) (p : Pin) (d : Nat) : (s.held p d).ctrl = s.ctrl := rfl
@[simp] theorem State.held_cmd (s : State) (p : Pin) (d : Nat) : (s.held p d).cmd = s.cmd := rfl
@[simp] theorem State.held_flags (s : State) (p : Pin) (d : Nat) : (s.held p d).flags = s.flags := rfl
@[simp] theorem State.held_data (s : State) (p : Pin) (d : Nat) : (s.held p d).data = s.data := rfl
@[simp] theorem State.held_acc (s : State) (p : Pin) (d : Nat) : (s.held p d).acc = s.acc := rfl
@[simp] theorem State.held_rom (s : State) (p : Pin) (d : Nat) : (s.held p d).rom = s.rom := rfl
@[simp] theorem State.held_cursor (s : State) (p : Pin) (d : Nat) : (s.held p d).cursor = s.cursor := rfl
@[simp] theorem State.held_buf (s : State) (p : Pin) (d : Nat) : (s.held p d).buf = s.buf := rfl
@[simp] theorem State.held_seq (s : State) (p : Pin) (d : Nat) : (s.held p d).seq = s.seq := rfl
@[simp] theorem State.held_pos (s : State) (p : Pin) (d : Nat) : (s.held p d).pos = { s.pos with past := d, left := 0 } := rfl
@[simp] theorem State.held_tmp (s : State) (p : Pin) (d : Nat) : (s.held p d).tmp = s.tmp := rfl
@[simp] theorem State.held_pin (s : State) (p : Pin) (d : Nat) : (s.held p d).pin = s.pin := rfl
@[simp] theorem State.held_env (s : State) (p : Pin) (d : Nat) :
    (s.held p d).env = { s.env with phases := s.env.phases + 1, trace := s.env.trace ++ [phaseEvent p d] } := rfl

/-! ### cutShort -/

@[simp] theorem State.cutShort_cfg (s : State) (p : Pin) : (s.cutShort p).cfg = s.cfg := rfl
@[simp] theorem State.cutShort_ctrl (s : State) (p : Pin) : (s.cutShort p).ctrl = s.ctrl := rfl
@[simp] theorem State.cutShort_cmd (s : State) (p : Pin) : (s.cutShort p).cmd = s.cmd := rfl
@[simp] theorem State.cutShort_flags (s : State) (p : Pin) : (s.cutShort p).flags = s.flags := rfl
@[simp] theorem State.cutShort_data (s : State) (p : Pin) : (s.cutShort p).data = s.data := rfl
@[simp] theorem State.cutShort_acc (s : State) (p : Pin) : (s.cutShort p).acc = s.acc := rfl
@[simp] theorem State.cutShort_rom (s : State) (p : Pin) : (s.cutShort p).rom = s.rom := rfl
@[simp] theorem State.cutShort_cursor (s : State) (p : Pin) : (s.cutShort p).cursor = s.cursor := rfl
@[simp] theorem State.cutShort_buf (s : State) (p : Pin) : (s.cutShort p).buf = s.buf := rfl
@[simp] theorem State.cutShort_seq (s : State) (p : Pin) : (s.cutShort p).seq = s.seq := rfl
@[simp] theorem State.cutShort_pos (s : State) (p : Pin) : (s.cutShort p).pos = s.pos := rfl
@[simp] theorem State.cutShort_tmp (s : State) (p : Pin) : (s.cutShort p).tmp = s.tmp := rfl
@[simp] theorem State.cutShort_pin (s : State) (p : Pin) : (s.cutShort p).pin = s.pin := rfl
@[simp] theorem State.cutShort_env (s : State) (p : Pin) :
    (s.cutShort p).env = { s.env with phases := s.env.phases + 1, trace := s.env.trace ++ [.cut p] } := rfl

/-! ### sampled -/

@[simp] theorem State.sampled_cfg (s : State) : (s.sampled).cfg = s.cfg := rfl
@[simp] theorem State.sampled_ctrl (s : State) : (s.sampled).ctrl = s.ctrl := rfl
@[simp] theorem State.sampled_cmd (s : State) : (s.sampled).cmd = s.cmd := rfl
@[simp] theorem State.sampled_flags (s : State) : (s.sampled).flags = s.flags := rfl
@[simp] theorem State.sampled_data (s : State) : (s.sampled).data = s.data := rfl
@[simp] theorem State.sampled_acc (s : State) : (s.sampled).acc = s.acc := rfl
@[simp] theorem State.sampled_rom (s : State) : (s.sampled).rom = s.rom := rfl
@[simp] theorem State.sampled_cursor (s : State) : (s.sampled).cursor = s.cursor := rfl
@[simp] theorem State.sampled_buf (s : State) : (s.sampled).buf = s.buf := rfl
@[simp] theorem State.sampled_seq (s : State) : (s.sampled).seq = s.seq := rfl
@[simp] theorem State.sampled_pos (s : State) : (s.sampled).pos = s.pos := rfl
@[simp] theorem State.sampled_tmp (s : State) : (s.sampled).tmp = s.tmp := rfl
@[simp] theorem State.sampled_pin (s : State) : (s.sampled).pin = s.pin := rfl
@[simp] theorem State.sampled_env (s : State) :
    (s.sampled).env = { s.env with line := s.env.line.tail, samples := s.env.samples + 1, trace := s.env.trace ++ [.smp s.level] } := rfl

/-! ### setBufByte -/

@[simp] theorem State.setBufByte_cfg (s : State) (i : Nat) (v : Byte) : (s.setBufByte i v).cfg = s.cfg := by
  unfold State.setBufByte; split <;> rfl
@[simp] theorem State.setBufByte_ctrl (s : State) (i : Nat) (v : Byte) : (s.setBufByte i v).ctrl = s.ctrl := by
  unfold State.setBufByte; split <;> rfl
@[simp] theorem State.setBufByte_cmd (s : State) (i : Nat) (v : Byte) : (s.setBufByte i v).cmd = s.cmd := by
  unfold State.setBufByte; split <;> rfl
@[simp] theorem State.setBufByte_flags (s : State) (i : Nat) (v : Byte) : (s.setBufByte i v).flags = s.flags := by
  unfold State.setBufByte; split <;> rfl
@[simp] theorem State.setBufByte_data (s : State) (i : Nat) (v : Byte) : (s.setBufByte i v).data = s.data := by
  unfold State.setBufByte; split <;> rfl
@[simp] theorem State.setBufByte_acc (s : State) (i : Nat) (v : Byte) : (s.setBufByte i v).acc = s.acc := by
  unfold State.setBufByte; split <;> rfl
@[simp] theorem State.setBufByte_rom (s : State) (i : Nat) (v : Byte) : (s.setBufByte i v).rom = s.rom := by
  unfold State.setBufByte; split <;> rfl
@[simp] theorem State.setBufByte_cursor (s : State) (i : Nat) (v : Byte) : (s.setBufByte i v).cursor = s.cursor := by
  unfold State.setBufByte; split <;> rfl
@[simp] theorem State.setBufByte_buf (s : State) (i : Nat) (v : Byte) :
    (s.setBufByte i v).buf = if i < s.cfg.bufSize then memWrite s.buf i v else s.buf := by
  unfold State.setBufByte; split <;> rfl
@[simp] theorem State.setBufByte_seq (s : State) (i : Nat) (v : Byte) : (s.setBufByte i v).seq = s.seq := by
  unfold State.setBufByte; split <;> rfl
@[simp] theorem State.setBufByte_pos (s : State) (i : Nat) (v : Byte) : (s.setBufByte i v).pos = s.pos := by
  unfold State.setBufByte; split <;> rfl
@[simp] theorem State.setBufByte_tmp (s : State) (i : Nat) (v : Byte) : (s.setBufByte i v).tmp = s.tmp := by
  unfold State.setBufByte; split <;> rfl
@[simp] theorem State.setBufByte_pin (s : State) (i : Nat) (v : Byte) : (s.setBufByte i v).pin = s.pin := by
  unfold State.setBufByte; split <;> rfl
@[simp] theorem State.setBufByte_env (s : State) (i : Nat) (v : Byte) : (s.setBufByte i v).env = s.env := by
  unfold State.setBufByte; split <;> rfl

/-! ### setBufWord -/

@[simp] theorem State.setBufWord_cfg (s : State) (w : Nat) (v : Word) : (s.setBufWord w v).cfg = s.cfg := by
  simp [State.setBufWord]
@[simp] theorem State.setBufWord_ctrl (s : State) (w : Nat) (v : Word) : (s.setBufWord w v).ctrl = s.ctrl := by
  simp [State.setBufWord]
@[simp] theorem State.setBufWord_cmd (s : State) (w : Nat) (v : Word) : (s.setBufWord w v).cmd = s.cmd := by
  simp [State.setBufWord]
@[simp] theorem State.setBufWord_flags (s : State) (w : Nat) (v : Word) : (s.setBufWord w v).flags = s.flags := by
  simp [State.setBufWord]
@[simp] theorem State.setBufWord_data (s : State) (w : Nat) (v : Word) : (s.setBufWord w v).data = s.data := by
  simp [State.setBufWord]
@[simp] theorem State.setBufWord_acc (s : State) (w : Nat) (v : Word) : (s.setBufWord w v).acc = s.acc := by
  simp [State.setBufWord]
@[simp] theorem State.setBufWord_rom (s : State) (w : Nat) (v : Word) : (s.setBufWord w v).rom = s.rom := by
  simp [State.setBufWord]
@[simp] theorem State.setBufWord_cursor (s : State) (w : Nat) (v : Word) : (s.setBufWord w v).cursor = s.cursor := by
  simp [State.setBufWord]
@[simp] theorem State.setBufWord_seq (s : State) (w : Nat) (v : Word) : (s.setBufWord w v).seq = s.seq := by
  simp [State.setBufWord]
@[simp] theorem State.setBufWord_pos (s : State) (w : Nat) (v : Word) : (s.setBufWord w v).pos = s.pos := by
  simp [State.setBufWord]
@[simp] theorem State.setBufWord_tmp (s : State) (w : Nat) (v : Word) : (s.setBufWord w v).tmp = s.tmp := by
  simp [State.setBufWord]
@[simp] theorem State.setBufWord_pin (s : State) (w : Nat) (v : Word) : (s.setBufWord w v).pin = s.pin := by
  simp [State.setBufWord]
@[simp] theorem State.setBufWord_env (s : State) (w : Nat) (v : Word) : (s.setBufWord w v).env = s.env := by
  simp [State.setBufWord]

/-! ### walk -/

@[simp] theorem State.walk_cfg (s : State) (w : Walked) (c : Cursor) : (s.walk w c).cfg = s.cfg := by
  cases w <;> rfl
@[simp] theorem State.walk_ctrl (s : State) (w : Walked) (c : Cursor) : (s.walk w c).ctrl = s.ctrl := by
  cases w <;> rfl
@[simp] theorem State.walk_cmd (s : State) (w : Walked) (c : Cursor) : (s.walk w c).cmd = s.cmd := by
  cases w <;> rfl
@[simp] theorem State.walk_flags (s : State) (w : Walked) (c : Cursor) : (s.walk w c).flags = s.flags := by
  cases w <;> rfl
@[simp] theorem State.walk_data (s : State) (w : Walked) (c : Cursor) : (s.walk w c).data = s.data := by
  cases w <;> rfl
@[simp] theorem State.walk_acc (s : State) (w : Walked) (c : Cursor) : (s.walk w c).acc = s.acc := by
  cases w <;> rfl
@[simp] theorem State.walk_rom (s : State) (w : Walked) (c : Cursor) : (s.walk w c).rom = s.rom := by
  cases w <;> rfl
@[simp] theorem State.walk_cursor (s : State) (w : Walked) (c : Cursor) :
    (s.walk w c).cursor = if w = .registers then c else s.cursor := by
  cases w <;> rfl
@[simp] theorem State.walk_buf (s : State) (w : Walked) (c : Cursor) : (s.walk w c).buf = s.buf := by
  cases w <;> rfl
@[simp] theorem State.walk_seq (s : State) (w : Walked) (c : Cursor) : (s.walk w c).seq = s.seq := by
  cases w <;> rfl
@[simp] theorem State.walk_pos (s : State) (w : Walked) (c : Cursor) : (s.walk w c).pos = s.pos := by
  cases w <;> rfl
@[simp] theorem State.walk_tmp (s : State) (w : Walked) (c : Cursor) :
    (s.walk w c).tmp = { s.tmp with own := if w = .own then some c else s.tmp.own } := by
  cases w <;> rfl
@[simp] theorem State.walk_pin (s : State) (w : Walked) (c : Cursor) : (s.walk w c).pin = s.pin := by
  cases w <;> rfl
@[simp] theorem State.walk_env (s : State) (w : Walked) (c : Cursor) : (s.walk w c).env = s.env := by
  cases w <;> rfl
@[simp] theorem State.walk_walked (s : State) (w : Walked) (c : Cursor) : (s.walk w c).walked w = c := by
  cases w <;> rfl

/-! ### withPass -/

@[simp] theorem State.withPass_cfg (s : State) (w : Walked) (p : Pass) : (s.withPass w p).cfg = s.cfg := by
  cases w <;> rfl
@[simp] theorem State.withPass_ctrl (s : State) (w : Walked) (p : Pass) : (s.withPass w p).ctrl = s.ctrl := by
  cases w <;> rfl
@[simp] theorem State.withPass_cmd (s : State) (w : Walked) (p : Pass) : (s.withPass w p).cmd = s.cmd := by
  cases w <;> rfl
@[simp] theorem State.withPass_flags (s : State) (w : Walked) (p : Pass) : (s.withPass w p).flags = s.flags := by
  cases w <;> rfl
@[simp] theorem State.withPass_data (s : State) (w : Walked) (p : Pass) : (s.withPass w p).data = s.data := by
  cases w <;> rfl
@[simp] theorem State.withPass_acc (s : State) (w : Walked) (p : Pass) : (s.withPass w p).acc = s.acc := by
  cases w <;> rfl
@[simp] theorem State.withPass_rom (s : State) (w : Walked) (p : Pass) : (s.withPass w p).rom = s.rom := by
  cases w <;> rfl
@[simp] theorem State.withPass_cursor (s : State) (w : Walked) (p : Pass) :
    (s.withPass w p).cursor = if w = .registers then p.cursor else s.cursor := by
  cases w <;> rfl
@[simp] theorem State.withPass_buf (s : State) (w : Walked) (p : Pass) : (s.withPass w p).buf = s.buf := by
  cases w <;> rfl
@[simp] theorem State.withPass_seq (s : State) (w : Walked) (p : Pass) : (s.withPass w p).seq = s.seq := by
  cases w <;> rfl
@[simp] theorem State.withPass_pos (s : State) (w : Walked) (p : Pass) : (s.withPass w p).pos = s.pos := by
  cases w <;> rfl
@[simp] theorem State.withPass_tmp (s : State) (w : Walked) (p : Pass) :
    (s.withPass w p).tmp = { s.tmp with lastZero := some p.lastZero, own := if w = .own then some p.cursor else s.tmp.own } := by
  cases w <;> rfl
@[simp] theorem State.withPass_pin (s : State) (w : Walked) (p : Pass) : (s.withPass w p).pin = s.pin := by
  cases w <;> rfl
@[simp] theorem State.withPass_env (s : State) (w : Walked) (p : Pass) : (s.withPass w p).env = s.env := by
  cases w <;> rfl
@[simp] theorem State.withPass_walked (s : State) (w : Walked) (p : Pass) : (s.withPass w p).walked w = p.cursor := by
  cases w <;> rfl

@[simp] theorem State.withPass_passOf (s : State) (w : Walked) (p : Pass) : (s.withPass w p).passOf w = some p := by
  cases w <;> rfl

/-- A write of the host stream that changes nothing. -/
@[simp] theorem State.setHost_self (s : State) : s.setHost s.env.host = s := rfl

end Sys2Proof.Machine
end

