-- ==== Sys2Proof/Laws/Memory.lean ====
section
/-! SUPPORT. The block buffer: a read after a write, and the canonical form kept by every write. -/

namespace Sys2Proof.Machine

theorem memRead_memWrite_same (m : Memory) (i : Nat) (v : Byte) : memRead (memWrite m i v) i = some v := by
  induction m with
  | nil => simp [memWrite, memRead]
  | cons c m ih =>
    obtain ⟨a, x⟩ := c
    unfold memWrite
    split_ifs with h1 h2
    · simp [memRead]
    · simp [memRead]
    · simp [memRead, ih, Ne.symm h2]

theorem memRead_memWrite_other (m : Memory) (i j : Nat) (v : Byte) (h : j ≠ i) :
    memRead (memWrite m i v) j = memRead m j := by
  induction m with
  | nil => simp [memWrite, memRead, Ne.symm h]
  | cons c m ih =>
    obtain ⟨a, x⟩ := c
    unfold memWrite
    split_ifs with h1 h2
    · simp [memRead, Ne.symm h]
    · subst h2
      simp [memRead, Ne.symm h]
    · simp [memRead, ih]

/-- An entry after a write is the one written or was there before. -/
theorem mem_memWrite (m : Memory) (i : Nat) (v : Byte) (c : Host.Cell) (h : c ∈ memWrite m i v) : c = (i, v) ∨ c ∈ m := by
  induction m with
  | nil => simpa [memWrite] using h
  | cons d m ih =>
    obtain ⟨a, x⟩ := d
    unfold memWrite at h
    split_ifs at h
    · simpa using h
    · rcases List.mem_cons.1 h with h | h
      · exact .inl h
      · exact .inr (List.mem_cons_of_mem _ h)
    · rcases List.mem_cons.1 h with h | h
      · exact .inr (h ▸ List.mem_cons_self)
      · exact (ih h).imp_right (List.mem_cons_of_mem _)

theorem memWrite_wf (m : Memory) (i : Nat) (v : Byte) (h : Memory.wf m) : Memory.wf (memWrite m i v) := by
  induction m with
  | nil => simp [memWrite]
  | cons d m ih =>
    obtain ⟨a, x⟩ := d
    obtain ⟨h1, h2⟩ := List.pairwise_cons.1 h
    unfold memWrite
    split_ifs with hi hi'
    · refine List.pairwise_cons.2 ⟨fun c hc => ?_, h⟩
      rcases List.mem_cons.1 hc with rfl | hc
      · exact hi
      · exact hi.trans (h1 c hc)
    · subst hi'
      exact List.pairwise_cons.2 ⟨h1, h2⟩
    · refine List.pairwise_cons.2 ⟨fun c hc => ?_, ih h2⟩
      rcases mem_memWrite m i v c hc with rfl | hc
      · exact lt_of_le_of_ne (not_lt.1 hi) (Ne.symm hi')
      · exact h1 c hc

/-- Every stored byte is below BUF_SIZE and the list is in canonical form (the part of the invariant about BUF). -/
abbrev State.bufWf (s : State) : Prop := Memory.wf s.buf ∧ ∀ c ∈ s.buf, c.1 < s.cfg.bufSize

theorem State.setBufByte_bufWf (s : State) (i : Nat) (v : Byte) (h : s.bufWf) : (s.setBufByte i v).bufWf := by
  unfold State.setBufByte
  split
  · next hi =>
    refine ⟨memWrite_wf _ _ _ h.1, fun c hc => ?_⟩
    rcases mem_memWrite _ _ _ c hc with rfl | hc
    · exact hi
    · exact h.2 c hc
  · exact h

theorem State.setBufWord_bufWf (s : State) (w : Nat) (v : Word) (h : s.bufWf) : (s.setBufWord w v).bufWf := by
  unfold State.setBufWord
  iterate 4 refine State.setBufByte_bufWf _ _ _ ?_
  exact h

theorem State.reset_bufWf : State.reset.bufWf := by decide

theorem State.bufByte_setBufByte_same (s : State) (i : Nat) (v : Byte) (h : i < s.cfg.bufSize) :
    (s.setBufByte i v).bufByte i = v := by
  simp [State.bufByte, h, memRead_memWrite_same]

theorem State.bufByte_setBufByte_other (s : State) (i j : Nat) (v : Byte) (h : j ≠ i) :
    (s.setBufByte i v).bufByte j = s.bufByte j := by
  simp only [State.bufByte, State.setBufByte_cfg, State.setBufByte_env, State.setBufByte_buf]
  split_ifs <;> simp [memRead_memWrite_other, h]

/-- BUF reads the same in two states with the same stored bytes, parameters and reset count. -/
theorem State.bufByte_congr {s t : State} (hb : t.buf = s.buf) (hc : t.cfg = s.cfg) (hr : t.env.resets = s.env.resets) (i : Nat) :
    t.bufByte i = s.bufByte i := by
  simp [State.bufByte, hb, hc, hr]

end Sys2Proof.Machine
end

