-- ==== Sys2Proof/Laws/Run.lean ====
section
/-! SUPPORT. What the pieces of a running command do, once each: sequencing, points, phases, samples, slots, bytes, completion. -/

namespace Sys2Proof.Machine

/-! ## Sequencing -/

@[simp] theorem Ran.andThen_ok {α β : Type} (a : α) (s : State) (f : α → State → Ran β) : (Ran.ok a s).andThen f = f a s := rfl

@[simp] theorem Ran.andThen_cut {α β : Type} (s : State) (f : α → State → Ran β) : (Ran.cut s : Ran α).andThen f = .cut s := rfl

@[simp] theorem Ran.andThen_stopped {α β : Type} (s : State) (f : α → State → Ran β) :
    (Ran.stopped s : Ran α).andThen f = .stopped s := rfl

@[simp] theorem Ran.held_ok (s : State) (p : Pin) (d : Nat) : (Ran.ok () s).held p d = .ok () (s.held p d) := rfl

@[simp] theorem Ran.held_cut (s : State) (p : Pin) (d : Nat) : (Ran.cut s : Ran Unit).held p d = .cut (s.cutShort p) := rfl

@[simp] theorem Ran.held_stopped (s : State) (p : Pin) (d : Nat) : (Ran.stopped s : Ran Unit).held p d = .stopped s := rfl

@[simp] theorem samplesIn_nil : samplesIn [] = 0 := rfl

@[simp] theorem samplesIn_append (a b : List Expect) : samplesIn (a ++ b) = samplesIn a + samplesIn b := by
  simp [samplesIn]

@[simp] theorem samplesIn_cons_low (n : Nat) (l : List Expect) : samplesIn (.low n :: l) = samplesIn l := by
  simp [samplesIn, Expect.isSample]

@[simp] theorem samplesIn_cons_rel (n : Nat) (l : List Expect) : samplesIn (.rel n :: l) = samplesIn l := by
  simp [samplesIn, Expect.isSample]

@[simp] theorem samplesIn_cons_smp (b : Bool) (l : List Expect) : samplesIn (.smp b :: l) = samplesIn l + 1 := by
  simp [samplesIn, List.countP_cons, Expect.isSample]

/-! ## The accesses that land in a running command -/

/-- The part of a state that a running command never changes and that an access to it can see, OVR aside. -/
structure SameSeen (s t : State) : Prop where
  cfg : t.cfg = s.cfg
  ctrl : t.ctrl = s.ctrl
  cmd : t.cmd = s.cmd
  seq : t.seq = s.seq
  done : t.flags.done = s.flags.done
  result : t.flags.result = s.flags.result

theorem SameSeen.refl (s : State) : SameSeen s s := ⟨rfl, rfl, rfl, rfl, rfl, rfl⟩

theorem SameSeen.trans {s t u : State} (h : SameSeen s t) (h' : SameSeen t u) : SameSeen s u :=
  ⟨h'.cfg.trans h.cfg, h'.ctrl.trans h.ctrl, h'.cmd.trans h.cmd, h'.seq.trans h.seq, h'.done.trans h.done, h'.result.trans h.result⟩

theorem regAt_status (off : Nat) : regAt off = some .status ↔ off = 0x008 := by
  refine ⟨fun h => ?_, fun h => h ▸ rfl⟩
  unfold regAt at h
  split at h <;> simp_all

section seen
variable {s t : State} (h : SameSeen s t)
include h

theorem SameSeen.busy : t.busy = s.busy := by simp [State.busy, h.seq]

theorem SameSeen.drawsAt (off : Nat) : drawsAt off t = drawsAt off s := by
  unfold Sys2Proof.Machine.drawsAt openWhileBusy
  rw [h.cfg]

theorem SameSeen.overrunsAt (off : Nat) : overrunsAt off t = overrunsAt off s := by
  unfold Sys2Proof.Machine.overrunsAt overrunsWhileBusy
  rw [h.cfg]

/-- A register with a value of its own, STATUS aside, reads the same. -/
theorem SameSeen.readAt (off : Nat) (hd : Sys2Proof.Machine.drawsAt off s = false) (ho : off ≠ 0x008) : readAt off t = readAt off s := by
  unfold Sys2Proof.Machine.readAt
  unfold Sys2Proof.Machine.drawsAt at hd
  have hs := mt (regAt_status off).1 ho
  cases hr : regAt off with
  | none => rfl
  | some r =>
    rw [hr] at hd hs
    cases r with
    | ctrl => simp [readReg, h.ctrl]
    | cmd => simp [readReg, h.cmd]
    | info => simp [readReg, h.cfg]
    | status => exact absurd rfl hs
    | buf w =>
      simp only [openWhileBusy, decide_eq_false_iff_not, not_lt] at hd
      have h0 : ∀ j, ¬ 4 * w + j < s.cfg.bufSize := fun j => by omega
      have h1 : ¬ 4 * w < s.cfg.bufSize := h0 0
      simp [readReg, State.bufWord, State.bufByte, h.cfg, h0, h1]
    | _ => cases hd

/-- STATUS reads the same but for OVR, PRESENT and FOUND. -/
theorem SameSeen.status : Sys2Proof.Machine.readAt 0x008 t &&& 0xFFFFFFE3 = Sys2Proof.Machine.readAt 0x008 s &&& 0xFFFFFFE3 := by
  show statusWord t.busy t.flags &&& _ = statusWord s.busy s.flags &&& _
  rw [h.busy]
  unfold statusWord
  rw [h.done, h.result]
  generalize s.busy = b0, s.flags.done = b1, t.flags.found = c4, t.flags.present = c3, t.flags.ovr = c2,
    s.flags.found = d4, s.flags.present = d3, s.flags.ovr = d2, resultBits s.flags.result = r
  revert r
  cases b0 <;> cases b1 <;> cases c4 <;> cases c3 <;> cases c2 <;> cases d4 <;> cases d3 <;> cases d2 <;> decide

theorem Landed.congr {n n' : Nat} {o o' : Bool} {l : List HostReq} {vs : List Word} (hl : Landed t n o l vs n' o') :
    Landed s n o l vs n' o' := by
  induction hl with
  | none n o => exact .none n o
  | draw hd _ ih => exact .draw (h.drawsAt _ ▸ hd) ih
  | exact hd ho _ ih =>
    rw [h.drawsAt] at hd
    rw [h.readAt _ hd ho]
    exact .exact hd ho ih
  | status hr ho hv _ ih => exact .status hr ho (hv.trans h.status) ih
  | write _ ih => exact .write (h.overrunsAt _ ▸ ih)

end seen

theorem Landed.append {s : State} {n n' n'' : Nat} {o o' o'' : Bool} {l l' : List HostReq} {vs vs' : List Word}
    (h : Landed s n o l vs n' o') (h' : Landed s n' o' l' vs' n'' o'') : Landed s n o (l ++ l') (vs ++ vs') n'' o'' := by
  induction h with
  | none => exact h'
  | draw hd _ ih => exact .draw hd (ih h')
  | exact hd ho _ ih => exact .exact hd ho (ih h')
  | status hr ho hv _ ih => exact .status hr ho hv (ih h')
  | write _ ih => exact .write (ih h')

/-- OVR, once set, stays set. -/
theorem Landed.ovr {s : State} {n n' : Nat} {o o' : Bool} {l : List HostReq} {vs : List Word} (h : Landed s n o l vs n' o') :
    o = true → o' = true := by
  induction h with
  | none => exact id
  | draw _ _ ih => exact ih
  | exact _ _ _ ih => exact ih
  | status _ _ _ _ ih => exact ih
  | write _ ih => exact fun ho => ih (by simp [ho])

theorem Landed.of_nil {s : State} {n n' : Nat} {o o' : Bool} {vs : List Word} (h : Landed s n o [] vs n' o') :
    vs = [] ∧ n' = n ∧ o' = o := by
  cases h
  exact ⟨rfl, rfl, rfl⟩

theorem Took.none (s : State) : Took s [] s.flags.ovr s := ⟨[], .none _ _, by simp⟩

theorem Took.trans {s t u : State} {l l' : List HostReq} {o : Bool} (hs : SameSeen s t) (h : Took s l t.flags.ovr t)
    (h' : Took t l' o u) : Took s (l ++ l') o u := by
  obtain ⟨vs, h1, h2⟩ := h
  obtain ⟨vs', h1', h2'⟩ := h'
  exact ⟨vs ++ vs', h1.append (h1'.congr hs), by rw [h2', h2, List.append_assoc]⟩

/-- Where the registers and the inputs are the same, so is what has landed. -/
theorem Took.congr {s s' t : State} {l : List HostReq} {o : Bool} (hs : SameSeen s s') (he : s'.env = s.env)
    (ho : s'.flags.ovr = s.flags.ovr) (h : Took s' l o t) : Took s l o t := by
  obtain ⟨vs, h1, h2⟩ := h
  exact ⟨vs, he ▸ ho ▸ h1.congr hs, he ▸ h2⟩

/-- Nothing has happened yet. -/
theorem During.refl (s : State) : During s [] s where
  regs := rfl
  took := ⟨[], rfl, .none s⟩
  line := rfl
  samples := rfl
  resets := rfl
  trace := ⟨[], by simp⟩

section fields
variable {s t : State} {tr : List Expect} (h : During s tr t)
include h

theorem During.cfg : t.cfg = s.cfg := by rw [h.regs]
theorem During.ctrl : t.ctrl = s.ctrl := by rw [h.regs]
theorem During.cmd : t.cmd = s.cmd := by rw [h.regs]
theorem During.data : t.data = s.data := by rw [h.regs]
theorem During.acc : t.acc = s.acc := by rw [h.regs]
theorem During.rom : t.rom = s.rom := by rw [h.regs]
theorem During.cursor : t.cursor = s.cursor := by rw [h.regs]
theorem During.buf : t.buf = s.buf := by rw [h.regs]
theorem During.seq : t.seq = s.seq := by rw [h.regs]
theorem During.done : t.flags.done = s.flags.done := by rw [h.regs]
theorem During.present : t.flags.present = s.flags.present := by rw [h.regs]
theorem During.found : t.flags.found = s.flags.found := by rw [h.regs]
theorem During.result : t.flags.result = s.flags.result := by rw [h.regs]

theorem During.seen : SameSeen s t := ⟨h.cfg, h.ctrl, h.cmd, h.seq, h.done, h.result⟩

theorem During.bufByte (i : Nat) : t.bufByte i = s.bufByte i := State.bufByte_congr h.buf h.cfg h.resets i

theorem During.host : t.env.host <:+ s.env.host := by
  obtain ⟨l, h1, -⟩ := h.took
  exact ⟨l, h1.symm⟩

theorem During.replies : s.env.replies <+: t.env.replies := by
  obtain ⟨l, -, vs, -, h2⟩ := h.took
  exact ⟨vs, h2.symm⟩

theorem During.ovrKept : s.flags.ovr = true → t.flags.ovr = true := by
  obtain ⟨l, -, vs, h1, -⟩ := h.took
  exact h1.ovr

theorem During.noReset (hs : s.noReset) : t.noReset := fun r hr => hs r (h.host.subset hr)

theorem During.noLook (hs : s.noLook) : t.noLook := fun r hr => hs r (h.host.subset hr)

theorem During.unbroken (hs : s.unbroken) : t.unbroken := ⟨h.noReset hs.1, h.noLook hs.2⟩

/-- The levels still to come are those past the samples taken. -/
theorem During.upcoming (i : Nat) : t.upcoming i = s.upcoming (samplesIn tr + i) := by
  simp [State.upcoming, h.line, h.samples, Nat.add_assoc]

end fields

/-- One piece after another. -/
theorem During.trans {s t u : State} {tr tr' : List Expect} (h : During s tr t) (h' : During t tr' u) :
    During s (tr ++ tr') u where
  regs := by rw [h'.regs, h.regs]
  took := by
    obtain ⟨l, h1, h2⟩ := h.took
    obtain ⟨l', h1', h2'⟩ := h'.took
    exact ⟨l ++ l', by rw [h1, h1', List.append_assoc], h2.trans h.seen h2'⟩
  line := by rw [h'.line, h.line, List.drop_drop, samplesIn_append]
  samples := by rw [h'.samples, h.samples, samplesIn_append, Nat.add_assoc]
  resets := h'.resets.trans h.resets
  trace := by
    obtain ⟨es, h1, h2⟩ := h.trace
    obtain ⟨es', h1', h2'⟩ := h'.trace
    exact ⟨es ++ es', by rw [h1', h1, List.append_assoc], List.rel_append h2 h2'⟩

/-- A reset that cuts a later piece cuts the command. -/
theorem CutFrom.of_during {s t u : State} {tr : List Expect} (h : During s tr t) (h' : CutFrom t u) : CutFrom s u where
  regs := by rw [h'.regs, h.cfg]
  took := by
    obtain ⟨l, h1, h2⟩ := h.took
    obtain ⟨l', a, o, h1', h2'⟩ := h'.took
    exact ⟨l ++ l', a, o, by rw [h1, h1', List.append_assoc], h2.trans h.seen h2'⟩
  resets := by rw [h'.resets, h.resets]

/-- A look that stops a later piece stops the command. -/
theorem StoppedFrom.of_during {s t u : State} {tr : List Expect} (h : During s tr t) (h' : StoppedFrom t u) : StoppedFrom s u where
  cfg := h'.cfg.trans h.cfg
  ctrl := h'.ctrl.trans h.ctrl
  cmd := h'.cmd.trans h.cmd
  seq := h'.seq.trans h.seq
  done := h'.done.trans h.done
  result := h'.result.trans h.result
  took := by
    obtain ⟨l, h1, h2⟩ := h.took
    obtain ⟨l', a, n, h1', h2'⟩ := h'.took
    exact ⟨l ++ l', a, n, by rw [h1, h1', List.append_assoc], h2.trans h.seen h2'⟩
  resets := h'.resets.trans h.resets

/-- A cut has its reset among the accesses to come. -/
theorem CutFrom.reset_to_come {s t : State} (h : CutFrom s t) : ¬ s.noReset := by
  obtain ⟨l, a, o, h1, -⟩ := h.took
  exact fun hs => hs ⟨a, .reset⟩ (by simp [h1]) rfl

/-- A stop has its look among the accesses to come. -/
theorem StoppedFrom.look_to_come {s t : State} (h : StoppedFrom s t) : ¬ s.noLook := by
  obtain ⟨l, a, n, h1, -⟩ := h.took
  exact fun hs => by simpa [HostOp.isLook] using hs ⟨a, .look n⟩ (by simp [h1])

/-- Where what an access sees and the inputs are the same, so is what is known of a cut or a stop. -/
theorem CutFrom.congr {s s' t : State} (hs : SameSeen s s') (he : s'.env = s.env) (ho : s'.flags.ovr = s.flags.ovr)
    (h : CutFrom s' t) : CutFrom s t where
  regs := hs.cfg ▸ h.regs
  took := by
    obtain ⟨l, a, o, h1, h2⟩ := h.took
    exact ⟨l, a, o, he ▸ h1, h2.congr hs he ho⟩
  resets := he ▸ h.resets

theorem StoppedFrom.congr {s s' t : State} (hs : SameSeen s s') (he : s'.env = s.env) (ho : s'.flags.ovr = s.flags.ovr)
    (h : StoppedFrom s' t) : StoppedFrom s t where
  cfg := h.cfg.trans hs.cfg
  ctrl := h.ctrl.trans hs.ctrl
  cmd := h.cmd.trans hs.cmd
  seq := h.seq.trans hs.seq
  done := h.done.trans hs.done
  result := h.result.trans hs.result
  took := by
    obtain ⟨l, a, n, h1, h2⟩ := h.took
    exact ⟨l, a, n, he ▸ h1, h2.congr hs he ho⟩
  resets := h.resets.trans (by rw [he])

/-- The same of what a register written before or after a piece leaves alone. -/
theorem During.congr {s s' t t' : State} {tr : List Expect} (h : During s tr t) (hs : SameSeen s' s) (he : s'.env = s.env)
    (ho : s'.flags.ovr = s.flags.ovr) (he' : t'.env = t.env) (ho' : t'.flags.ovr = t.flags.ovr)
    (hr : t' = { s' with flags := { s'.flags with ovr := t'.flags.ovr }, pos := t'.pos, tmp := t'.tmp, pin := t'.pin, env := t'.env }) :
    During s' tr t' where
  regs := hr
  took := by
    obtain ⟨l, h1, h2⟩ := h.took
    refine ⟨l, he ▸ he' ▸ h1, ?_⟩
    obtain ⟨vs, h3, h4⟩ := h2.congr hs he.symm ho.symm
    exact ⟨vs, he' ▸ ho' ▸ h3, he' ▸ h4⟩
  line := by rw [he', he]; exact h.line
  samples := by rw [he', he]; exact h.samples
  resets := by rw [he', he]; exact h.resets
  trace := by rw [he', he]; exact h.trace

/-- Sequencing of what is known. -/
theorem Ran.Yields.andThen {α β : Type} {s : State} {tr tr' : List Expect} {a : α} {b : β} {r : Ran α}
    {f : α → State → Ran β} (h : r.Yields s tr a) (h' : ∀ t, During s tr t → (f a t).Yields t tr' b) :
    (r.andThen f).Yields s (tr ++ tr') b := by
  cases r with
  | cut t => exact h
  | stopped t => exact h
  | ok a' t =>
    obtain ⟨rfl, ht⟩ := h
    have := h' t ht
    simp only [Ran.andThen_ok]
    revert this
    cases f a' t with
    | ok b' u => exact fun ⟨hb, hu⟩ => ⟨hb, ht.trans hu⟩
    | cut u => exact fun hc => hc.of_during ht
    | stopped u => exact fun hc => hc.of_during ht

/-- A piece with no bus activity that just yields a value. -/
theorem Ran.Yields.pure {α : Type} (s : State) (a : α) : (Ran.ok a s).Yields s [] a := ⟨rfl, During.refl s⟩

/-- A value computed from the one yielded. -/
theorem Ran.Yields.map {α β : Type} {s : State} {tr : List Expect} {a : α} {r : Ran α} (h : r.Yields s tr a) (g : α → β) :
    (r.andThen fun b u => .ok (g b) u).Yields s tr (g a) := by
  cases r with
  | ok b u => exact ⟨congrArg g h.1, h.2⟩
  | cut u => exact h
  | stopped u => exact h

theorem Ran.Yields.congr {α : Type} {s : State} {tr tr' : List Expect} {a a' : α} {r : Ran α} (h : r.Yields s tr a)
    (ht : tr = tr') (ha : a = a') : r.Yields s tr' a' := ht ▸ ha ▸ h

/-- What has gone before is put in front. -/
theorem Ran.Yields.after {α : Type} {s t : State} {tr tr' : List Expect} {a : α} {r : Ran α} (h : During s tr t)
    (h' : r.Yields t tr' a) : r.Yields s (tr ++ tr') a := by
  cases r with
  | ok b u => exact ⟨h'.1, h.trans h'.2⟩
  | cut u => exact h'.of_during h
  | stopped u => exact h'.of_during h

/-- The pin, the position and the temporaries are no part of what a piece keeps. -/
theorem During.of_hidden (s : State) (p : Pin) (n : Position) (m : Temps) : During s [] { s with pin := p, pos := n, tmp := m } :=
  { During.refl s with regs := rfl, took := ⟨[], rfl, .none s⟩ }

theorem Ran.Yields.of_hidden {α : Type} {s s' : State} {tr : List Expect} {a : α} {r : Ran α} (h : r.Yields s' tr a)
    (hs : s' = { s with pin := s'.pin, pos := s'.pos, tmp := s'.tmp } := by rfl) : r.Yields s tr a := by
  refine Ran.Yields.after (tr := []) ?_ h
  rw [hs]
  exact .of_hidden s _ _ _

/-! ## Points, phases, samples -/

/-- What a read that lands gives: a free value where the register is open, else the register's own (R67). -/
theorem busyRead_eq (off : Nat) (s : State) :
    busyRead off s = if drawsAt off s then
      ({ s with env := { s.env with draws := s.env.draws + 1 } } : State).reply (Config.busyRead s.env.draws)
    else s.reply (readAt off s) := by
  unfold busyRead drawsAt readAt
  cases regAt off with
  | none => rfl
  | some r => rfl

/-- What a write that lands does: OVR, where R66 says so. -/
theorem busyWrite_eq (off : Nat) (s : State) :
    busyWrite off s = { s with flags := { s.flags with ovr := s.flags.ovr || overrunsAt off s } } := by
  unfold busyWrite overrunsAt
  cases regAt off with
  | none => simp
  | some r =>
    cases h : overrunsWhileBusy r s with
    | true => simp [h, State.setOverrun]
    | false => simp [h]

theorem statusWord_ovr (b : Bool) (f : Flags) : (statusWord b f).getLsbD 2 = f.ovr := by
  simp only [statusWord, BitVec.getLsbD_append, bit]
  simp

/-- A host read that lands takes its request off the list and adds a reply. -/
theorem landedRead_during (a : Arrival) (off size : Nat) (rest : List HostReq) (s : State) :
    During (s.setHost (⟨a, .read off size⟩ :: rest)) [] ((busyRead off s).setHost rest) := by
  rw [busyRead_eq]
  by_cases hd : drawsAt off s = true
  · rw [if_pos hd]
    exact ⟨rfl, ⟨[_], rfl, [_], .draw hd (.none _ _), rfl⟩, rfl, rfl, rfl, [], by simp [State.setHost]⟩
  · rw [if_neg hd]
    have hd' : drawsAt off s = false := by simpa using hd
    refine ⟨rfl, ⟨[_], rfl, [readAt off s], ?_, rfl⟩, rfl, rfl, rfl, [], by simp [State.setHost]⟩
    by_cases ho : off = 0x008
    · subst ho
      exact .status (.inl ⟨size, rfl⟩) (statusWord_ovr _ _) rfl (.none _ _)
    · exact .exact hd' ho (.none _ _)

/-- A poll that lands reads STATUS (R100). -/
theorem landedPoll_during (a : Arrival) (last : Bool) (rest : List HostReq) (s : State) :
    During (s.setHost (⟨a, .poll last⟩ :: rest)) [] ((busyRead (regOffset .status) s).setHost rest) := by
  rw [busyRead_eq, if_neg (show ¬ drawsAt (regOffset .status) s = true from Bool.false_ne_true)]
  exact ⟨rfl, ⟨[_], rfl, [_], .status (.inr ⟨last, rfl⟩) (statusWord_ovr _ _) rfl (.none _ _), rfl⟩, rfl, rfl, rfl, [],
    by simp [State.setHost]⟩

/-- A host write that lands takes its request off the list and changes nothing but OVR. -/
theorem landedWrite_during (a : Arrival) (off size : Nat) (v : Word) (rest : List HostReq) (s : State) :
    During (s.setHost (⟨a, .write off size v⟩ :: rest)) [] ((busyWrite off s).setHost rest) := by
  rw [busyWrite_eq]
  exact ⟨rfl, ⟨[_], rfl, [], .write (.none _ _), by simp⟩, rfl, rfl, rfl, [], by simp [State.setHost]⟩

/-- The host accesses that land at a point of a running command. -/
theorem arrivals_yields (l : List HostReq) (s : State) : (arrivals l s).Yields (s.setHost l) [] () := by
  induction l generalizing s with
  | nil => exact .pure _ _
  | cons r rest ih =>
    obtain ⟨a, op⟩ := r
    unfold arrivals
    split
    · cases op with
      | read off size => exact (ih _).after (landedRead_during a off size rest s)
      | write off size v => exact (ih _).after (landedWrite_during a off size v rest s)
      | poll last => exact (ih _).after (landedPoll_during a last rest s)
      | reset => exact ⟨rfl, ⟨[], a, _, rfl, [], .none _ _, by simp⟩, rfl⟩
      | look n => exact ⟨rfl, rfl, rfl, rfl, rfl, rfl, ⟨[], a, n, rfl, [], .none _ _, by simp⟩, rfl⟩
    · exact .pure _ _

theorem here_yields (s : State) : (here s).Yields s [] () := arrivals_yields s.env.host s

/-- A point of a running command. -/
theorem point_yields (s : State) : (point s).Yields s [] () := Ran.Yields.of_hidden (here_yields _)

/-- What one phase adds to the trace. -/
def phaseExpect (p : Pin) (t : Nat) : Expect :=
  match p with
  | .low => .low t
  | .released => .rel t

@[simp] theorem samplesIn_phaseExpect (p : Pin) (t : Nat) : samplesIn [phaseExpect p t] = 0 := by
  cases p <;> rfl

/-- A phase that is over has left its event (R111). -/
theorem held_during (p : Pin) (t d : Nat) (h : t ≤ d) (s : State) : During s [phaseExpect p t] (s.held p d) := by
  refine ⟨rfl, ⟨[], rfl, .none s⟩, ?_, ?_, rfl, [phaseEvent p d], rfl, ?_⟩
  · simp
  · simp
  · cases p <;> simpa [phaseEvent, phaseExpect, BusEvent.meets] using h

theorem Ran.Yields.held {s : State} {r : Ran Unit} (h : r.Yields s [] ()) (p : Pin) (t d : Nat) (hd : t ≤ d) :
    (r.held p d).Yields s [phaseExpect p t] () := by
  cases r with
  | ok _ u => exact ⟨rfl, h.2.trans (held_during p t d hd u)⟩
  | stopped u => exact h
  | cut u =>
    obtain ⟨h1, h2, h3⟩ := h
    refine ⟨?_, h2, h3⟩
    conv_lhs => rw [h1]
    rfl

/-- One phase (R111): an event of at least `t` ticks. -/
theorem phase_yields (pl : Place) (p : Pin) (t : Nat) (s : State) : (phase pl p t s).Yields s [phaseExpect p t] () :=
  Ran.Yields.of_hidden (s' := s.enter pl p t) ((point_yields _).held p t _ (Nat.le_add_right _ _))

theorem driveLow_yields (pl : Place) (t : Nat) (s : State) : (driveLow pl t s).Yields s [.low t] () := phase_yields pl .low t s

theorem release_yields (pl : Place) (t : Nat) (s : State) : (release pl t s).Yields s [.rel t] () := phase_yields pl .released t s

/-- A sample (R111). -/
theorem sample_yields (s : State) : (sample s).Yields s [.smp s.level] s.level :=
  ⟨rfl, rfl, ⟨[], rfl, .none s⟩, by simp, by simp, rfl, [.smp s.level], rfl, by simp [BusEvent.meets]⟩

@[simp] theorem State.level_eq (s : State) : s.level = s.upcoming 0 := by simp [State.level, State.upcoming]

/-- A sample after a stretch of bus activity: the level that was the `n`-th to come when it began. -/
theorem sample_yields_after {s t : State} {tr : List Expect} (h : During s tr t) (n : Nat) (hn : samplesIn tr = n) :
    (sample t).Yields t [.smp (s.upcoming n)] (s.upcoming n) := by
  have := sample_yields t
  rwa [State.level_eq, h.upcoming, hn] at this

/-! ## The procedures of the bus physical layer -/

/-- R116. -/
theorem resetSeq_yields (s : State) :
    (resetSeq s).Yields s (resetTrace s.cfg.timing (s.upcoming 0) (s.upcoming 1)) (!s.upcoming 0 && s.upcoming 1) := by
  refine (release_yields _ _ s).andThen fun t ht => ?_
  unfold resetAfterG
  rw [ht.cfg]
  refine (driveLow_yields _ _ t).andThen fun u hu => ?_
  replace hu := ht.trans hu
  unfold resetAfterH
  rw [hu.cfg]
  refine (release_yields _ _ u).andThen fun v hv => ?_
  replace hv := hu.trans hv
  refine (sample_yields_after hv 0 rfl).andThen fun w hw => ?_
  replace hw := hv.trans hw
  rw [hw.cfg]
  refine (release_yields _ _ w).andThen (tr' := [.smp (s.upcoming 1)]) fun x hx => ?_
  refine (sample_yields_after (hw.trans hx) 1 rfl).andThen (tr' := []) fun y _ => ?_
  exact .pure _ _

/-- R117. -/
theorem writeBit_yields (b : Bool) (s : State) : (writeBit b s).Yields s (writeBitTrace s.cfg.timing b) () := by
  cases b
  · refine (driveLow_yields _ _ s).andThen fun t ht => ?_
    unfold writeAfterLow
    rw [ht.cfg]
    exact release_yields _ _ t
  · refine (driveLow_yields _ _ s).andThen fun t ht => ?_
    unfold writeAfterLow
    rw [ht.cfg]
    exact release_yields _ _ t

/-- R118. -/
theorem readBit_yields (s : State) : (readBit s).Yields s (readBitTrace s.cfg.timing (s.upcoming 0)) (s.upcoming 0) := by
  refine (driveLow_yields _ _ s).andThen fun t ht => ?_
  unfold readAfterLow
  rw [ht.cfg]
  refine (release_yields _ _ t).andThen fun u hu => ?_
  replace hu := ht.trans hu
  refine (sample_yields_after hu 0 rfl).andThen fun v hv => ?_
  replace hv := hu.trans hv
  rw [hv.cfg]
  exact (release_yields _ _ v).andThen (tr' := []) fun w _ => .pure _ _

@[simp] theorem samplesIn_writeBitTrace (tm : Timing) (b : Bool) : samplesIn (writeBitTrace tm b) = 0 := by
  cases b <;> rfl

@[simp] theorem samplesIn_readBitTrace (tm : Timing) (b : Bool) : samplesIn (readBitTrace tm b) = 1 := rfl

@[simp] theorem samplesIn_resetTrace (tm : Timing) (a b : Bool) : samplesIn (resetTrace tm a b) = 2 := rfl

@[simp] theorem samplesIn_writeBitsTrace (tm : Timing) (bs : List Bool) : samplesIn (writeBitsTrace tm bs) = 0 := by
  induction bs with
  | nil => rfl
  | cons b bs ih => simpa [writeBitsTrace] using ih

@[simp] theorem samplesIn_readBitsTrace (tm : Timing) (bs : List Bool) : samplesIn (readBitsTrace tm bs) = bs.length := by
  induction bs with
  | nil => rfl
  | cons b bs ih => simp only [readBitsTrace, List.flatMap_cons, samplesIn_append, samplesIn_readBitTrace] at ih ⊢; simp [ih, Nat.add_comm]

@[simp] theorem samplesIn_writeBytesTrace (tm : Timing) (vs : List Byte) : samplesIn (writeBytesTrace tm vs) = 0 := by
  induction vs with
  | nil => rfl
  | cons b bs ih => simpa [writeBytesTrace] using ih

/-- Write slots, one after another. -/
theorem writeBits_yields (i : Nat) (bs : List Bool) (s : State) :
    (writeBits i bs s).Yields s (writeBitsTrace s.cfg.timing bs) () := by
  induction bs generalizing i s with
  | nil => exact .pure _ _
  | cons b bs ih =>
    refine (Ran.Yields.of_hidden (writeBit_yields b (s.atBit i))).andThen fun t ht => ?_
    have := ih (i + 1) t
    rwa [ht.cfg] at this

/-- R123: eight write slots, least significant bit first. -/
theorem writeByte_yields (v : Byte) (s : State) : (writeByte v s).Yields s (writeBitsTrace s.cfg.timing (byteBits v)) () :=
  writeBits_yields 0 _ s

/-- R152. -/
theorem writeBytes_yields (j : Nat) (vs : List Byte) (s : State) :
    (writeBytes j vs s).Yields s (writeBytesTrace s.cfg.timing vs) () := by
  induction vs generalizing j s with
  | nil => exact .pure _ _
  | cons v vs ih =>
    refine (Ran.Yields.of_hidden (writeByte_yields v (s.atByte j))).andThen fun t ht => ?_
    have := ih (j + 1) t
    rwa [ht.cfg] at this

@[simp] theorem State.levels_zero (s : State) (i : Nat) : s.levels i 0 = [] := rfl

theorem State.levels_succ (s : State) (i n : Nat) : s.levels i (n + 1) = s.upcoming i :: s.levels (i + 1) n := by
  simp only [State.levels, List.range_succ_eq_map, List.map_cons, List.map_map, Nat.add_zero]
  congr 1
  refine List.map_congr_left fun j _ => congrArg s.upcoming ?_
  simp only [Nat.succ_eq_add_one]
  omega

@[simp] theorem State.levels_length (s : State) (i n : Nat) : (s.levels i n).length = n := by simp [State.levels]

theorem State.levels_add (s : State) (i m n : Nat) : s.levels i (m + n) = s.levels i m ++ s.levels (i + m) n := by
  induction m generalizing i with
  | zero => simp
  | succ m ih => rw [Nat.add_right_comm, State.levels_succ, State.levels_succ, ih]; simp [Nat.add_assoc, Nat.add_comm 1]

/-- The levels still to come are those past the samples taken. -/
theorem During.levels {s t : State} {tr : List Expect} (h : During s tr t) (i n : Nat) :
    t.levels i n = s.levels (samplesIn tr + i) n := by
  simp [State.levels, h.upcoming, Nat.add_assoc]

/-- Read slots, one after another, after the bits already read. -/
theorem readBits_yields (n : Nat) (bs : List Bool) (s : State) :
    (readBits n bs s).Yields s (readBitsTrace s.cfg.timing (s.levels 0 n)) (bs ++ s.levels 0 n) := by
  induction n generalizing bs s with
  | zero => exact (Ran.Yields.pure _ _).congr rfl (by simp)
  | succ n ih =>
    rw [State.levels_succ]
    refine (Ran.Yields.of_hidden (readBit_yields (s.withBits bs))).andThen
      (tr' := readBitsTrace s.cfg.timing (s.levels 1 n)) fun t ht => ?_
    have := ih (bs ++ [s.upcoming 0]) t
    rw [ht.cfg, ht.levels] at this
    exact this.congr rfl (by simp [State.withBits])

/-- R123: eight read slots, the first bit read bit 0. -/
theorem readByte_yields (s : State) :
    (readByte s).Yields s (readBitsTrace s.cfg.timing (s.levels 0 8)) (byteOfBits (s.levels 0 8)) :=
  (readBits_yields 8 [] s).map byteOfBits

/-- The `n` bytes that the next `8n` levels from the `i`-th on make (R123). -/
def State.levelBytes (s : State) (i n : Nat) : List Byte := (List.range n).map fun j => byteOfBits (s.levels (i + 8 * j) 8)

theorem State.levelBytes_succ (s : State) (i n : Nat) :
    s.levelBytes i (n + 1) = byteOfBits (s.levels i 8) :: s.levelBytes (i + 8) n := by
  simp only [State.levelBytes, List.range_succ_eq_map, List.map_cons, List.map_map, Nat.mul_zero, Nat.add_zero]
  congr 1
  refine List.map_congr_left fun j _ => ?_
  simp [Nat.mul_add, Nat.add_assoc, Nat.add_comm 8]

theorem During.levelBytes {s t : State} {tr : List Expect} (h : During s tr t) (i n : Nat) :
    t.levelBytes i n = s.levelBytes (samplesIn tr + i) n := by
  simp [State.levelBytes, h.levels, Nat.add_assoc]

/-- Bytes read in order, after those already read. -/
theorem readBytes_yields (n : Nat) (vs : List Byte) (s : State) :
    (readBytes n vs s).Yields s (readBitsTrace s.cfg.timing (s.levels 0 (8 * n))) (vs ++ s.levelBytes 0 n) := by
  induction n generalizing vs s with
  | zero => exact (Ran.Yields.pure _ _).congr rfl (by simp [State.levelBytes])
  | succ n ih =>
    rw [State.levelBytes_succ, Nat.mul_succ, Nat.add_comm, State.levels_add]
    simp only [readBitsTrace, List.flatMap_append]
    refine (Ran.Yields.of_hidden (readByte_yields (s.withRbuf vs))).andThen fun t ht => ?_
    have := ih (vs ++ [byteOfBits (s.levels 0 8)]) t
    rw [ht.cfg, ht.levels, ht.levelBytes, samplesIn_readBitsTrace, State.levels_length, Nat.add_zero] at this
    rw [Nat.zero_add]
    exact this.congr rfl (by simp)

/-- R150: the bytes of BUF from index `j` on. -/
theorem writeBuf_yields (n j : Nat) (s : State) :
    (writeBuf n j s).Yields s (writeBytesTrace s.cfg.timing (bufBytes s n j)) () := by
  induction n generalizing s j with
  | zero => exact .pure _ _
  | succ n ih =>
    have hb : bufBytes s (n + 1) j = s.bufByte j :: bufBytes s n (j + 1) := by
      simp only [bufBytes, List.range_succ_eq_map, List.map_cons, List.map_map, Nat.add_zero]
      congr 1
      refine List.map_congr_left fun i _ => ?_
      simp [Nat.add_assoc, Nat.add_comm 1]
    rw [hb]
    refine (Ran.Yields.of_hidden (writeByte_yields _ (s.atByte j))).andThen
      (tr' := writeBytesTrace s.cfg.timing (bufBytes s n (j + 1))) fun t ht => ?_
    have hbt : bufBytes t n (j + 1) = bufBytes s n (j + 1) := List.map_congr_left fun i _ => ht.bufByte _
    have := ih (j + 1) t
    rwa [ht.cfg, hbt] at this

/-! ## Registers written inside a command

A register that a command writes as it runs is written in the state it started from just as well: `During`, `CutFrom` and
`StoppedFrom` look at the inputs, the records and what an access can see, which no such write touches. -/

theorem During.setPresent {s t : State} {tr : List Expect} (h : During s tr t) (p : Bool) :
    During (s.setPresent p) tr (t.setPresent p) :=
  h.congr ⟨rfl, rfl, rfl, rfl, rfl, rfl⟩ rfl rfl rfl rfl (by conv_lhs => rw [h.regs]
                                                             rfl)

theorem During.setCursor {s t : State} {tr : List Expect} (h : During s tr t) (c : Cursor) :
    During (s.setCursor c) tr (t.setCursor c) :=
  h.congr ⟨rfl, rfl, rfl, rfl, rfl, rfl⟩ rfl rfl rfl rfl (by conv_lhs => rw [h.regs]
                                                             rfl)

theorem During.withBuf {s t : State} {tr : List Expect} (h : During s tr t) (m : Memory) :
    During { s with buf := m } tr { t with buf := m } :=
  h.congr ⟨rfl, rfl, rfl, rfl, rfl, rfl⟩ rfl rfl rfl rfl (by conv_lhs => rw [h.regs])

theorem State.setBufByte_withBuf (s : State) (i : Nat) (v : Byte) (m : Memory) :
    { s.setBufByte i v with buf := m } = { s with buf := m } := by
  unfold State.setBufByte
  split <;> rfl

/-- What an access sees does not depend on PRESENT. -/
theorem SameSeen.setPresent (s : State) (p : Bool) : SameSeen s (s.setPresent p) := ⟨rfl, rfl, rfl, rfl, rfl, rfl⟩

theorem SameSeen.setBufByte (s : State) (i : Nat) (v : Byte) : SameSeen s (s.setBufByte i v) := by
  constructor <;> simp

/-- PRESENT is written, and a point comes after it. -/
theorem presence_yields (p : Bool) (s : State) : (presence p s).Yields (s.setPresent p) [] p :=
  Ran.Yields.map (Ran.Yields.of_hidden (point_yields ((s.setPresent p).stand .present))) fun _ => p

/-- R116 with PRESENT written. -/
theorem resetPresence_yields (s : State) :
    (resetPresence s).Yields (s.setPresent (!s.upcoming 0 && s.upcoming 1))
      (resetTrace s.cfg.timing (s.upcoming 0) (s.upcoming 1)) (!s.upcoming 0 && s.upcoming 1) := by
  unfold resetPresence
  have h := resetSeq_yields s
  revert h
  cases resetSeq s with
  | ok p t =>
    rintro ⟨rfl, ht⟩
    exact ((presence_yields _ t).after (ht.setPresent _)).congr (List.append_nil _) rfl
  | cut t => exact fun h => CutFrom.congr (s' := s) ⟨rfl, rfl, rfl, rfl, rfl, rfl⟩ rfl rfl h
  | stopped t => exact fun h => StoppedFrom.congr (s' := s) ⟨rfl, rfl, rfl, rfl, rfl, rfl⟩ rfl rfl h

/-- R151: `n` bytes read into BUF from index `j` on: the bytes that the levels make are stored there and every other byte stays; the
canonical form is kept. -/
theorem readBuf_spec (n j : Nat) (s : State) (hj : j + n ≤ s.cfg.bufSize) :
    match readBuf n j s with
    | .ok _ t =>
      During { s with buf := t.buf } (readBitsTrace s.cfg.timing (s.levels 0 (8 * n))) t ∧ (s.bufWf → t.bufWf) ∧
        ∀ a, t.bufByte a = if j ≤ a ∧ a < j + n then (s.levelBytes 0 n).getD (a - j) 0 else s.bufByte a
    | .cut t => CutFrom s t
    | .stopped t => StoppedFrom s t := by
  induction n generalizing s j with
  | zero =>
    refine ⟨.refl s, id, fun a => ?_⟩
    rw [if_neg (by omega)]
  | succ n ih =>
    have h := Ran.Yields.of_hidden (s := s) (readByte_yields (s.atByte j))
    unfold readBuf
    revert h
    cases readByte (s.atByte j) with
    | cut t => exact id
    | stopped t => exact id
    | ok v t =>
      rintro ⟨hv, ht⟩
      have hv' : v = byteOfBits (s.levels 0 8) := hv
      have ht' : During s (readBitsTrace s.cfg.timing (s.levels 0 8)) t := ht
      clear hv ht
      subst hv'
      rename During s _ t => ht
      simp only [Ran.andThen_ok]
      have := ih (j + 1) (t.setBufByte j (byteOfBits (s.levels 0 8))) (by simpa [ht.cfg] using by omega)
      revert this
      cases readBuf n (j + 1) (t.setBufByte j (byteOfBits (s.levels 0 8))) with
      | cut u => exact fun h => CutFrom.of_during ht (CutFrom.congr (.setBufByte _ _ _) (by simp) (by simp) h)
      | stopped u => exact fun h => StoppedFrom.of_during ht (StoppedFrom.congr (.setBufByte _ _ _) (by simp) (by simp) h)
      | ok _ u =>
        rintro ⟨h, hw, hb⟩
        have hl : (t.setBufByte j (byteOfBits (s.levels 0 8))).levels 0 (8 * n) = s.levels 8 (8 * n) := by
          have := ht.levels 0 (8 * n)
          simpa [State.levels, State.upcoming] using this
        have hlb : (t.setBufByte j (byteOfBits (s.levels 0 8))).levelBytes 0 n = s.levelBytes 8 n := by
          have := ht.levelBytes 0 n
          simpa [State.levelBytes, State.levels, State.upcoming] using this
        rw [hl, State.setBufByte_withBuf, State.setBufByte_cfg] at h
        refine ⟨?_, fun hs => hw (State.setBufByte_bufWf _ _ _ ?_), fun a => ?_⟩
        · rw [Nat.mul_succ, Nat.add_comm, State.levels_add]
          simp only [readBitsTrace, List.flatMap_append]
          rw [Nat.zero_add]
          exact (ht.withBuf u.buf).trans (ht.cfg ▸ h)
        · simpa [State.bufWf, ht.buf, ht.cfg] using hs
        · rw [hb, hlb, State.levelBytes_succ]
          by_cases haj : a = j
          · subst haj
            rw [if_neg (by omega), State.bufByte_setBufByte_same _ _ _ (by rw [ht.cfg]; omega), if_pos (by omega)]
            simp
          · rw [State.bufByte_setBufByte_other _ _ _ _ haj, ht.bufByte]
            by_cases ha : j + 1 ≤ a ∧ a < j + 1 + n
            · rw [if_pos ha, if_pos (by omega), show a - j = (a - (j + 1)) + 1 by omega]
              simp
            · rw [if_neg ha, if_neg (by omega)]

end Sys2Proof.Machine
end

