-- ==== Sys2Proof/Laws/Commands.lean ====
section
/-! SUPPORT. How a command ends: completion, the prologue, and the frame every command runs in; the search pass over given levels. -/

namespace Sys2Proof.Machine

/-- The whole of what is known of a command's body run from `s`: it ends as `EndsAs` says with BUF as in `u`, or a hardware reset or
a look that was to come has ended it. -/
def Ran.Ends (s : State) (tr : List Expect) (u : State) (r : Ran Unit) : Prop :=
  match r with
  | .ok _ t => EndsAs s tr u t ∧ t.buf = u.buf
  | .cut t => CutFrom s t
  | .stopped t => StoppedFrom s t

/-- Two states with the same registers, OVR and the model's own fields aside. -/
abbrev RegsEq (u u' : State) : Prop := u' = { u with flags := { u.flags with ovr := u'.flags.ovr }, env := u'.env }

theorem EndsAs.after {s t u w : State} {tr tr' : List Expect} (h : During s tr t) (h' : EndsAs t tr' u w) :
    EndsAs s (tr ++ tr') u w :=
  { h' with
    took := by
      obtain ⟨l, h1, h2⟩ := h.took
      obtain ⟨l', h1', h2'⟩ := h'.took
      exact ⟨l ++ l', by rw [h1, h1', List.append_assoc], h2.trans h.seen h2'⟩
    line := by rw [h'.line, h.line, List.drop_drop, samplesIn_append]
    samples := by rw [h'.samples, h.samples, samplesIn_append, Nat.add_assoc]
    resets := h'.resets.trans h.resets
    trace := by
      obtain ⟨es, h1, h2⟩ := h.trace
      obtain ⟨es', h1', h2'⟩ := h'.trace
      exact ⟨es ++ es', by rw [h1', h1, List.append_assoc], List.rel_append h2 h2'⟩ }

theorem Ran.Ends.after {s t u : State} {tr tr' : List Expect} {r : Ran Unit} (h : During s tr t) (h' : r.Ends t tr' u) :
    r.Ends s (tr ++ tr') u := by
  cases r with
  | ok _ w => exact ⟨h'.1.after h, h'.2⟩
  | cut w => exact h'.of_during h
  | stopped w => exact h'.of_during h

/-- A register written before the rest of a body does not matter to what `Ends` says of inputs and records. -/
theorem Ran.Ends.of_written {s s' u : State} {tr : List Expect} {r : Ran Unit} (h : r.Ends s' tr u) (hs : SameSeen s s')
    (he : s'.env = s.env) (ho : s'.flags.ovr = s.flags.ovr) : r.Ends s tr u := by
  cases r with
  | ok _ w =>
    obtain ⟨h, hb⟩ := h
    refine ⟨{ h with
      took := ?_, line := he ▸ h.line, samples := he ▸ h.samples, resets := h.resets.trans (by rw [he]), trace := he ▸ h.trace }, hb⟩
    obtain ⟨l, h1, h2⟩ := h.took
    exact ⟨l, he ▸ h1, h2.congr hs he ho⟩
  | cut w => exact CutFrom.congr hs he ho h
  | stopped w => exact StoppedFrom.congr hs he ho h

theorem Ran.Ends.of_regs {s u u' : State} {tr : List Expect} {r : Ran Unit} (h : r.Ends s tr u) (hu : RegsEq u u') :
    r.Ends s tr u' := by
  cases r with
  | ok _ w =>
    obtain ⟨h, hb⟩ := h
    refine ⟨{ h with
      cfg := ?_, ctrl := ?_, cmd := ?_, done := ?_, present := ?_, found := ?_, result := ?_, data := ?_, acc := ?_, rom := ?_
      cursor := ?_, seq := ?_, pos := ?_, tmp := ?_, pin := ?_ }, ?_⟩
    all_goals rw [hu]
    exacts [h.cfg, h.ctrl, h.cmd, h.done, h.present, h.found, h.result, h.data, h.acc, h.rom, h.cursor, h.seq, h.pos, h.tmp, h.pin, hb]
  | cut w => exact h
  | stopped w => exact h

/-- A piece, then the rest of the body. -/
theorem Ran.Yields.andThen_ends {α : Type} {s u : State} {tr tr' : List Expect} {a : α} {r : Ran α} {f : α → State → Ran Unit}
    (h : r.Yields s tr a) (h' : ∀ t, During s tr t → (f a t).Ends t tr' u) : (r.andThen f).Ends s (tr ++ tr') u := by
  cases r with
  | ok b t =>
    obtain ⟨rfl, ht⟩ := h
    exact (h' t ht).after ht
  | cut t => exact h
  | stopped t => exact h

/-- R93: the last point, then `complete(code)`. -/
theorem finish_ends (code : ResultCode) (s : State) : (finish code s).Ends s [] (s.complete code) := by
  have hp := Ran.Yields.of_hidden (s := s) (point_yields (s.stand (.last code)))
  refine hp.andThen_ends (tr' := []) fun t ht => ⟨?_, ht.buf⟩
  constructor
  all_goals first
    | exact ht.cfg
    | exact ht.ctrl
    | exact ht.cmd
    | exact ht.present
    | exact ht.found
    | exact ht.data
    | exact ht.acc
    | exact ht.rom
    | exact ht.cursor
    | rfl
    | exact ⟨[], rfl, .none t⟩
    | simp

theorem prologue_during {i : Instr} {s t : State} {tr : List Expect} (h : During s tr t) : prologue i t = prologue i s := by
  simp [prologue, h.ctrl, h.cfg]

/-- The frame of every command (R243) when no check fails: what the body does from the first point on. -/
theorem command_ends {i : Instr} {body : State → Ran Unit} {s u : State} {tr : List Expect} (hp : prologue i s = none)
    (hb : ∀ t, During s [] t → (body t).Ends t tr u) : ∃ r : Ran Unit, command i body s = r.outcome ∧ r.Ends s tr u := by
  have h := Ran.Yields.of_hidden (s := s) (point_yields (s.stand .checks))
  refine ⟨_, rfl, h.andThen_ends (tr' := tr) fun t ht => ?_⟩
  rw [prologue_during ht, hp]
  exact hb t ht

/-- The frame of every command (R243) when a check fails. -/
theorem command_checked {i : Instr} {body : State → Ran Unit} {s : State} {code : ResultCode} (hp : prologue i s = some code) :
    ∃ r : Ran Unit, command i body s = r.outcome ∧ r.Ends s [] (s.complete code) := by
  have h := Ran.Yields.of_hidden (s := s) (point_yields (s.stand .checks))
  refine ⟨_, rfl, h.andThen_ends (tr' := []) fun t ht => ?_⟩
  rw [prologue_during ht, hp]
  exact (finish_ends code t).of_regs (by rw [ht.regs]; rfl)

/-- With no reset and no look to come, a body that `Ends` is a next state. -/
theorem Ran.Ends.next {s u : State} {tr : List Expect} {r : Ran Unit} (h : r.Ends s tr u) (hs : s.unbroken) :
    ∃ t, r.outcome = .next t ∧ EndsAs s tr u t ∧ t.buf = u.buf := by
  cases r with
  | ok _ t => exact ⟨t, rfl, h⟩
  | cut t => exact absurd hs.1 (CutFrom.reset_to_come h)
  | stopped t => exact absurd hs.2 (StoppedFrom.look_to_come h)

/-! ## The search pass -/

theorem choose_eq_none {a c : Bool} {k : Nat} {p : Pass} : choose a c k p = none ↔ a = true ∧ c = true := by
  cases a <;> cases c <;> simp [choose]
  split <;> simp

/-- A write of the cursor that a pass walks touches nothing that an access sees exactly. -/
theorem SameSeen.walk (s : State) (w : Walked) (c : Cursor) : SameSeen (s.walk w c) s := by
  cases w <;> exact ⟨rfl, rfl, rfl, rfl, rfl, rfl⟩

theorem During.walk {s t : State} {tr : List Expect} (h : During s tr t) (w : Walked) (c : Cursor) :
    During (s.walk w c) tr (t.walk w c) := by
  cases w <;> exact h.congr ⟨rfl, rfl, rfl, rfl, rfl, rfl⟩ rfl rfl rfl rfl (by conv_lhs => rw [h.regs]
                                                                               rfl)

/-- A piece, then the rest of a pass that leaves the cursor `c`. -/
theorem Ran.Yields.andThen_walk {α β : Type} {s : State} {tr tr' : List Expect} {a : α} {b : β} {r : Ran α} {f : α → State → Ran β}
    {w : Walked} {c : Cursor} (h : r.Yields s tr a) (h' : ∀ t, During s tr t → (f a t).Yields (t.walk w c) tr' b) :
    (r.andThen f).Yields (s.walk w c) (tr ++ tr') b := by
  cases r with
  | ok x t =>
    obtain ⟨rfl, ht⟩ := h
    exact (h' t ht).after (ht.walk w c)
  | cut t => exact CutFrom.congr (SameSeen.walk s w c) (by simp) (by simp) h
  | stopped t => exact StoppedFrom.congr (SameSeen.walk s w c) (by simp) (by simp) h

/-- The cursor is already as the pass leaves it. -/
theorem Ran.Yields.pure_walk {α : Type} {s : State} {w : Walked} {c : Cursor} (a : α) (h : w = .registers → s.cursor = c) :
    (Ran.ok a s).Yields (s.walk w c) [] a := by
  cases w with
  | registers =>
    rw [← h rfl]
    exact .pure _ _
  | own => exact ⟨rfl, .of_hidden _ _ _ _⟩

/-- The bit loop of R202 from position `k` on, where the pair of position `k` is the next to come and the state holds the pass. -/
theorem searchBits_yields (w : Walked) (n k : Nat) (p : Pass) (s : State) (lv : Nat → Bool)
    (hlv : ∀ i, lv (2 * k + i) = s.upcoming i) (hs : w = .registers → s.cursor = p.cursor) :
    (searchBits w n k p s).Yields (s.walk w (walkBits s.cfg.timing lv n k p).2.1.cursor) (walkBits s.cfg.timing lv n k p).2.2
      ((walkBits s.cfg.timing lv n k p).1, (walkBits s.cfg.timing lv n k p).2.1) := by
  induction n generalizing k p s with
  | zero => exact .pure_walk _ hs
  | succ n ih =>
    have h0 : lv (2 * k) = s.upcoming 0 := hlv 0
    have h1 : lv (2 * k + 1) = s.upcoming 1 := hlv 1
    have ha : (readBit (s.atPair k none)).Yields s (readBitTrace s.cfg.timing (s.upcoming 0)) (s.upcoming 0) :=
      Ran.Yields.of_hidden (readBit_yields (s.atPair k none))
    have hc : ∀ t, During s (readBitTrace s.cfg.timing (s.upcoming 0)) t →
        (readBit (t.atPair k (some (s.upcoming 0)))).Yields t (readBitTrace s.cfg.timing (s.upcoming 1)) (s.upcoming 1) := fun t ht => by
      have := Ran.Yields.of_hidden (s := t) (readBit_yields (t.atPair k (some (s.upcoming 0))))
      have e : (t.atPair k (some (s.upcoming 0))).upcoming 0 = s.upcoming 1 := ht.upcoming 0
      rwa [State.atPair_cfg, ht.cfg, e] at this
    unfold searchBits walkBits
    simp only [h0, h1]
    cases hch : choose (s.upcoming 0) (s.upcoming 1) k p with
    | none =>
      refine ha.andThen_walk fun t ht => ?_
      refine ((hc t ht).andThen_walk (tr' := []) fun u hu => ?_).congr (List.append_nil _) rfl
      unfold searchTurn
      rw [hch]
      exact .pure_walk _ fun hw => by rw [hu.cursor, ht.cursor, hs hw]
    | some x =>
      obtain ⟨dir, p'⟩ := x
      simp only [List.append_assoc]
      refine ha.andThen_walk fun t ht => ?_
      refine (hc t ht).andThen_walk fun u hu => ?_
      unfold searchTurn
      rw [hch]
      have hu2 := ht.trans hu
      have hw := Ran.Yields.of_hidden (s := u.withPass w p') (writeBit_yields dir ((u.withPass w p').atPair k none))
      rw [State.atPair_cfg, State.withPass_cfg, hu2.cfg] at hw
      refine Ran.Yields.of_hidden (s' := (u.withPass w p').walk w (walkBits s.cfg.timing lv n (k + 1) (p'.turn k dir)).2.1.cursor)
        (hw.andThen_walk fun v hv => ?_) (by cases w <;> rfl)
      have hup : ∀ i, v.upcoming i = s.upcoming (2 + i) := fun i => by
        rw [hv.upcoming]
        show (u.withPass w p').upcoming _ = _
        have : ∀ i, (u.withPass w p').upcoming i = u.upcoming i := fun i => by cases w <;> rfl
        rw [this, hu2.upcoming]
        congr 1
        simp only [samplesIn_append, samplesIn_readBitTrace, samplesIn_writeBitTrace]
        omega
      have := ih (k + 1) (p'.turn k dir) (v.withPass w (p'.turn k dir)) (fun i => by
        have : (v.withPass w (p'.turn k dir)).upcoming i = v.upcoming i := by cases w <;> rfl
        rw [this, hup, ← hlv]
        congr 1
        omega) fun hw => by simp [hw]
      rw [State.withPass_cfg, hv.cfg, State.withPass_cfg, hu2.cfg] at this
      exact this.of_hidden (by cases w <;> rfl)

theorem samplesIn_walkBits_le (tm : Timing) (lv : Nat → Bool) (n k : Nat) (p : Pass) :
    samplesIn (walkBits tm lv n k p).2.2 ≤ 2 * n := by
  induction n generalizing k p with
  | zero => simp [walkBits]
  | succ n ih =>
    unfold walkBits
    dsimp only
    split
    · simp
    · next dir p' _ =>
      have := ih (k + 1) (p'.turn k dir)
      simp
      omega

/-- R202: the pass, with PRESENT as its reset leaves it, and the cursor it walks as the pass leaves it. -/
theorem searchStep_yields (w : Walked) (c : Cursor) (s : State) (hs : w = .registers → s.cursor = c) :
    (searchStep w c s).Yields
      ((s.setPresent (presentAfterPass s.upcoming c s.flags.present)).walk w (walkPass s.cfg s.upcoming c).1.2)
      (walkPass s.cfg s.upcoming c).2 (walkPass s.cfg s.upcoming c).1 := by
  unfold searchStep walkPass presentAfterPass
  by_cases he : c.exh
  · simp only [he, if_true]
    exact .pure _ _
  · simp only [he, if_false, Bool.false_eq_true]
    have hr := resetPresence_yields s
    by_cases hp : (!s.upcoming 0 && s.upcoming 1) = true
    · rw [hp] at hr ⊢
      simp only [Bool.not_true, if_false, Bool.false_eq_true]
      rw [List.append_assoc]
      refine hr.andThen_walk fun t ht => ?_
      unfold passAfterReset
      simp only [Bool.not_true, if_false, Bool.false_eq_true]
      have hw := writeByte_yields t.cfg.cmdSearchRom t
      rw [ht.cfg] at hw ⊢
      refine (hw.congr (tr' := writeBytesTrace s.cfg.timing [s.cfg.cmdSearchRom]) ?_ rfl).andThen_walk fun u hu => ?_
      · simp [writeBytesTrace]
      have hu2 := ht.trans hu
      have hb := searchBits_yields w 64 1 { cursor := c, lastZero := 0 } (u.withLastZero 0) s.upcoming (fun i => by
        show _ = u.upcoming i
        rw [hu2.upcoming]
        simp [State.upcoming]) fun hw => by
          rw [State.withLastZero_cursor, hu2.cursor]
          exact hs hw
      rw [State.withLastZero_cfg, hu2.cfg, State.setPresent_cfg] at hb
      generalize walkBits s.cfg.timing s.upcoming 64 1 { cursor := c, lastZero := 0 } = wk at hb ⊢
      have he := hb.andThen_walk (tr' := []) (w := w) (f := passEnd w)
        (c := (if wk.1 then searchEnd s.cfg.zeroTest wk.2.1 else searchFail wk.2.1.cursor .notPresent).2)
        (b := if wk.1 then searchEnd s.cfg.zeroTest wk.2.1 else searchFail wk.2.1.cursor .notPresent) fun v hv => by
          unfold passEnd
          rw [hv.cfg, State.walk_cfg, State.withLastZero_cfg, hu2.cfg, State.setPresent_cfg]
          exact .pure _ _
      exact (he.of_hidden (by cases w <;> rfl)).congr (List.append_nil _) rfl
    · simp only [Bool.not_eq_true] at hp
      rw [hp] at hr ⊢
      simp only [Bool.not_false, if_true]
      refine (hr.andThen_walk (tr' := []) fun t _ => ?_).congr (List.append_nil _) rfl
      exact .pure _ _

end Sys2Proof.Machine
end

