-- ==== Sys2Proof/Laws/Resume.lean ====
section
/-! SUPPORT. What a step of a running command can do, from its start and from any place it goes on from: `exec_leaves`,
`restOf_leaves` and `restOfIllegal_leaves`, and what they rest on, piece by piece. -/

namespace Sys2Proof.Machine

/-! ## What every piece of a running command keeps -/

/-- From `s` to `t` a piece of a running command has kept what an access can see, OVR aside, the hardware resets and the form of BUF;
accesses that were due have landed in order. -/
structure Kept (s t : State) : Prop where
  seen : SameSeen s t
  took : ∃ l, s.env.host = l ++ t.env.host ∧ Took s l t.flags.ovr t
  resets : t.env.resets = s.env.resets
  bufWf : s.bufWf → t.bufWf

/-- A piece of a running command keeps what every piece keeps, in a state of `Q` if it comes to its end, in one of `P` if a look
stops it. -/
def Ran.Keeps {α : Type} (s : State) (Q P : State → Prop) (r : Ran α) : Prop :=
  match r with
  | .ok _ t => Kept s t ∧ Q t
  | .cut t => CutFrom s t
  | .stopped t => StoppedFrom s t ∧ (s.bufWf → t.bufWf) ∧ P t

theorem Kept.refl (s : State) : Kept s s := ⟨.refl s, ⟨[], rfl, .none s⟩, rfl, id⟩

theorem Kept.trans {s t u : State} (h : Kept s t) (h' : Kept t u) : Kept s u where
  seen := h.seen.trans h'.seen
  took := by
    obtain ⟨l, h1, h2⟩ := h.took
    obtain ⟨l', h1', h2'⟩ := h'.took
    exact ⟨l ++ l', by rw [h1, h1', List.append_assoc], h2.trans h.seen h2'⟩
  resets := h'.resets.trans h.resets
  bufWf := h'.bufWf ∘ h.bufWf

theorem Kept.of_during {s t : State} {tr : List Expect} (h : During s tr t) : Kept s t :=
  ⟨h.seen, h.took, h.resets, by simp [State.bufWf, h.buf, h.cfg]⟩

/-- A register that no access sees exactly while a command runs is written. -/
theorem Kept.written {s t : State} (hs : SameSeen s t) (he : t.env = s.env) (ho : t.flags.ovr = s.flags.ovr)
    (hb : s.bufWf → t.bufWf) : Kept s t :=
  ⟨hs, ⟨[], by simp [he], [], by rw [he, ho]; exact .none _ _, by simp [he]⟩, by rw [he], hb⟩

theorem CutFrom.of_kept {s t u : State} (h : Kept s t) (h' : CutFrom t u) : CutFrom s u where
  regs := by rw [h'.regs, h.seen.cfg]
  took := by
    obtain ⟨l, h1, h2⟩ := h.took
    obtain ⟨l', a, o, h1', h2'⟩ := h'.took
    exact ⟨l ++ l', a, o, by rw [h1, h1', List.append_assoc], h2.trans h.seen h2'⟩
  resets := by rw [h'.resets, h.resets]

theorem StoppedFrom.of_kept {s t u : State} (h : Kept s t) (h' : StoppedFrom t u) : StoppedFrom s u where
  cfg := h'.cfg.trans h.seen.cfg
  ctrl := h'.ctrl.trans h.seen.ctrl
  cmd := h'.cmd.trans h.seen.cmd
  seq := h'.seq.trans h.seen.seq
  done := h'.done.trans h.seen.done
  result := h'.result.trans h.seen.result
  took := by
    obtain ⟨l, h1, h2⟩ := h.took
    obtain ⟨l', a, n, h1', h2'⟩ := h'.took
    exact ⟨l ++ l', a, n, by rw [h1, h1', List.append_assoc], h2.trans h.seen h2'⟩
  resets := h'.resets.trans h.resets

section keeps
variable {α β : Type} {s t : State} {Q Q' P P' : State → Prop} {r : Ran α}

theorem Ran.Keeps.mono (h : r.Keeps s Q P) (hq : ∀ u, Q u → Q' u) (hp : ∀ u, P u → P' u) : r.Keeps s Q' P' := by
  cases r with
  | ok _ u => exact ⟨h.1, hq _ h.2⟩
  | cut u => exact h
  | stopped u => exact ⟨h.1, h.2.1, hp _ h.2.2⟩

theorem Ran.Keeps.after (h : Kept s t) (h' : r.Keeps t Q P) : r.Keeps s Q P := by
  cases r with
  | ok _ u => exact ⟨h.trans h'.1, h'.2⟩
  | cut u => exact CutFrom.of_kept h h'
  | stopped u => exact ⟨h'.1.of_kept h, h'.2.1 ∘ h.bufWf, h'.2.2⟩

theorem Ran.Keeps.andThen {f : α → State → Ran β} (h : r.Keeps s Q P) (h' : ∀ a t, Kept s t → Q t → (f a t).Keeps t Q' P) :
    (r.andThen f).Keeps s Q' P := by
  cases r with
  | ok a t => exact (h' a t h.1 h.2).after h.1
  | cut t => exact h
  | stopped t => exact h

theorem Ran.Keeps.ok (a : α) (h : Q s) : (Ran.ok a s).Keeps s Q P := ⟨.refl s, h⟩

end keeps

/-- The pin, the position and the temporaries are no part of what is kept. -/
theorem Ran.Keeps.of_hidden {α : Type} {s s' : State} {Q P : State → Prop} {r : Ran α} (h : r.Keeps s' Q P)
    (hs : s' = { s with pin := s'.pin, pos := s'.pos, tmp := s'.tmp } := by rfl) : r.Keeps s Q P := by
  refine Ran.Keeps.after ?_ h
  rw [hs]
  exact .of_during (.of_hidden s _ _ _)

/-! ## Points and phases -/

/-- The pin, the place and the temporaries are as in `s`. -/
def AsIn (s t : State) : Prop := t.tmp = s.tmp ∧ t.pin = s.pin ∧ t.pos.place = s.pos.place

theorem busyRead_asIn (off : Nat) (s : State) : AsIn s (busyRead off s) ∧ (busyRead off s).buf = s.buf := by
  rw [busyRead_eq]
  split <;> exact ⟨⟨rfl, rfl, rfl⟩, rfl⟩

theorem arrivals_keeps (l : List HostReq) (s : State) : (arrivals l s).Keeps (s.setHost l) (AsIn s) (AsIn s) := by
  induction l generalizing s with
  | nil => exact .ok _ ⟨rfl, rfl, rfl⟩
  | cons r rest ih =>
    obtain ⟨a, op⟩ := r
    have hm : ∀ u, AsIn s u → (arrivals rest u).Keeps (u.setHost rest) (AsIn s) (AsIn s) := fun u hu =>
      have h : ∀ w, AsIn u w → AsIn s w := fun w hw => ⟨hw.1.trans hu.1, hw.2.1.trans hu.2.1, hw.2.2.trans hu.2.2⟩
      (ih u).mono h h
    unfold arrivals
    split
    · cases op with
      | read off size => exact (hm _ (busyRead_asIn off s).1).after (.of_during (landedRead_during a off size rest s))
      | write off size v =>
        exact (hm _ (by rw [busyWrite_eq]; exact ⟨rfl, rfl, rfl⟩)).after (.of_during (landedWrite_during a off size v rest s))
      | poll last => exact (hm _ (busyRead_asIn _ s).1).after (.of_during (landedPoll_during a last rest s))
      | reset => exact ⟨rfl, ⟨[], a, _, rfl, [], .none _ _, by simp⟩, rfl⟩
      | look n =>
        exact ⟨⟨rfl, rfl, rfl, rfl, rfl, rfl, ⟨[], a, n, rfl, [], .none _ _, by simp⟩, rfl⟩, id, rfl, rfl, rfl⟩
    · exact .ok _ ⟨rfl, rfl, rfl⟩

theorem here_keeps (s : State) : (here s).Keeps s (AsIn s) (AsIn s) := arrivals_keeps s.env.host s

theorem point_keeps (s : State) : (point s).Keeps s (AsIn s) (AsIn s) :=
  Ran.Keeps.of_hidden (here_keeps { s with pos := { s.pos with points := s.pos.points + 1 } })

theorem Ran.Keeps.held {s : State} {Q P : State → Prop} {r : Ran Unit} (h : r.Keeps s Q P) (p : Pin) (d : Nat)
    (hq : ∀ u, Q u → Q (u.held p d)) : (r.held p d).Keeps s Q P := by
  cases r with
  | ok _ u => exact ⟨h.1.trans (.of_during (held_during p 0 d (Nat.zero_le d) u)), hq u h.2⟩
  | stopped u => exact h
  | cut u =>
    obtain ⟨h1, h2, h3⟩ := h
    refine ⟨?_, h2, h3⟩
    conv_lhs => rw [h1]
    rfl

/-- What lands where a command goes on. -/
theorem resume_keeps (p : Pin) (s : State) :
    (resume p s).Keeps s (AsIn { s with pin := p }) (AsIn { s with pin := p }) :=
  Ran.Keeps.of_hidden (here_keeps { s with pin := p })

/-- One phase: its pin, its place, and the temporaries as before. -/
def In (s : State) (pl : Place) (p : Pin) (t : State) : Prop := t.tmp = s.tmp ∧ t.pin = p ∧ t.pos.place = pl

theorem phase_keeps (pl : Place) (p : Pin) (t : Nat) (s : State) : (phase pl p t s).Keeps s (In s pl p) (In s pl p) :=
  Ran.Keeps.of_hidden (((point_keeps (s.enter pl p t)).held p (s.phaseLength t) fun _ h => h).mono (fun _ h => h) fun _ h => h)

/-- The rest of a phase. -/
theorem restOfTicks_keeps (p : Pin) (s : State) : (restOfTicks p s).Keeps s (In s s.pos.place p) (In s s.pos.place p) :=
  ((resume_keeps p s).held p _ fun _ h => h).mono (fun _ h => h) fun _ h => h

/-! ## The procedures of the bus physical layer -/

/-- The temporaries are as in `s`. -/
def Free (s t : State) : Prop := t.tmp = s.tmp

/-- A command stands in a bus reset, with the pin as its place has it and the temporaries as in `s`. -/
def InReset (s t : State) : Prop := (∃ r, restOfSlot t = .reset r) ∧ t.pin = t.pos.place.pin ∧ t.tmp = s.tmp

/-- A command stands in a write slot. -/
def InWrite (s t : State) : Prop := (∃ r, restOfSlot t = .write r) ∧ t.pin = t.pos.place.pin ∧ t.tmp = s.tmp

/-- A command stands in a read slot. -/
def InRead (s t : State) : Prop := (∃ r, restOfSlot t = .read r) ∧ t.pin = t.pos.place.pin ∧ t.tmp = s.tmp

/-- A place says which procedure it is in. -/
theorem In.inReset {s t : State} {pl : Place} {p : Pin} (h : In s pl p t) (hp : p = pl.pin)
    (hr : ∀ u, u.pos.place = pl → ∃ r, restOfSlot u = .reset r) : InReset s t :=
  ⟨hr t h.2.2, by rw [h.2.1, h.2.2, hp], h.1⟩

theorem In.inWrite {s t : State} {pl : Place} {p : Pin} (h : In s pl p t) (hp : p = pl.pin)
    (hr : ∀ u, u.pos.place = pl → ∃ r, restOfSlot u = .write r) : InWrite s t :=
  ⟨hr t h.2.2, by rw [h.2.1, h.2.2, hp], h.1⟩

theorem In.inRead {s t : State} {pl : Place} {p : Pin} (h : In s pl p t) (hp : p = pl.pin)
    (hr : ∀ u, u.pos.place = pl → ∃ r, restOfSlot u = .read r) : InRead s t :=
  ⟨hr t h.2.2, by rw [h.2.1, h.2.2, hp], h.1⟩

theorem In.free {s t : State} {pl : Place} (h : In s pl .released t) : Free s t := h.1

theorem InReset.of_tmp {s t u : State} (hs : t.tmp = s.tmp) (h : InReset t u) : InReset s u := ⟨h.1, h.2.1, h.2.2.trans hs⟩
theorem InWrite.of_tmp {s t u : State} (hs : t.tmp = s.tmp) (h : InWrite t u) : InWrite s u := ⟨h.1, h.2.1, h.2.2.trans hs⟩
theorem InRead.of_tmp {s t u : State} (hs : t.tmp = s.tmp) (h : InRead t u) : InRead s u := ⟨h.1, h.2.1, h.2.2.trans hs⟩
theorem Free.of_tmp {s t u : State} (hs : t.tmp = s.tmp) (h : Free t u) : Free s u := h.trans hs

/-- A phase of a write slot. -/
theorem phase_keeps_write (pl : Place) (p : Pin) (t : Nat) (s : State) (hp : p = pl.pin)
    (hr : ∀ u : State, u.pos.place = pl → ∃ r, restOfSlot u = .write r) : (phase pl p t s).Keeps s (In s pl p) (InWrite s) :=
  (phase_keeps pl p t s).mono (fun _ h => h) fun _ h => h.inWrite hp hr

theorem phase_keeps_read (pl : Place) (p : Pin) (t : Nat) (s : State) (hp : p = pl.pin)
    (hr : ∀ u : State, u.pos.place = pl → ∃ r, restOfSlot u = .read r) : (phase pl p t s).Keeps s (In s pl p) (InRead s) :=
  (phase_keeps pl p t s).mono (fun _ h => h) fun _ h => h.inRead hp hr

theorem phase_keeps_reset (pl : Place) (p : Pin) (t : Nat) (s : State) (hp : p = pl.pin)
    (hr : ∀ u : State, u.pos.place = pl → ∃ r, restOfSlot u = .reset r) : (phase pl p t s).Keeps s (In s pl p) (InReset s) :=
  (phase_keeps pl p t s).mono (fun _ h => h) fun _ h => h.inReset hp hr

theorem writeAfterLow_keeps (b : Bool) (s : State) : (writeAfterLow b s).Keeps s (Free s) (InWrite s) :=
  (phase_keeps_write (.writeRel b) .released _ s rfl fun u h => by simp [restOfSlot, h]).mono (fun _ h => h.free) fun _ h => h

theorem writeBit_keeps (b : Bool) (s : State) : (writeBit b s).Keeps s (Free s) (InWrite s) :=
  (phase_keeps_write (.writeLow b) .low _ s rfl fun u h => by simp [restOfSlot, h]).andThen fun _ t _ ht =>
    (writeAfterLow_keeps b t).mono (fun _ => .of_tmp ht.1) fun _ => .of_tmp ht.1

theorem sample_keeps {P : State → Prop} (s : State) : (sample s).Keeps s (AsIn s) P :=
  ⟨.of_during (sample_yields s).2, rfl, rfl, rfl⟩

theorem readAfterRel_keeps (s : State) : (readAfterRel s).Keeps s (Free s) (InRead s) :=
  (sample_keeps s).andThen fun v t _ ht =>
    ((phase_keeps_read (.readEnd v) .released _ t rfl fun u h => by simp [restOfSlot, h]).andThen fun _ u _ hu =>
      Ran.Keeps.ok (Q := Free t) _ hu.free).mono (fun _ => .of_tmp ht.1) fun _ => .of_tmp ht.1

theorem readAfterLow_keeps (s : State) : (readAfterLow s).Keeps s (Free s) (InRead s) :=
  (phase_keeps_read .readRel .released _ s rfl fun u h => by simp [restOfSlot, h]).andThen fun _ t _ ht =>
    (readAfterRel_keeps t).mono (fun _ => .of_tmp ht.1) fun _ => .of_tmp ht.1

theorem readBit_keeps (s : State) : (readBit s).Keeps s (Free s) (InRead s) :=
  (phase_keeps_read .readLow .low _ s rfl fun u h => by simp [restOfSlot, h]).andThen fun _ t _ ht =>
    (readAfterLow_keeps t).mono (fun _ => .of_tmp ht.1) fun _ => .of_tmp ht.1

theorem resetAfterJ_keeps (s1 : Bool) (s : State) : (resetAfterJ s1 s).Keeps s (Free s) (InReset s) :=
  (sample_keeps s).andThen fun _ _ _ ht => .ok _ ht.1

theorem resetAfterI_keeps (s : State) : (resetAfterI s).Keeps s (Free s) (InReset s) :=
  (sample_keeps s).andThen fun v t _ ht =>
    ((phase_keeps_reset (.resetJ v) .released _ t rfl fun u h => by simp [restOfSlot, h]).andThen fun _ u _ hu =>
      (resetAfterJ_keeps v u).mono (fun _ => .of_tmp hu.1) fun _ => .of_tmp hu.1).mono (fun _ => .of_tmp ht.1)
        fun _ => .of_tmp ht.1

theorem resetAfterH_keeps (s : State) : (resetAfterH s).Keeps s (Free s) (InReset s) :=
  (phase_keeps_reset .resetI .released _ s rfl fun u h => by simp [restOfSlot, h]).andThen fun _ t _ ht =>
    (resetAfterI_keeps t).mono (fun _ => .of_tmp ht.1) fun _ => .of_tmp ht.1

theorem resetAfterG_keeps (s : State) : (resetAfterG s).Keeps s (Free s) (InReset s) :=
  (phase_keeps_reset .resetH .low _ s rfl fun u h => by simp [restOfSlot, h]).andThen fun _ t _ ht =>
    (resetAfterH_keeps t).mono (fun _ => .of_tmp ht.1) fun _ => .of_tmp ht.1

theorem resetSeq_keeps (s : State) : (resetSeq s).Keeps s (Free s) (InReset s) :=
  (phase_keeps_reset .resetG .released _ s rfl fun u h => by simp [restOfSlot, h]).andThen fun _ t _ ht =>
    (resetAfterG_keeps t).mono (fun _ => .of_tmp ht.1) fun _ => .of_tmp ht.1

theorem presence_keeps (p : Bool) (s : State) : (presence p s).Keeps s (Free s) (InReset s) := by
  refine Ran.Keeps.after (t := (s.setPresent p).stand .present)
    (.written ⟨rfl, rfl, rfl, rfl, rfl, rfl⟩ rfl rfl id) (Ran.Keeps.andThen (Q := Free s) ?_ fun _ t _ ht => .ok _ ht)
  refine (point_keeps _).mono (fun u hu => hu.1) fun u hu => ⟨?_, ?_, hu.1⟩
  · have : u.pos.place = .present := hu.2.2
    simp [restOfSlot, this]
  · have : u.pos.place = .present := hu.2.2
    rw [this]
    exact hu.2.1

theorem resetPresence_keeps (s : State) : (resetPresence s).Keeps s (Free s) (InReset s) :=
  (resetSeq_keeps s).andThen fun p t _ ht => (presence_keeps p t).mono (fun _ => .of_tmp ht) fun _ => .of_tmp ht

/-! ## Bits, bytes, blocks -/

/-- Nothing is said. -/
def Any (_ : State) : Prop := True

/-- A command stands in a phase of a bus reset. -/
def Resetting (t : State) : Prop := (∃ r, restOfSlot t = .reset r) ∧ t.pin = t.pos.place.pin

/-- A command stands in a phase of a write slot. -/
def Writing (t : State) : Prop := (∃ r, restOfSlot t = .write r) ∧ t.pin = t.pos.place.pin

/-- A command stands in a phase of a read slot. -/
def Reading (t : State) : Prop := (∃ r, restOfSlot t = .read r) ∧ t.pin = t.pos.place.pin

theorem InReset.resetting {s t : State} (h : InReset s t) : Resetting t := ⟨h.1, h.2.1⟩
theorem InWrite.writing {s t : State} (h : InWrite s t) : Writing t := ⟨h.1, h.2.1⟩
theorem InRead.reading {s t : State} (h : InRead s t) : Reading t := ⟨h.1, h.2.1⟩

theorem writeBits_keeps (i : Nat) (bs : List Bool) (s : State) : (writeBits i bs s).Keeps s Any Writing := by
  induction bs generalizing i s with
  | nil => exact .ok _ trivial
  | cons b bs ih =>
    refine Ran.Keeps.of_hidden (s' := s.atBit i) (Ran.Keeps.andThen (Q := Any) ?_ fun _ t _ ht => ih (i + 1) t)
    exact (writeBit_keeps b _).mono (fun _ _ => trivial) fun _ => InWrite.writing

theorem writeByte_keeps (v : Byte) (s : State) : (writeByte v s).Keeps s Any Writing :=
  writeBits_keeps 0 _ s

theorem writeBytes_keeps (j : Nat) (vs : List Byte) (s : State) : (writeBytes j vs s).Keeps s Any Writing := by
  induction vs generalizing j s with
  | nil => exact .ok _ trivial
  | cons v vs ih =>
    exact Ran.Keeps.of_hidden (s' := s.atByte j) ((writeByte_keeps v (s.atByte j)).andThen fun _ t _ ht => ih (j + 1) t)

theorem writeBuf_keeps (n j : Nat) (s : State) : (writeBuf n j s).Keeps s Any Writing := by
  induction n generalizing j s with
  | zero => exact .ok _ trivial
  | succ n ih =>
    exact Ran.Keeps.of_hidden (s' := s.atByte j) ((writeByte_keeps _ (s.atByte j)).andThen fun _ t _ ht => ih (j + 1) t)

theorem readBits_keeps (n : Nat) (bs : List Bool) (s : State) : (readBits n bs s).Keeps s Any Reading := by
  induction n generalizing bs s with
  | zero => exact .ok _ trivial
  | succ n ih =>
    refine Ran.Keeps.of_hidden (s' := s.withBits bs) (Ran.Keeps.andThen (Q := Any) ?_ fun _ t _ ht => ih _ t)
    exact (readBit_keeps _).mono (fun _ _ => trivial) fun _ => InRead.reading

theorem readByte_keeps (s : State) : (readByte s).Keeps s Any Reading :=
  (readBits_keeps 8 [] s).andThen fun _ _ _ _ => .ok _ trivial

theorem readBytes_keeps (n : Nat) (vs : List Byte) (s : State) : (readBytes n vs s).Keeps s Any Reading := by
  induction n generalizing vs s with
  | zero => exact .ok _ trivial
  | succ n ih =>
    exact Ran.Keeps.of_hidden (s' := s.withRbuf vs) ((readByte_keeps (s.withRbuf vs)).andThen fun _ t _ ht => ih _ t)

theorem Kept.setBufByte (s : State) (i : Nat) (v : Byte) : Kept s (s.setBufByte i v) :=
  .written (.setBufByte s i v) (by simp) (by simp) (State.setBufByte_bufWf s i v)

theorem readBuf_keeps (n j : Nat) (s : State) : (readBuf n j s).Keeps s Any Reading := by
  induction n generalizing j s with
  | zero => exact .ok _ trivial
  | succ n ih =>
    exact Ran.Keeps.of_hidden (s' := s.atByte j) ((readByte_keeps (s.atByte j)).andThen fun v t _ ht =>
      (ih (j + 1) (t.setBufByte j v)).after (.setBufByte t j v))

/-! ## The search pass -/

/-- A pass is at its positions. -/
def Passing (t : State) : Prop := ∃ n, t.tmp.lastZero = some n

/-- A search stands in its reset, in a write slot, or in a read slot with a pass in hand. -/
def Searching (t : State) : Prop :=
  t.pin = t.pos.place.pin ∧ ((∃ r, restOfSlot t = .reset r) ∨ (∃ r, restOfSlot t = .write r) ∨
    ((∃ r, restOfSlot t = .read r) ∧ Passing t))

theorem Passing.of_tmp {s t : State} (h : Passing s) (ht : t.tmp.lastZero = s.tmp.lastZero) : Passing t :=
  h.imp fun _ hn => ht.trans hn

theorem Passing.withPass (s : State) (w : Walked) (p : Pass) : Passing (s.withPass w p) := ⟨p.lastZero, by simp⟩

theorem Resetting.searching {t : State} (h : Resetting t) : Searching t := ⟨h.2, .inl h.1⟩
theorem Writing.searching {t : State} (h : Writing t) : Searching t := ⟨h.2, .inr (.inl h.1)⟩
theorem InRead.searching {s t : State} (h : InRead s t) (hp : Passing s) : Searching t :=
  ⟨h.2.1, .inr (.inr ⟨h.1, hp.of_tmp (by rw [h.2.2])⟩)⟩

theorem Kept.walk (s : State) (w : Walked) (c : Cursor) : Kept s (s.walk w c) := by
  cases w <;> exact .written ⟨rfl, rfl, rfl, rfl, rfl, rfl⟩ rfl rfl id

theorem Kept.withPass (s : State) (w : Walked) (p : Pass) : Kept s (s.withPass w p) :=
  (Kept.walk s w p.cursor).trans (.of_during (.of_hidden _ _ _ _))

theorem searchWritten_keeps (w : Walked) (k : Nat) (p : Pass) (rest : Pass → State → Ran (Bool × Pass)) (dir : Bool) (s : State)
    (hr : ∀ p' t, Passing t → (rest p' t).Keeps t Any Searching) : (searchWritten w k p rest dir s).Keeps s Any Searching :=
  (hr _ _ (.withPass s w _)).after (.withPass s w _)

theorem searchTurn_keeps (w : Walked) (k : Nat) (p : Pass) (rest : Pass → State → Ran (Bool × Pass)) (a c : Bool) (s : State)
    (hr : ∀ p' t, Passing t → (rest p' t).Keeps t Any Searching) : (searchTurn w k p rest a c s).Keeps s Any Searching := by
  unfold searchTurn
  split
  · exact .ok _ trivial
  · next dir p' _ =>
    refine Ran.Keeps.after (.withPass s w p') (Ran.Keeps.of_hidden (s' := (s.withPass w p').atPair k none)
      (Ran.Keeps.andThen (Q := Any) ?_ fun _ t _ _ => searchWritten_keeps w k p' rest dir t hr))
    exact (writeBit_keeps dir _).mono (fun _ _ => trivial) fun _ h => h.writing.searching

theorem searchSecond_keeps (w : Walked) (k : Nat) (p : Pass) (rest : Pass → State → Ran (Bool × Pass)) (a : Bool) (s : State)
    (hs : Passing s) (hr : ∀ p' t, Passing t → (rest p' t).Keeps t Any Searching) :
    (searchSecond w k p rest a s).Keeps s Any Searching := by
  refine Ran.Keeps.of_hidden (s' := s.atPair k (some a))
    (Ran.Keeps.andThen (Q := Any) ?_ fun c t _ ht => searchTurn_keeps w k p rest a c t hr)
  exact (readBit_keeps _).mono (fun _ _ => trivial) fun _ h => h.searching hs

theorem searchBits_keeps (w : Walked) (n k : Nat) (p : Pass) (s : State) (hs : Passing s) :
    (searchBits w n k p s).Keeps s Any Searching := by
  induction n generalizing k p s with
  | zero => exact .ok _ trivial
  | succ n ih =>
    refine Ran.Keeps.of_hidden (s' := s.atPair k none)
      (((readBit_keeps (s.atPair k none)).mono (fun _ h => h) fun _ h => h.searching (hs.of_tmp rfl)).andThen fun a t _ ht =>
        searchSecond_keeps w k p _ a t (hs.of_tmp (by rw [show t.tmp = _ from ht]; rfl)) fun p' u => ih (k + 1) p' u)

/-- A pass ends with a code that the engine produces. -/
theorem searchEnd_produced (t : ZeroTest) (p : Pass) : (searchEnd t p).1.produced = true := by
  unfold searchEnd searchFail
  split
  · rfl
  · split <;> rfl

/-- A search piece that ends with a result: the code is one the engine produces. -/
def Ran.Searches (s : State) (r : Ran (ResultCode × Cursor)) : Prop :=
  r.Keeps s Any Searching ∧ ∀ x t, r = .ok x t → x.1.produced = true

theorem Ran.Searches.andThen {α : Type} {s : State} {r : Ran α} {f : α → State → Ran (ResultCode × Cursor)}
    (h : r.Keeps s Any Searching) (h' : ∀ a t, (f a t).Searches t) : (r.andThen f).Searches s := by
  refine ⟨h.andThen fun a t _ _ => (h' a t).1, ?_⟩
  cases r with
  | ok a t => exact (h' a t).2
  | cut t => exact fun _ _ h => nomatch h
  | stopped t => exact fun _ _ h => nomatch h

theorem Ran.Searches.ok {s : State} {x : ResultCode × Cursor} (hx : x.1.produced = true) :
    (Ran.ok x s).Searches s := by
  refine ⟨.ok _ trivial, fun y t h => ?_⟩
  cases h
  exact hx

theorem conclude_searches (w : Walked) (r : ResultCode × Cursor) (s : State) (hr : r.1.produced = true) :
    (conclude w r s).Searches s := by
  refine ⟨⟨.walk s w _, trivial⟩, fun y t h => ?_⟩
  cases h
  exact hr

theorem passEnd_searches (w : Walked) (r : Bool × Pass) (s : State) : (passEnd w r s).Searches s :=
  conclude_searches w _ s (by split; exacts [searchEnd_produced _ _, rfl])

theorem passAfterByte_searches (w : Walked) (c : Cursor) (s : State) : (passAfterByte w c () s).Searches s :=
  .andThen (Ran.Keeps.of_hidden (searchBits_keeps w 64 1 _ (s.withLastZero 0) ⟨0, rfl⟩)) (passEnd_searches w)

theorem passAfterReset_searches (w : Walked) (c : Cursor) (p : Bool) (s : State) : (passAfterReset w c p s).Searches s := by
  unfold passAfterReset
  split
  · exact conclude_searches w _ s rfl
  · exact .andThen ((writeByte_keeps _ s).mono (fun _ h => h) fun _ h => h.searching) fun _ t => passAfterByte_searches w c t

theorem searchStep_searches (w : Walked) (c : Cursor) (s : State) : (searchStep w c s).Searches s := by
  unfold searchStep
  split
  · exact conclude_searches w _ s rfl
  · refine .andThen (?_ : (resetPresence s).Keeps s Any Searching) fun p t => passAfterReset_searches w c p t
    exact (resetPresence_keeps s).mono (fun _ _ => trivial) fun _ h => h.resetting.searching

/-! ## Commands -/

/-- A command run from `s` has completed (R93): what it never changes is as it was, the sequencer is idle with no position and no
temporaries, the pin is released and DONE is set. -/
structure Completed (s t : State) : Prop where
  cfg : t.cfg = s.cfg
  ctrl : t.ctrl = s.ctrl
  cmd : t.cmd = s.cmd
  done : t.flags.done = true
  seq : t.seq = .idle
  pos : t.pos = .start
  tmp : t.tmp = .none
  pin : t.pin = .released
  took : ∃ l, s.env.host = l ++ t.env.host ∧ Took s l t.flags.ovr t
  resets : t.env.resets = s.env.resets
  bufWf : s.bufWf → t.bufWf

/-- What running a command comes to: it has completed in a state of `Q`, a hardware reset has cut it, or a look has stopped it in
one of `P`. -/
def Ran.Leaves (s : State) (Q P : State → Prop) (r : Ran Unit) : Prop :=
  match r with
  | .ok _ t => Completed s t ∧ Q t
  | .cut t => CutFrom s t
  | .stopped t => StoppedFrom s t ∧ (s.bufWf → t.bufWf) ∧ P t

/-- RESULT is a code that the engine produces. -/
def Produced (t : State) : Prop := t.flags.result.produced = true

/-- A command that has been stopped stands at a place from which there is a rest of it. -/
def StandsIn (i : Instr) (t : State) : Prop :=
  (restOf i t).isSome = true ∧ t.pin = t.pos.place.pin ∧ t.pos.place ≠ .start ∧ t.pos.place.produced = true

/-- The same of an illegal word. -/
def StandsIllegal (t : State) : Prop :=
  (restOfIllegal t).isSome = true ∧ t.pin = t.pos.place.pin ∧ t.pos.place ≠ .start ∧ t.pos.place.produced = true

section leaves
variable {s t : State} {Q P Q' P' : State → Prop}

theorem Completed.of_kept {u : State} (h : Kept s t) (h' : Completed t u) : Completed s u :=
  { h' with
    cfg := h'.cfg.trans h.seen.cfg
    ctrl := h'.ctrl.trans h.seen.ctrl
    cmd := h'.cmd.trans h.seen.cmd
    took := by
      obtain ⟨l, h1, h2⟩ := h.took
      obtain ⟨l', h1', h2'⟩ := h'.took
      exact ⟨l ++ l', by rw [h1, h1', List.append_assoc], h2.trans h.seen h2'⟩
    resets := h'.resets.trans h.resets
    bufWf := h'.bufWf ∘ h.bufWf }

theorem Ran.Leaves.mono {r : Ran Unit} (h : r.Leaves s Q P) (hq : ∀ u, Q u → Q' u) (hp : ∀ u, P u → P' u) : r.Leaves s Q' P' := by
  cases r with
  | ok _ u => exact ⟨h.1, hq _ h.2⟩
  | cut u => exact h
  | stopped u => exact ⟨h.1, h.2.1, hp _ h.2.2⟩

theorem Ran.Leaves.after {r : Ran Unit} (h : Kept s t) (h' : r.Leaves t Q P) : r.Leaves s Q P := by
  cases r with
  | ok _ u => exact ⟨h'.1.of_kept h, h'.2⟩
  | cut u => exact CutFrom.of_kept h h'
  | stopped u => exact ⟨h'.1.of_kept h, h'.2.1 ∘ h.bufWf, h'.2.2⟩

theorem Ran.Keeps.andThen_leaves {α : Type} {Q' : State → Prop} {r : Ran α} {f : α → State → Ran Unit} (h : r.Keeps s Q' P)
    (h' : ∀ a t, Kept s t → Q' t → (f a t).Leaves t Q P) : (r.andThen f).Leaves s Q P := by
  cases r with
  | ok a t => exact (h' a t h.1 h.2).after h.1
  | cut t => exact h
  | stopped t => exact h

theorem Ran.Keeps.complete {Q' : State → Prop} {r : Ran Unit} (h : r.Keeps s Q' P) (code : ResultCode)
    (hq : ∀ u : State, u.flags.result = code → Q u) : (r.complete code).Leaves s Q P :=
  h.andThen_leaves fun _ t _ _ => ⟨⟨rfl, rfl, rfl, rfl, rfl, rfl, rfl, rfl, ⟨[], rfl, .none t⟩, rfl, id⟩, hq _ rfl⟩

/-- The last action of a command (R93). -/
theorem finish_leaves (code : ResultCode) (s : State) (hc : code.produced = true)
    (hP : ∀ u : State, u.pos.place = .last code → u.pin = .released → P u) : (finish code s).Leaves s Produced P := by
  refine Ran.Leaves.after (t := s.stand (.last code)) (.of_during (.of_hidden s _ _ _)) ?_
  exact ((point_keeps (s.stand (.last code))).mono (fun _ h => h) fun u hu => hP u hu.2.2 hu.2.1).complete code fun u hu => by
    rw [Produced, hu, hc]

end leaves

/-- A command that stands in one of its procedures goes on with the rest of its body. -/
theorem restOf_of_slot (i : Instr) (t : State) (h : restOfSlot t ≠ .none) :
    restOf i t = restOfBody i t ∧ t.pos.place ≠ .start ∧ t.pos.place.produced = true := by
  cases hp : t.pos.place with
  | start => simp [restOfSlot, hp] at h
  | checks => simp [restOfSlot, hp] at h
  | last code => simp [restOfSlot, hp] at h
  | _ => simp [restOf, hp, Place.produced]

theorem standsIn_of_slot {i : Instr} {t : State} (h : restOfSlot t ≠ .none) (hp : t.pin = t.pos.place.pin)
    (hb : (restOfBody i t).isSome = true) : StandsIn i t := by
  obtain ⟨h1, h2, h3⟩ := restOf_of_slot i t h
  exact ⟨h1 ▸ hb, hp, h2, h3⟩

theorem standsIn_checks (i : Instr) {t : State} (h : t.pos.place = .checks) (hp : t.pin = .released) : StandsIn i t := by
  simp [StandsIn, restOf, h, Place.pin, Place.produced, hp]

theorem standsIn_last (i : Instr) {t : State} {code : ResultCode} (hc : code.produced = true) (h : t.pos.place = .last code)
    (hp : t.pin = .released) : StandsIn i t := by
  simp [StandsIn, restOf, h, Place.pin, Place.produced, hc, hp]

/-- The end of any command. -/
theorem finish_stands (i : Instr) (code : ResultCode) (s : State) (hc : code.produced = true) :
    (finish code s).Leaves s Produced (StandsIn i) := finish_leaves code s hc fun _ => standsIn_last i hc

/-- A register that a command alone writes. -/
theorem Kept.plain {s t : State} (he : t.env = s.env) (hs : SameSeen s t) (ho : t.flags.ovr = s.flags.ovr) (hb : t.buf = s.buf) :
    Kept s t := .written hs he ho (by simp [State.bufWf, hb, hs.cfg])

/-- A command writes registers and completes. -/
theorem finish_after (i : Instr) (code : ResultCode) (s t : State) (hc : code.produced = true) (h : Kept s t) :
    (finish code t).Leaves s Produced (StandsIn i) := (finish_stands i code t hc).after h

theorem resetEnd_leaves (i : Instr) (p : Bool) (s : State) : (resetEnd p s).Leaves s Produced (StandsIn i) := by
  unfold resetEnd
  split <;> exact finish_stands i _ s rfl

theorem finishOk_leaves (i : Instr) (s : State) : (finishOk () s).Leaves s Produced (StandsIn i) :=
  finish_stands i _ s rfl

theorem readBitEnd_leaves (i : Instr) (v : Bool) (s : State) : (readBitEnd v s).Leaves s Produced (StandsIn i) :=
  finish_after i _ s _ rfl (.plain rfl ⟨rfl, rfl, rfl, rfl, rfl, rfl⟩ rfl rfl)

theorem readByteEnd_leaves (i : Instr) (v : Byte) (s : State) : (readByteEnd v s).Leaves s Produced (StandsIn i) :=
  finish_after i _ s _ rfl (.plain rfl ⟨rfl, rfl, rfl, rfl, rfl, rfl⟩ rfl rfl)

theorem readRomEnd_leaves (i : Instr) (vs : List Byte) (s : State) : (readRomEnd vs s).Leaves s Produced (StandsIn i) := by
  unfold readRomEnd
  split <;> exact finish_after i _ s _ rfl (.plain rfl ⟨rfl, rfl, rfl, rfl, rfl, rfl⟩ rfl rfl)

theorem Resetting.stands {i : Instr} {t : State} (h : Resetting t) (hb : ∀ r, restOfSlot t = .reset r → (restOfBody i t).isSome = true) :
    StandsIn i t := by
  obtain ⟨⟨r, hr⟩, hp⟩ := h
  exact standsIn_of_slot (by simp [hr]) hp (hb r hr)

theorem Writing.stands {i : Instr} {t : State} (h : Writing t) (hb : ∀ r, restOfSlot t = .write r → (restOfBody i t).isSome = true) :
    StandsIn i t := by
  obtain ⟨⟨r, hr⟩, hp⟩ := h
  exact standsIn_of_slot (by simp [hr]) hp (hb r hr)

theorem Reading.stands {i : Instr} {t : State} (h : Reading t) (hb : ∀ r, restOfSlot t = .read r → (restOfBody i t).isSome = true) :
    StandsIn i t := by
  obtain ⟨⟨r, hr⟩, hp⟩ := h
  exact standsIn_of_slot (by simp [hr]) hp (hb r hr)

/-- Each search goes on from wherever a search stands. -/
theorem Searching.stands {i : Instr} {t : State} (h : Searching t) (hi : i = .searchFirst ∨ i = .searchNext ∨ i = .verifyRom) :
    StandsIn i t := by
  obtain ⟨hp, h⟩ := h
  have hc : ∀ w, (restOfPass w t).isSome = true := fun w => by
    unfold restOfPass
    rcases h with ⟨r, hr⟩ | ⟨r, hr⟩ | ⟨⟨r, hr⟩, n, hn⟩
    · simp [hr]
    · cases hps : t.passOf w <;> simp [hr]
    · have : t.passOf w = some { cursor := t.walked w, lastZero := n } := by simp [State.passOf, hn]
      cases ha : t.tmp.a <;> simp [hr, this]
  refine standsIn_of_slot (by rcases h with ⟨r, hr⟩ | ⟨r, hr⟩ | ⟨⟨r, hr⟩, -⟩ <;> simp [hr]) hp ?_
  rcases hi with rfl | rfl | rfl <;> simp [restOfBody, hc]

theorem readRomAfterByte_leaves (s : State) : (readRomAfterByte () s).Leaves s Produced (StandsIn .readRom) :=
  ((readBytes_keeps 8 [] s).mono (fun _ h => h) fun _ h => h.stands fun r hr => by simp [restOfBody, hr]).andThen_leaves
    fun vs t _ ht => readRomEnd_leaves _ vs t

theorem readRomAfterReset_leaves (p : Bool) (s : State) : (readRomAfterReset p s).Leaves s Produced (StandsIn .readRom) := by
  unfold readRomAfterReset
  split
  · exact finish_after _ _ s _ rfl (.plain rfl ⟨rfl, rfl, rfl, rfl, rfl, rfl⟩ rfl rfl)
  · exact ((writeByte_keeps _ s).mono (fun _ h => h) fun _ h => h.stands fun r hr => by simp [restOfBody, hr]).andThen_leaves
      fun _ t _ ht => readRomAfterByte_leaves t

/-- A search piece, then the end of its command. -/
theorem Ran.Searches.andThen_leaves {s : State} {r : Ran (ResultCode × Cursor)} {i : Instr} (h : r.Searches s)
    (hi : i = .searchFirst ∨ i = .searchNext ∨ i = .verifyRom) {f : ResultCode × Cursor → State → Ran Unit}
    (hf : ∀ x t, x.1.produced = true → (f x t).Leaves t Produced (StandsIn i)) : (r.andThen f).Leaves s Produced (StandsIn i) := by
  obtain ⟨h1, h2⟩ := h
  cases r with
  | ok x t => exact (hf x t (h2 x t rfl)).after h1.1
  | cut t => exact h1
  | stopped t => exact ⟨h1.1, h1.2.1, h1.2.2.stands hi⟩

theorem searchCommandEnd_leaves (i : Instr) (x : ResultCode × Cursor) (s : State) (hx : x.1.produced = true) :
    (searchCommandEnd x s).Leaves s Produced (StandsIn i) :=
  finish_after i _ s _ hx (.plain rfl ⟨rfl, rfl, rfl, rfl, rfl, rfl⟩ rfl rfl)

theorem verifyEnd_leaves (i : Instr) (x : ResultCode × Cursor) (s : State) (hx : x.1.produced = true) :
    (verifyEnd x s).Leaves s Produced (StandsIn i) :=
  finish_after i _ s _ (by unfold verifyResult; split; exacts [rfl, hx])
    (.plain rfl ⟨rfl, rfl, rfl, rfl, rfl, rfl⟩ rfl rfl)

/-- The body of every command, from a state with the pin released. -/
theorem bodyOf_leaves (i : Instr) (s : State) : (bodyOf i s).Leaves s Produced (StandsIn i) := by
  cases i with
  | reset =>
    exact ((resetPresence_keeps s).mono (fun _ _ => trivial) fun _ h => h.resetting.stands fun r hr => by
      simp [restOfBody, hr]).andThen_leaves fun p t _ ht => resetEnd_leaves _ p t
  | writeBit b =>
    exact ((writeBit_keeps b s).mono (fun _ _ => trivial) fun _ h => h.writing.stands fun r hr => by
      simp [restOfBody, hr]).andThen_leaves fun _ t _ ht => finishOk_leaves _ t
  | readBit =>
    exact ((readBit_keeps s).mono (fun _ _ => trivial) fun _ h => h.reading.stands fun r hr => by
      simp [restOfBody, hr]).andThen_leaves fun v t _ ht => readBitEnd_leaves _ v t
  | writeByte v =>
    exact ((writeByte_keeps v s).mono (fun _ h => h) fun _ h => h.stands fun r hr => by
      simp [restOfBody, hr]).andThen_leaves fun _ t _ ht => finishOk_leaves _ t
  | readByte =>
    exact ((readByte_keeps s).mono (fun _ h => h) fun _ h => h.stands fun r hr => by
      simp [restOfBody, hr]).andThen_leaves fun v t _ ht => readByteEnd_leaves _ v t
  | writeBlock n =>
    exact ((writeBuf_keeps _ 0 s).mono (fun _ h => h) fun _ h => h.stands fun r hr => by
      simp [restOfBody, hr]).andThen_leaves fun _ t _ ht => finishOk_leaves _ t
  | readBlock n =>
    exact ((readBuf_keeps _ 0 s).mono (fun _ h => h) fun _ h => h.stands fun r hr => by
      simp [restOfBody, hr]).andThen_leaves fun _ t _ ht => finishOk_leaves _ t
  | writeRomCode =>
    exact ((writeBytes_keeps 0 _ s).mono (fun _ h => h) fun _ h => h.stands fun r hr => by
      simp [restOfBody, hr]).andThen_leaves fun _ t _ ht => finishOk_leaves _ t
  | readRom =>
    exact ((resetPresence_keeps s).mono (fun _ _ => trivial) fun _ h => h.resetting.stands fun r hr => by
      simp [restOfBody, hr]).andThen_leaves fun p t _ ht => readRomAfterReset_leaves p t
  | searchFirst =>
    refine Ran.Leaves.after (t := s.setCursor (Cursor.fresh 0)) (.plain rfl ⟨rfl, rfl, rfl, rfl, rfl, rfl⟩ rfl rfl) ?_
    have h : (searchStep .registers (Cursor.fresh 0) (s.setCursor (Cursor.fresh 0))).Searches (s.setCursor (Cursor.fresh 0)) :=
      searchStep_searches _ _ _
    exact h.andThen_leaves (.inl rfl) fun x t hx => searchCommandEnd_leaves _ x t hx
  | searchNext =>
    exact (searchStep_searches _ _ s).andThen_leaves (.inr (.inl rfl)) fun x t hx => searchCommandEnd_leaves _ x t hx
  | verifyRom =>
    exact Ran.Leaves.after (.walk s .own _) ((searchStep_searches _ _ _).andThen_leaves (.inr (.inr rfl)) fun x t hx =>
      verifyEnd_leaves _ x t hx)
  | crc8Step b => exact finish_after _ _ s _ rfl (.plain rfl ⟨rfl, rfl, rfl, rfl, rfl, rfl⟩ rfl rfl)
  | crc8Block n => exact finish_after _ _ s _ rfl (.plain rfl ⟨rfl, rfl, rfl, rfl, rfl, rfl⟩ rfl rfl)

theorem prologue_produced {i : Instr} {s : State} {code : ResultCode} (h : prologue i s = some code) : code.produced = true := by
  unfold prologue at h
  split at h
  · cases h
    rfl
  · split at h
    · split at h <;> cases h
      rfl
    · cases h

theorem Ran.Keeps.checked {i : Instr} {s : State} {r : Ran Unit} (h : r.Keeps s Any (StandsIn i)) :
    (r.checked i (bodyOf i)).Leaves s Produced (StandsIn i) := by
  refine h.andThen_leaves fun _ t _ ht => ?_
  split
  · next code hc => exact finish_stands i code t (prologue_produced hc)
  · exact bodyOf_leaves i t

/-- `exec` runs each command's body past its checks. -/
theorem exec_eq (i : Instr) (s : State) : exec i s = ((point (s.stand .checks)).checked i (bodyOf i)).outcome := by
  cases i <;> rfl

/-- What running any command from its start comes to. -/
theorem exec_leaves (i : Instr) (s : State) : ∃ r : Ran Unit, exec i s = r.outcome ∧ r.Leaves s Produced (StandsIn i) := by
  refine ⟨_, exec_eq i s, Ran.Leaves.after (t := s.stand .checks) (.of_during (.of_hidden s _ _ _)) (Ran.Keeps.checked ?_)⟩
  exact (point_keeps _).mono (fun _ _ => trivial) fun _ h => standsIn_checks i h.2.2 h.2.1

theorem standsIllegal_last {t : State} {code : ResultCode} (hc : code.produced = true) (h : t.pos.place = .last code)
    (hp : t.pin = .released) : StandsIllegal t := by
  simp [StandsIllegal, restOfIllegal, h, Place.pin, Place.produced, hc, hp]

theorem Ran.Keeps.illegal {s : State} {r : Ran Unit} (h : r.Keeps s Any StandsIllegal) : r.illegal.Leaves s Produced StandsIllegal :=
  h.andThen_leaves fun _ t _ _ => finish_leaves _ t rfl fun _ => standsIllegal_last rfl

theorem standsIllegal_checks {t : State} (h : t.pos.place = .checks) (hp : t.pin = .released) : StandsIllegal t := by
  simp [StandsIllegal, restOfIllegal, h, Place.pin, Place.produced, hp]

/-- What running an illegal word comes to. -/
theorem illegalCommand_leaves (s : State) :
    ∃ r : Ran Unit, illegalCommand s = r.outcome ∧ r.Leaves s Produced StandsIllegal := by
  refine ⟨_, rfl, Ran.Leaves.after (t := s.stand .checks) (.of_during (.of_hidden s _ _ _)) (Ran.Keeps.illegal ?_)⟩
  exact (point_keeps _).mono (fun _ _ => trivial) fun _ h => standsIllegal_checks h.2.2 h.2.1

/-! ## Going on -/

/-- What the rest of a procedure keeps. -/
def Rest.Keeps (s : State) (r : Rest) : Prop :=
  match r with
  | .reset r => r.Keeps s Any Resetting
  | .write r => r.Keeps s (Free s) (InWrite s)
  | .read r => r.Keeps s (Free s) (InRead s)
  | .none => True

theorem restOfTicks_write (s : State) (p : Pin) (hp : p = s.pos.place.pin)
    (hr : ∀ u : State, u.pos.place = s.pos.place → ∃ r, restOfSlot u = .write r) :
    (restOfTicks p s).Keeps s (In s s.pos.place p) (InWrite s) :=
  (restOfTicks_keeps p s).mono (fun _ h => h) fun _ h => h.inWrite hp hr

theorem restOfTicks_read (s : State) (p : Pin) (hp : p = s.pos.place.pin)
    (hr : ∀ u : State, u.pos.place = s.pos.place → ∃ r, restOfSlot u = .read r) :
    (restOfTicks p s).Keeps s (In s s.pos.place p) (InRead s) :=
  (restOfTicks_keeps p s).mono (fun _ h => h) fun _ h => h.inRead hp hr

theorem restOfTicks_reset (s : State) (p : Pin) (hp : p = s.pos.place.pin)
    (hr : ∀ u : State, u.pos.place = s.pos.place → ∃ r, restOfSlot u = .reset r) :
    (restOfTicks p s).Keeps s (In s s.pos.place p) Resetting :=
  (restOfTicks_keeps p s).mono (fun _ h => h) fun _ h => (h.inReset hp hr).resetting

/-- The rest of a bus reset, then PRESENT. -/
theorem restOfReset_keeps {s : State} {r : Ran Bool} (h : r.Keeps s Any Resetting) :
    (r.andThen presence).Keeps s Any Resetting :=
  h.andThen fun p t _ _ => (presence_keeps p t).mono (fun _ _ => trivial) fun _ => InReset.resetting

theorem restOfSlot_keeps (s : State) : (restOfSlot s).Keeps s := by
  unfold restOfSlot
  split <;> rename_i hp
  · refine restOfReset_keeps ((restOfTicks_reset s .released (by rw [hp]; rfl) fun u hu => by simp [restOfSlot, hu, hp]).andThen
      fun _ t _ _ => ?_)
    exact (resetAfterG_keeps t).mono (fun _ _ => trivial) fun _ => InReset.resetting
  · refine restOfReset_keeps ((restOfTicks_reset s .low (by rw [hp]; rfl) fun u hu => by simp [restOfSlot, hu, hp]).andThen
      fun _ t _ _ => ?_)
    exact (resetAfterH_keeps t).mono (fun _ _ => trivial) fun _ => InReset.resetting
  · refine restOfReset_keeps ((restOfTicks_reset s .released (by rw [hp]; rfl) fun u hu => by simp [restOfSlot, hu, hp]).andThen
      fun _ t _ _ => ?_)
    exact (resetAfterI_keeps t).mono (fun _ _ => trivial) fun _ => InReset.resetting
  · refine restOfReset_keeps ((restOfTicks_reset s .released (by rw [hp]; rfl) fun u hu => by simp [restOfSlot, hu, hp]).andThen
      fun _ t _ ht => ?_)
    exact (resetAfterJ_keeps _ t).mono (fun _ _ => trivial) fun _ => InReset.resetting
  · refine Ran.Keeps.andThen (Q := Any) ?_ fun _ t _ _ => .ok _ trivial
    refine (resume_keeps .released s).mono (fun u hu => trivial) fun u hu => ⟨?_, ?_⟩
    · simp [restOfSlot, hu.2.2, hp]
    · rw [hu.2.2, hp]
      exact hu.2.1
  · exact (restOfTicks_write s .low (by rw [hp]; rfl) fun u hu => by simp [restOfSlot, hu, hp]).andThen fun _ t _ ht =>
      (writeAfterLow_keeps _ t).mono (fun _ => .of_tmp ht.1) fun _ => .of_tmp ht.1
  · exact (restOfTicks_write s .released (by rw [hp]; rfl) fun u hu => by simp [restOfSlot, hu, hp]).mono (fun _ => In.free) fun _ h => h
  · exact (restOfTicks_read s .low (by rw [hp]; rfl) fun u hu => by simp [restOfSlot, hu, hp]).andThen fun _ t _ ht =>
      (readAfterLow_keeps t).mono (fun _ => .of_tmp ht.1) fun _ => .of_tmp ht.1
  · exact (restOfTicks_read s .released (by rw [hp]; rfl) fun u hu => by simp [restOfSlot, hu, hp]).andThen fun _ t _ ht =>
      (readAfterRel_keeps t).mono (fun _ => .of_tmp ht.1) fun _ => .of_tmp ht.1
  · exact (restOfTicks_read s .released (by rw [hp]; rfl) fun u hu => by simp [restOfSlot, hu, hp]).andThen fun _ t _ ht =>
      .ok _ ht.free
  all_goals exact trivial

theorem restOfByteOut_keeps (v : Byte) (i : Nat) {s : State} {r : Ran Unit} (h : r.Keeps s (Free s) (InWrite s)) :
    (restOfByteOut v i r).Keeps s Any Writing :=
  (h.mono (fun _ _ => trivial) fun _ => InWrite.writing).andThen fun _ t _ _ => writeBits_keeps _ _ t

theorem restOfByteIn_keeps (bs : List Bool) {s : State} {r : Ran Bool} (h : r.Keeps s (Free s) (InRead s)) :
    (restOfByteIn bs r).Keeps s Any Reading :=
  ((h.mono (fun _ _ => trivial) fun _ => InRead.reading).andThen fun _ t _ _ => readBits_keeps _ _ t).andThen
    fun _ _ _ _ => .ok _ trivial

theorem passing_of_passOf {s : State} {w : Walked} {p : Pass} (h : s.passOf w = some p) : Passing s := by
  obtain ⟨n, hn, -⟩ := Option.map_eq_some_iff.1 h
  exact ⟨n, hn⟩

/-- What the rest of a search pass comes to. -/
theorem restOfPass_searches (w : Walked) (s : State) {r : Ran (ResultCode × Cursor)}
    (h : restOfPass w s = some r) : r.Searches s := by
  have hk := restOfSlot_keeps s
  unfold restOfPass at h
  dsimp only at h
  have hb : ∀ n k p' u, Passing u → (searchBits w n k p' u).Keeps u Any Searching := searchBits_keeps w
  split at h <;> rename_i hr <;> rw [hr] at hk
  · cases h
    exact .andThen (hk.mono (fun _ h => h) fun _ => Resetting.searching) fun p t => passAfterReset_searches w _ p t
  · split at h <;> cases h
    · exact .andThen ((restOfByteOut_keeps _ _ hk).mono (fun _ h => h) fun _ => Writing.searching) fun _ t =>
        passAfterByte_searches w _ t
    · exact .andThen ((hk.mono (fun _ _ => trivial) fun _ h => h.writing.searching).andThen fun _ t _ _ =>
        searchWritten_keeps w _ _ _ _ t (hb _ _)) (passEnd_searches w)
  · split at h <;> try cases h
    · next p hp _ =>
      have hp := passing_of_passOf hp
      exact .andThen ((hk.mono (fun _ h => h) fun _ h => h.searching hp).andThen fun a t _ ht =>
        searchSecond_keeps w _ _ _ a t (hp.of_tmp (by rw [show t.tmp = _ from ht])) (hb _ _)) (passEnd_searches w)
    · next p a hp _ =>
      have hp := passing_of_passOf hp
      exact .andThen ((hk.mono (fun _ _ => trivial) fun _ h => h.searching hp).andThen fun c t _ ht =>
        searchTurn_keeps w _ _ _ a c t (hb _ _)) (passEnd_searches w)
  · cases h

/-- What the rest of any command comes to, from any place of it. -/
theorem restOf_leaves (i : Instr) (s : State) (hp : s.pos.place.produced = true) {r : Ran Unit}
    (h : restOf i s = some r) : r.Leaves s Produced (StandsIn i) := by
  have hk := restOfSlot_keeps s
  unfold restOf at h
  split at h
  · next hc =>
    cases h
    exact ((resume_keeps .released s).mono (fun _ _ => trivial) fun _ h => standsIn_checks i (h.2.2.trans hc) h.2.1).checked
  · next code hc =>
    cases h
    rw [hc] at hp
    exact ((resume_keeps .released s).mono (fun _ h => h) fun _ h => standsIn_last i hp (h.2.2.trans hc) h.2.1).complete code
      fun u hu => by rw [Produced, hu]; exact hp
  · unfold restOfBody at h
    dsimp only at h
    split at h <;> first | (rename_i hr; rw [hr] at hk) | skip
    · cases h
      exact (hk.mono (fun _ h => h) fun _ h => h.stands fun r hr => by simp [restOfBody, hr]).andThen_leaves
        fun p t _ ht => resetEnd_leaves _ p t
    · cases h
      exact (hk.mono (fun _ _ => trivial) fun _ h => h.writing.stands fun r hr => by simp [restOfBody, hr]).andThen_leaves
        fun _ t _ ht => finishOk_leaves _ t
    · cases h
      exact (hk.mono (fun _ _ => trivial) fun _ h => h.reading.stands fun r hr => by simp [restOfBody, hr]).andThen_leaves
        fun v t _ ht => readBitEnd_leaves _ v t
    · cases h
      exact ((restOfByteOut_keeps _ _ hk).mono (fun _ h => h) fun _ h => h.stands fun r hr => by
        simp [restOfBody, hr]).andThen_leaves fun _ t _ ht => finishOk_leaves _ t
    · cases h
      exact ((restOfByteIn_keeps _ hk).mono (fun _ h => h) fun _ h => h.stands fun r hr => by
        simp [restOfBody, hr]).andThen_leaves fun v t _ ht => readByteEnd_leaves _ v t
    · cases h
      exact (((restOfByteOut_keeps _ _ hk).andThen fun _ t _ ht => writeBuf_keeps _ _ t).mono (fun _ h => h) fun _ h =>
        h.stands fun r hr => by simp [restOfBody, hr]).andThen_leaves fun _ t _ ht => finishOk_leaves _ t
    · cases h
      exact (((restOfByteIn_keeps _ hk).andThen fun v t _ ht =>
        (readBuf_keeps _ _ (t.setBufByte _ v) ).after (.setBufByte t _ v)).mono (fun _ h => h)
          fun _ h => h.stands fun r hr => by simp [restOfBody, hr]).andThen_leaves fun _ t _ ht => finishOk_leaves _ t
    · cases h
      exact (((restOfByteOut_keeps _ _ hk).andThen fun _ t _ ht => writeBytes_keeps _ _ t).mono (fun _ h => h) fun _ h =>
        h.stands fun r hr => by simp [restOfBody, hr]).andThen_leaves fun _ t _ ht => finishOk_leaves _ t
    · cases h
      exact (hk.mono (fun _ h => h) fun _ h => h.stands fun r hr => by simp [restOfBody, hr]).andThen_leaves
        fun p t _ ht => readRomAfterReset_leaves p t
    · cases h
      exact ((restOfByteOut_keeps _ _ hk).mono (fun _ h => h) fun _ h => h.stands fun r hr => by
        simp [restOfBody, hr]).andThen_leaves fun _ t _ ht => readRomAfterByte_leaves t
    · cases h
      exact (((restOfByteIn_keeps _ hk).andThen fun v t _ ht => readBytes_keeps _ _ t).mono (fun _ h => h) fun _ h =>
        h.stands fun r hr => by simp [restOfBody, hr]).andThen_leaves fun vs t _ ht => readRomEnd_leaves _ vs t
    · obtain ⟨r', hr', rfl⟩ := Option.map_eq_some_iff.1 h
      exact (restOfPass_searches _ s hr').andThen_leaves (.inl rfl) fun x t hx => searchCommandEnd_leaves _ x t hx
    · obtain ⟨r', hr', rfl⟩ := Option.map_eq_some_iff.1 h
      exact (restOfPass_searches _ s hr').andThen_leaves (.inr (.inl rfl)) fun x t hx => searchCommandEnd_leaves _ x t hx
    · obtain ⟨r', hr', rfl⟩ := Option.map_eq_some_iff.1 h
      exact (restOfPass_searches _ s hr').andThen_leaves (.inr (.inr rfl)) fun x t hx => verifyEnd_leaves _ x t hx
    · cases h

/-- What the rest of an illegal word's run comes to. -/
theorem restOfIllegal_leaves (s : State) (hp : s.pos.place.produced = true) {r : Ran Unit}
    (h : restOfIllegal s = some r) : r.Leaves s Produced StandsIllegal := by
  unfold restOfIllegal at h
  split at h
  · next hc =>
    cases h
    exact ((resume_keeps .released s).mono (fun _ _ => trivial) fun _ h => standsIllegal_checks (h.2.2.trans hc) h.2.1).illegal
  · next code hc =>
    cases h
    rw [hc] at hp
    exact ((resume_keeps .released s).mono (fun _ h => h) fun _ h => standsIllegal_last hp (h.2.2.trans hc) h.2.1).complete code
      fun u hu => by rw [Produced, hu]; exact hp
  · cases h

theorem Place.of_not_produced {pl : Place} (h : ¬ pl.produced = true) : ∃ code, pl = .last code := by
  cases pl with
  | last code => exact ⟨code, rfl⟩
  | _ => exact absurd rfl h

/-- The same whatever code the command is about to complete with. -/
theorem restOf_leaves_any (i : Instr) (s : State) {r : Ran Unit} (h : restOf i s = some r) : r.Leaves s Any Any := by
  by_cases hp : s.pos.place.produced = true
  · exact (restOf_leaves i s hp h).mono (fun _ _ => trivial) fun _ _ => trivial
  · obtain ⟨code, hc⟩ := Place.of_not_produced hp
    rw [restOf, hc] at h
    cases h
    exact ((resume_keeps .released s).mono (fun _ h => h) fun _ _ => trivial).complete code fun _ _ => trivial

theorem restOfIllegal_leaves_any (s : State) {r : Ran Unit} (h : restOfIllegal s = some r) : r.Leaves s Any Any := by
  by_cases hp : s.pos.place.produced = true
  · exact (restOfIllegal_leaves s hp h).mono (fun _ _ => trivial) fun _ _ => trivial
  · obtain ⟨code, hc⟩ := Place.of_not_produced hp
    rw [restOfIllegal, hc] at h
    cases h
    exact ((resume_keeps .released s).mono (fun _ h => h) fun _ _ => trivial).complete code fun _ _ => trivial

end Sys2Proof.Machine
end

