-- ==== Sys2Proof/Laws/Look.lean ====
section
/-! SUPPORT. A look that stops a phase loses nothing: the rest of the phase, from where it stands, is the phase as it would have gone on
without the look. -/

namespace Sys2Proof.Machine

/-- `s'` is `s` without the look that is to come, the only one; what comes after it was not due before it. -/
def Skips (rest : List HostReq) (s s' : State) : Prop :=
  ∃ q n before, s.env.host = before ++ ⟨.during q, .look n⟩ :: rest ∧ (∀ r ∈ before ++ rest, r.op.isLook = false) ∧
    (∀ r ∈ rest.head?, ∀ m, r.arrival = .during m → q ≤ m) ∧ s' = s.setHost (before ++ rest)

/-- A piece run from `s` beside the same piece from the state without the look: they come to the same end, in a state of `Q`; or the
look stops the first in a state from which, as `R` says, it goes on like the second; or a hardware reset cuts it. -/
def Ran.Beside {α : Type} (rest : List HostReq) (Q : State → Prop) (R : State → Ran α → Prop) (r r' : Ran α) : Prop :=
  match r with
  | .ok a u => ∃ u', r' = .ok a u' ∧ Skips rest u u' ∧ Q u
  | .cut u => u.seq = .idle
  | .stopped t => t.env.host = rest ∧ R t r'

section beside
variable {α β : Type} {Q Q' : State → Prop} {R R' : State → Ran α → Prop} {r r' : Ran α}

theorem Ran.Beside.mono (h : r.Beside rest Q R r') (hq : ∀ u, Q u → Q' u) (hr : ∀ t, R t r' → R' t r') : r.Beside rest Q' R' r' := by
  cases r with
  | ok a u =>
    obtain ⟨u', h1, h2, h3⟩ := h
    exact ⟨u', h1, h2, hq u h3⟩
  | cut u => exact h
  | stopped t => exact ⟨h.1, hr t h.2⟩

/-- Sequencing: a piece stopped by the look goes on, and what follows it with it. -/
theorem Ran.Beside.andThen {R' : State → Ran β → Prop} {f : α → State → Ran β} (h : r.Beside rest Q R r')
    (hr : ∀ t x, R t x → R' t (x.andThen f)) (hf : ∀ a u u', Skips rest u u' → Q u → (f a u).Beside rest Q' R' (f a u')) :
    (r.andThen f).Beside rest Q' R' (r'.andThen f) := by
  cases r with
  | ok a u =>
    obtain ⟨u', rfl, hu, hq⟩ := h
    exact hf a u u' hu hq
  | cut u => exact h
  | stopped t => exact ⟨h.1, hr t r' h.2⟩

theorem Ran.Beside.ok {s s' : State} (a : α) (h : Skips rest s s') (hq : Q s) : (Ran.ok a s).Beside rest Q R (.ok a s') := ⟨s', rfl, h, hq⟩

end beside

/-- The ticks that pass at a point change nothing of what lands there: without a look they show in the position alone. -/
theorem arrivals_elapse (l : List HostReq) (n : Nat) (s : State) (hl : ∀ r ∈ l, r.op.isLook = false) :
    arrivals l (s.elapse n) =
      match arrivals l s with
      | .ok a u => .ok a (u.elapse n)
      | r => r := by
  induction l generalizing s with
  | nil => rfl
  | cons r rest ih =>
    obtain ⟨a, op⟩ := r
    have hr := fun s => ih s fun x hx => hl x (List.mem_cons_of_mem _ hx)
    have hb : ∀ off, busyRead off (s.elapse n) = (busyRead off s).elapse n := fun off => by
      simp only [busyRead_eq]
      have h1 : drawsAt off (s.elapse n) = drawsAt off s := rfl
      have h2 : readAt off (s.elapse n) = readAt off s := by
        unfold readAt
        cases regAt off with
        | none => rfl
        | some r => cases r <;> rfl
      rw [h1, h2]
      split <;> rfl
    have hw : ∀ off, busyWrite off (s.elapse n) = (busyWrite off s).elapse n := fun off => by
      simp only [busyWrite_eq]
      rfl
    have hp : (s.elapse n).pos.points = s.pos.points := rfl
    unfold arrivals
    rw [hp]
    split
    · cases op with
      | read off size => simp only [hb, hr]
      | write off size v => simp only [hw, hr]
      | poll last => simp only [hb, hr]
      | reset => rfl
      | look m => simpa [HostOp.isLook] using hl ⟨a, .look m⟩ List.mem_cons_self
    · rfl

/-- What lands at a point, beside the same without the look: the look stops it after some ticks of the phase. -/
theorem arrivals_beside (q n : Nat) (before rest : List HostReq) (s : State)
    (hl : ∀ r ∈ before ++ rest, HostOp.isLook (HostReq.op r) = false)
    (hd : ∀ r ∈ rest.head?, ∀ m, r.arrival = Arrival.during m → q ≤ m) :
    (arrivals (before ++ ⟨.during q, .look n⟩ :: rest) s).Beside rest (fun u => RegsEq s u ∧ u.env.resets = s.env.resets)
      (fun t x => ∃ u, t = (u.setHost rest).elapse n ∧ x = arrivals rest u ∧ RegsEq s u ∧ u.env.resets = s.env.resets)
      (arrivals (before ++ rest) s) := by
  induction before generalizing s with
  | nil =>
    simp only [List.nil_append] at hl ⊢
    rw [arrivals]
    by_cases hq : q ≤ s.pos.points
    · have h : HostReq.lands ⟨.during q, .look n⟩ s.pos.points = true := by simp [HostReq.lands, HostOp.admitted, hq]
      rw [if_pos h]
      exact ⟨rfl, s, rfl, rfl, rfl, rfl⟩
    · have h : ¬ HostReq.lands ⟨.during q, .look n⟩ s.pos.points = true := by simp [HostReq.lands, hq]
      rw [if_neg h]
      refine ⟨s.setHost rest, ?_, ⟨q, n, [], rfl, hl, hd, rfl⟩, rfl, rfl⟩
      cases rest with
      | nil => rfl
      | cons r rest =>
        rw [arrivals, if_neg]
        intro hr
        have : ∃ m, r.arrival = .during m ∧ m ≤ s.pos.points := by
          revert hr
          cases hra : r.arrival with
          | whenIdle => simp [HostReq.lands, hra]
          | during m => simp +contextual [HostReq.lands, hra]
        obtain ⟨m, h1, h2⟩ := this
        exact hq ((hd r rfl m h1).trans h2)
  | cons r before ih =>
    obtain ⟨a, op⟩ := r
    simp only [List.cons_append] at hl ⊢
    have hr : ∀ u, RegsEq s u → u.env.resets = s.env.resets → (arrivals (before ++ ⟨.during q, .look n⟩ :: rest) u).Beside rest
        (fun w => RegsEq s w ∧ w.env.resets = s.env.resets)
        (fun t x => ∃ w, t = (w.setHost rest).elapse n ∧ x = arrivals rest w ∧ RegsEq s w ∧ w.env.resets = s.env.resets)
        (arrivals (before ++ rest) u) := fun u hu hres =>
      (ih u fun x hx => hl x (List.mem_cons_of_mem _ hx)).mono (fun w h => ⟨by rw [RegsEq, h.1, hu], h.2.trans hres⟩)
        fun t ⟨w, h1, h2, h3, h4⟩ =>
          ⟨w, h1, h2, by rw [RegsEq, h3, hu], h4.trans hres⟩
    have hb : ∀ off, RegsEq s (busyRead off s) ∧ (busyRead off s).env.resets = s.env.resets := fun off => by
      rw [busyRead_eq]
      split <;> exact ⟨rfl, rfl⟩
    simp only [arrivals]
    split
    · cases op with
      | read off size => exact hr _ (hb off).1 (hb off).2
      | write off size v => exact hr _ (by rw [busyWrite_eq]) (by rw [busyWrite_eq])
      | poll last => exact hr _ (hb _).1 (hb _).2
      | reset => rfl
      | look m => simpa [HostOp.isLook] using hl ⟨a, .look m⟩ List.mem_cons_self
    · exact ⟨_, rfl, ⟨q, n, ⟨a, op⟩ :: before, rfl, hl, hd, rfl⟩, rfl, rfl⟩

/-- The registers that the rest of a command reads are as in `s`. -/
structure SameRegs (s t : State) : Prop where
  cfg : t.cfg = s.cfg
  ctrl : t.ctrl = s.ctrl
  rom : t.rom = s.rom
  cursor : t.cursor = s.cursor
  buf : t.buf = s.buf
  seq : t.seq = s.seq
  resets : t.env.resets = s.env.resets

/-- And so are the temporaries, and the byte and bit index. -/
structure Near (s t : State) : Prop where
  regs : SameRegs s t
  tmp : t.tmp = s.tmp
  byte : t.pos.byte = s.pos.byte
  bit : t.pos.bit = s.pos.bit

theorem SameRegs.refl (s : State) : SameRegs s s := ⟨rfl, rfl, rfl, rfl, rfl, rfl, rfl⟩

theorem SameRegs.trans {s t u : State} (h : SameRegs s t) (h' : SameRegs t u) : SameRegs s u :=
  ⟨h'.cfg.trans h.cfg, h'.ctrl.trans h.ctrl, h'.rom.trans h.rom, h'.cursor.trans h.cursor, h'.buf.trans h.buf, h'.seq.trans h.seq,
    h'.resets.trans h.resets⟩

theorem SameRegs.bufByte {s t : State} (h : SameRegs s t) (i : Nat) : t.bufByte i = s.bufByte i :=
  State.bufByte_congr h.buf h.cfg h.resets i

theorem Near.trans {s t u : State} (h : Near s t) (h' : Near t u) : Near s u :=
  ⟨h.regs.trans h'.regs, h'.tmp.trans h.tmp, h'.byte.trans h.byte, h'.bit.trans h.bit⟩

theorem Near.of_regsEq {s u : State} (h : RegsEq s u) (hr : u.env.resets = s.env.resets) : Near s u := by
  rw [h]
  exact ⟨⟨rfl, rfl, rfl, rfl, rfl, rfl, hr⟩, rfl, rfl, rfl⟩

/-- Updates that leave the host's list alone. -/
theorem Skips.map {s s' : State} (h : Skips rest s s') (f : State → State) (hf : ∀ u l, f (u.setHost l) = (f u).setHost l)
    (he : (f s).env.host = s.env.host) : Skips rest (f s) (f s') := by
  obtain ⟨q, n, before, h1, h2, h3, rfl⟩ := h
  exact ⟨q, n, before, he.trans h1, h2, h3, hf _ _⟩

/-- What lands does not depend on the list that the state holds, only on the one it is taken from. -/
theorem arrivals_setHost (l m : List HostReq) (s : State) : arrivals l (s.setHost m) = arrivals l s := by
  induction l generalizing s with
  | nil => rfl
  | cons r rest ih =>
    obtain ⟨a, op⟩ := r
    have hb : ∀ off, busyRead off (s.setHost m) = (busyRead off s).setHost m := fun off => by
      have h2 : readAt off (s.setHost m) = readAt off s := by
        unfold readAt
        cases regAt off with
        | none => rfl
        | some r => cases r <;> rfl
      simp only [busyRead_eq, h2]
      have h1 : drawsAt off (s.setHost m) = drawsAt off s := rfl
      rw [h1]
      split <;> rfl
    have hw : ∀ off, busyWrite off (s.setHost m) = (busyWrite off s).setHost m := fun off => by
      simp only [busyWrite_eq]
      rfl
    simp only [arrivals, hb, hw, ih]
    rfl

/-- What lands where a command stands, beside the same without the look. -/
theorem here_beside {s s' : State} (h : Skips rest s s') :
    (here s).Beside rest (fun u => RegsEq s u ∧ u.env.resets = s.env.resets)
      (fun t x => ∃ u n, t = (u.setHost rest).elapse n ∧ x = arrivals rest u ∧ RegsEq s u ∧
      u.env.resets = s.env.resets ∧ ∀ r ∈ rest, r.op.isLook = false) (here s') := by
  obtain ⟨q, n, before, h1, h2, h3, rfl⟩ := h
  have h := arrivals_beside q n before rest s h2 h3
  unfold here
  rw [h1, State.setHost_env, arrivals_setHost]
  exact h.mono (fun _ h => h) fun t ⟨u, ht, hx, hu, hr⟩ => ⟨u, n, ht, hx, hu, hr, fun r hr => h2 r (List.mem_append_right _ hr)⟩

/-- The same at the next point. -/
theorem point_beside {s s' : State} (h : Skips rest s s') :
    (point s).Beside rest (Near s) (fun t x => ∃ u n, t = (u.setHost rest).elapse n ∧ x = arrivals rest u ∧
      RegsEq { s with pos := { s.pos with points := s.pos.points + 1 } } u ∧ u.env.resets = s.env.resets ∧
      ∀ r ∈ rest, r.op.isLook = false) (point s') :=
  (here_beside (h.map (fun s => { s with pos := { s.pos with points := s.pos.points + 1 } }) (fun _ _ => rfl) rfl)).mono
    (fun _ hu => Near.trans (t := { s with pos := { s.pos with points := s.pos.points + 1 } })
      ⟨⟨rfl, rfl, rfl, rfl, rfl, rfl, rfl⟩, rfl, rfl, rfl⟩ (Near.of_regsEq hu.1 hu.2)) fun _ h => h

/-- A place that takes no time goes on from where the look stopped it. -/
theorem stand_beside {s s' : State} (h : Skips rest s s') (pl : Place) :
    (point (s.stand pl)).Beside rest (Near s) (fun t x => t.pos.place = pl ∧ Near s t ∧ resume .released t = x) (point (s'.stand pl)) := by
  have hs : Near s (s.stand pl) := ⟨⟨rfl, rfl, rfl, rfl, rfl, rfl, rfl⟩, rfl, rfl, rfl⟩
  refine (point_beside (h.map (fun s => s.stand pl) (fun _ _ => rfl) rfl)).mono (fun u hu => hs.trans hu)
    fun t ⟨u, n, ht, hx, hu, hr, hl⟩ => ?_
  have hp : u.pin = .released := by rw [hu]; rfl
  have hpos : u.pos = { s.pos with place := pl, past := 0, left := 0, points := s.pos.points + 1 } := by rw [hu]; rfl
  have he : u.elapse n = u := by
    simp [State.elapse, hpos]
    rw [← hpos]
  have ht' : t = u.setHost rest := by
    rw [ht]
    show (u.elapse n).setHost rest = _
    rw [he]
  refine ⟨by rw [ht']; simp [hpos], ?_, ?_⟩
  · rw [ht', hu]
    exact ⟨⟨rfl, rfl, rfl, rfl, rfl, rfl, hr⟩, rfl, rfl, rfl⟩
  · rw [ht', hx]
    have : resume .released (u.setHost rest) = arrivals rest (u.setHost rest) := by
      unfold resume here
      rw [← hp]
      rfl
    rw [this, arrivals_setHost]

/-- A phase goes on from where the look stopped it. -/
theorem phase_beside {s s' : State} (h : Skips rest s s') (pl : Place) (p : Pin) (d : Nat) :
    (phase pl p d s).Beside rest (Near s) (fun t x => t.pos.place = pl ∧ Near s t ∧ restOfTicks p t = x) (phase pl p d s') := by
  have hs : Skips rest (s.enter pl p d) (s'.enter pl p d) := h.map (fun s => s.enter pl p d) (fun _ _ => rfl) rfl
  have hn : Near s (s.enter pl p d) := ⟨⟨rfl, rfl, rfl, rfl, rfl, rfl, rfl⟩, rfl, rfl, rfl⟩
  have hd : s'.phaseLength d = s.phaseLength d := by
    obtain ⟨_, _, _, _, _, _, _, rfl⟩ := h
    rfl
  have hb := point_beside hs
  unfold phase
  rw [hd]
  revert hb
  cases point (s.enter pl p d) with
  | ok a u =>
    rintro ⟨u', hu', hu, hq⟩
    rw [hu']
    exact ⟨_, rfl, hu.map (fun s => s.held p _) (fun _ _ => rfl) rfl,
      (hn.trans hq).trans ⟨⟨rfl, rfl, rfl, rfl, rfl, rfl, rfl⟩, rfl, rfl, rfl⟩⟩
  | cut u => exact fun h => h
  | stopped t =>
    rintro ⟨hn, u, n, ht, hx, hu, hr, hl⟩
    have hp : u.pin = p := by rw [hu]; rfl
    have hpos : u.pos = { s.pos with place := pl, past := 0, left := s.phaseLength d, points := s.pos.points + 1 } := by rw [hu]; rfl
    refine ⟨hn, by rw [ht]; simp [hpos], ?_, ?_⟩
    · rw [ht, hu]
      exact ⟨⟨rfl, rfl, rfl, rfl, rfl, rfl, hr⟩, rfl, rfl, rfl⟩
    · rw [hx]
      have h1 : resume p t = arrivals rest (u.elapse n) := by
        have : ({ t with pin := p } : State) = t := by rw [ht, ← hp]; rfl
        unfold resume here
        rw [this, ht]
        exact arrivals_setHost _ rest (u.elapse n)
      have h2 : t.pos.past + t.pos.left = s.phaseLength d := by
        rw [ht]
        simp only [State.elapse_pos, State.setHost_pos, hpos]
        omega
      unfold restOfTicks
      rw [h1, h2, arrivals_elapse _ _ _ hl]
      cases arrivals rest u <;> rfl

/-! ## The procedures of the bus physical layer -/

/-- Registers, parameters and all but the host's list are the same without the look. -/
theorem Skips.setHost_eq {s s' : State} (h : Skips rest s s') : ∃ l, s' = s.setHost l := by
  obtain ⟨_, _, b, r, _, _, _, rfl⟩ := h
  exact ⟨_, rfl⟩

theorem Skips.cfg {s s' : State} (h : Skips rest s s') : s'.cfg = s.cfg := by
  obtain ⟨l, rfl⟩ := h.setHost_eq
  rfl

/-- Stopped in a write slot of the bit `b`: `x` is the rest of it. -/
def WriteRest (b : Bool) (s t : State) (x : Ran Unit) : Prop := Near s t ∧ t.pos.place.slotBit = b ∧ restOfSlot t = .write x

/-- Stopped in a read slot. -/
def ReadRest (s t : State) (x : Ran Bool) : Prop := Near s t ∧ restOfSlot t = .read x

/-- Stopped in a bus reset, PRESENT not yet written. -/
def SeqRest (s t : State) (x : Ran Bool) : Prop := Near s t ∧ restOfSlot t = .reset (x.andThen presence)

/-- Stopped in a bus reset. -/
def ResetRest (s t : State) (x : Ran Bool) : Prop := Near s t ∧ restOfSlot t = .reset x

theorem WriteRest.of_near {b : Bool} {s u t : State} {x : Ran Unit} (h : Near s u) (h' : WriteRest b u t x) : WriteRest b s t x :=
  ⟨h.trans h'.1, h'.2⟩
theorem ReadRest.of_near {s u t : State} {x : Ran Bool} (h : Near s u) (h' : ReadRest u t x) : ReadRest s t x :=
  ⟨h.trans h'.1, h'.2⟩
theorem SeqRest.of_near {s u t : State} {x : Ran Bool} (h : Near s u) (h' : SeqRest u t x) : SeqRest s t x := ⟨h.trans h'.1, h'.2⟩
theorem ResetRest.of_near {s u t : State} {x : Ran Bool} (h : Near s u) (h' : ResetRest u t x) : ResetRest s t x :=
  ⟨h.trans h'.1, h'.2⟩

theorem writeAfterLow_beside {s s' : State} (h : Skips rest s s') (b : Bool) :
    (writeAfterLow b s).Beside rest (Near s) (WriteRest b s) (writeAfterLow b s') := by
  unfold writeAfterLow
  rw [h.cfg]
  exact (phase_beside h _ _ _).mono (fun _ h => h) fun t ⟨hp, hn, hx⟩ => ⟨hn, by rw [hp]; rfl, by simp [restOfSlot, hp, hx]⟩

theorem writeBit_beside {s s' : State} (h : Skips rest s s') (b : Bool) :
    (writeBit b s).Beside rest (Near s) (WriteRest b s) (writeBit b s') := by
  unfold writeBit
  rw [h.cfg]
  refine (phase_beside h _ _ _).andThen (fun t x ⟨hp, hn, hx⟩ => ⟨hn, by rw [hp]; rfl, by simp [restOfSlot, hp, hx]⟩) fun _ u u' hu hq => ?_
  exact (writeAfterLow_beside hu b).mono (fun _ => hq.trans) fun _ => .of_near hq

theorem sample_beside {s s' : State} {R : State → Ran Bool → Prop} (h : Skips rest s s') : (sample s).Beside rest (Near s) R (sample s') := by
  obtain ⟨l, e⟩ := h.setHost_eq
  have hl : s'.level = s.level := by rw [e]; rfl
  unfold sample
  rw [hl]
  refine .ok _ (h.map State.sampled (fun _ _ => rfl) rfl) ⟨⟨rfl, rfl, rfl, rfl, rfl, rfl, rfl⟩, rfl, rfl, rfl⟩

theorem readAfterRel_beside {s s' : State} (h : Skips rest s s') : (readAfterRel s).Beside rest (Near s) (ReadRest s) (readAfterRel s') := by
  unfold readAfterRel
  refine (sample_beside (R := fun _ _ => False) h).andThen (fun _ _ h => h.elim) fun v u u' hu hq => ?_
  rw [hu.cfg]
  refine (phase_beside hu _ _ _).andThen (fun t x ⟨hp, hn, hx⟩ => ⟨hq.trans hn, by simp [restOfSlot, hp, hx]⟩) fun _ w w' hw hq' => ?_
  exact .ok _ hw (hq.trans hq')

theorem readAfterLow_beside {s s' : State} (h : Skips rest s s') : (readAfterLow s).Beside rest (Near s) (ReadRest s) (readAfterLow s') := by
  unfold readAfterLow
  rw [h.cfg]
  refine (phase_beside h _ _ _).andThen (fun t x ⟨hp, hn, hx⟩ => ⟨hn, by simp [restOfSlot, hp, hx]⟩) fun _ u u' hu hq => ?_
  exact (readAfterRel_beside hu).mono (fun _ => hq.trans) fun _ => .of_near hq

theorem readBit_beside {s s' : State} (h : Skips rest s s') : (readBit s).Beside rest (Near s) (ReadRest s) (readBit s') := by
  unfold readBit
  rw [h.cfg]
  refine (phase_beside h _ _ _).andThen (fun t x ⟨hp, hn, hx⟩ => ⟨hn, by simp [restOfSlot, hp, hx]⟩) fun _ u u' hu hq => ?_
  exact (readAfterLow_beside hu).mono (fun _ => hq.trans) fun _ => .of_near hq

theorem resetAfterJ_beside {s s' : State} (h : Skips rest s s') (s1 : Bool) :
    (resetAfterJ s1 s).Beside rest (Near s) (SeqRest s) (resetAfterJ s1 s') :=
  (sample_beside (R := fun _ _ => False) h).andThen (fun _ _ h => h.elim) fun _ _ _ hu hq => .ok _ hu hq

theorem resetAfterI_beside {s s' : State} (h : Skips rest s s') : (resetAfterI s).Beside rest (Near s) (SeqRest s) (resetAfterI s') := by
  unfold resetAfterI
  refine (sample_beside (R := fun _ _ => False) h).andThen (fun _ _ h => h.elim) fun v u u' hu hq => ?_
  rw [hu.cfg]
  refine (phase_beside hu _ _ _).andThen (fun t x ⟨hp, hn, hx⟩ => ⟨hq.trans hn, by simp [restOfSlot, hp, hx]⟩) fun _ w w' hw hq' => ?_
  exact (resetAfterJ_beside hw v).mono (fun _ => (hq.trans hq').trans) fun _ => .of_near (hq.trans hq')

theorem resetAfterH_beside {s s' : State} (h : Skips rest s s') : (resetAfterH s).Beside rest (Near s) (SeqRest s) (resetAfterH s') := by
  unfold resetAfterH
  rw [h.cfg]
  refine (phase_beside h _ _ _).andThen (fun t x ⟨hp, hn, hx⟩ => ⟨hn, by simp [restOfSlot, hp, hx]⟩) fun _ u u' hu hq => ?_
  exact (resetAfterI_beside hu).mono (fun _ => hq.trans) fun _ => .of_near hq

theorem resetAfterG_beside {s s' : State} (h : Skips rest s s') : (resetAfterG s).Beside rest (Near s) (SeqRest s) (resetAfterG s') := by
  unfold resetAfterG
  rw [h.cfg]
  refine (phase_beside h _ _ _).andThen (fun t x ⟨hp, hn, hx⟩ => ⟨hn, by simp [restOfSlot, hp, hx]⟩) fun _ u u' hu hq => ?_
  exact (resetAfterH_beside hu).mono (fun _ => hq.trans) fun _ => .of_near hq

theorem resetSeq_beside {s s' : State} (h : Skips rest s s') : (resetSeq s).Beside rest (Near s) (SeqRest s) (resetSeq s') := by
  unfold resetSeq
  rw [h.cfg]
  refine (phase_beside h _ _ _).andThen (fun t x ⟨hp, hn, hx⟩ => ⟨hn, by simp [restOfSlot, hp, hx]⟩) fun _ u u' hu hq => ?_
  exact (resetAfterG_beside hu).mono (fun _ => hq.trans) fun _ => .of_near hq

theorem presence_beside {s s' : State} (h : Skips rest s s') (p : Bool) :
    (presence p s).Beside rest (Near s) (ResetRest s) (presence p s') := by
  have hs : Near s (s.setPresent p) := ⟨⟨rfl, rfl, rfl, rfl, rfl, rfl, rfl⟩, rfl, rfl, rfl⟩
  have hm : Skips rest (s.setPresent p) (s'.setPresent p) := h.map (fun s => s.setPresent p) (fun _ _ => rfl) rfl
  unfold presence
  refine Ran.Beside.andThen (Q := Near s) (R := fun t x => t.pos.place = .present ∧ Near s t ∧ resume .released t = x ∧
    ∀ w, x = .ok () w → w.flags.present = p) ?_ (fun t x ⟨hp, hn, hx, hw⟩ => ⟨hn, ?_⟩) fun _ u u' hu hq => .ok _ hu hq
  · have hb := stand_beside hm .present
    have hy := point_yields ((s'.setPresent p).stand .present)
    refine hb.mono (fun u hu => hs.trans hu) fun t ⟨h1, h2, h3⟩ => ⟨h1, hs.trans h2, h3, fun w hw => ?_⟩
    rw [hw] at hy
    exact hy.2.present
  · simp only [restOfSlot, hp, hx]
    congr 1
    cases x with
    | ok _ w => simp [hw w rfl]
    | cut w => rfl
    | stopped w => rfl

theorem resetPresence_beside {s s' : State} (h : Skips rest s s') :
    (resetPresence s).Beside rest (Near s) (ResetRest s) (resetPresence s') := by
  refine (resetSeq_beside h).andThen (fun t x hx => hx) fun p u u' hu hq => ?_
  exact (presence_beside hu p).mono (fun _ => hq.trans) fun _ => .of_near hq


/-! ## Bytes and blocks -/

/-- Within a byte the registers, the byte index and the temporaries around it are as in `s`. -/
structure InByte (s t : State) : Prop where
  regs : SameRegs s t
  byte : t.pos.byte = s.pos.byte
  rbuf : t.tmp.rbuf = s.tmp.rbuf
  lastZero : t.tmp.lastZero = s.tmp.lastZero
  own : t.tmp.own = s.tmp.own

theorem InByte.trans {s t u : State} (h : InByte s t) (h' : InByte t u) : InByte s u :=
  ⟨h.regs.trans h'.regs, h'.byte.trans h.byte, h'.rbuf.trans h.rbuf, h'.lastZero.trans h.lastZero, h'.own.trans h.own⟩

theorem Near.inByte {s t : State} (h : Near s t) : InByte s t := ⟨h.regs, h.byte, by rw [h.tmp], by rw [h.tmp], by rw [h.tmp]⟩

/-- Stopped in a byte that is being written. -/
def ByteOut (v : Byte) (s t : State) (x : Ran Unit) : Prop :=
  InByte s t ∧ ∃ w, restOfSlot t = .write w ∧ x = restOfByteOut v t.pos.bit w

/-- Stopped in a byte that is being read. -/
def ByteIn (s t : State) (x : Ran Byte) : Prop := InByte s t ∧ ∃ w, restOfSlot t = .read w ∧ x = restOfByteIn t.tmp.bits w

theorem writeBits_beside (v : Byte) (i : Nat) (bs : List Bool) (hb : bs = (byteBits v).drop i) {s s' : State} (h : Skips rest s s') :
    (writeBits i bs s).Beside rest (InByte s) (ByteOut v s) (writeBits i bs s') := by
  induction bs generalizing i s s' with
  | nil => exact .ok _ h ⟨.refl s, rfl, rfl, rfl, rfl⟩
  | cons b bs ih =>
    have ht : bs = (byteBits v).drop (i + 1) := by rw [← List.tail_drop, ← hb, List.tail_cons]
    have ha : InByte s (s.atBit i) := ⟨⟨rfl, rfl, rfl, rfl, rfl, rfl, rfl⟩, rfl, rfl, rfl, rfl⟩
    refine (writeBit_beside (h.map (fun s => s.atBit i) (fun _ _ => rfl) rfl) b).andThen (fun t x ⟨hn, _, hx⟩ => ?_) fun _ u u' hu hq => ?_
    · refine ⟨ha.trans hn.inByte, x, hx, ?_⟩
      rw [hn.bit, ht]
      rfl
    · have hq := ha.trans hq.inByte
      exact (ih (i + 1) ht hu).mono (fun _ => hq.trans) fun _ h => ⟨hq.trans h.1, h.2⟩

theorem writeByte_beside (v : Byte) {s s' : State} (h : Skips rest s s') :
    (writeByte v s).Beside rest (InByte s) (ByteOut v s) (writeByte v s') := writeBits_beside v 0 _ rfl h

theorem readBits_beside (n : Nat) (bs : List Bool) (hn : bs.length + n = 8) {s s' : State} (h : Skips rest s s') :
    (readBits n bs s).Beside rest (InByte s) (fun t x => ByteIn s t (x.andThen byteRead)) (readBits n bs s') := by
  induction n generalizing bs s s' with
  | zero => exact .ok _ h ⟨.refl s, rfl, rfl, rfl, rfl⟩
  | succ n ih =>
    have ha : InByte s (s.withBits bs) := ⟨⟨rfl, rfl, rfl, rfl, rfl, rfl, rfl⟩, rfl, rfl, rfl, rfl⟩
    refine (readBit_beside (h.map (fun s => s.withBits bs) (fun _ _ => rfl) rfl)).andThen (fun t x ⟨hr, hx⟩ => ?_) fun b u u' hu hq => ?_
    · refine ⟨ha.trans hr.inByte, x, hx, ?_⟩
      have hl : t.tmp.bits = bs := by rw [hr.tmp]; rfl
      rw [hl, restOfByteIn, show 7 - bs.length = n by omega]
    · have hq := ha.trans hq.inByte
      exact (ih (bs ++ [b]) (by simp; omega) hu).mono (fun _ => hq.trans) fun _ h => ⟨hq.trans h.1, h.2⟩

theorem readByte_beside {s s' : State} (h : Skips rest s s') : (readByte s).Beside rest (InByte s) (ByteIn s) (readByte s') :=
  (readBits_beside 8 [] rfl h).andThen (fun _ _ h => h) fun _ _ _ hu hq => .ok _ hu hq

theorem writeBytes_beside (vs : List Byte) (f : Nat → Byte) (j : Nat) (l : List Byte) (hl : l = vs.drop j)
    (hf : ∀ j v l, vs.drop j = v :: l → v = f j) {s s' : State} (h : Skips rest s s') :
    (writeBytes j l s).Beside rest (SameRegs s) (fun t x => SameRegs s t ∧ ∃ w, restOfSlot t = .write w ∧
      x = (restOfByteOut (f t.pos.byte) t.pos.bit w).andThen fun _ s' => writeBytes (t.pos.byte + 1) (vs.drop (t.pos.byte + 1)) s')
      (writeBytes j l s') := by
  induction l generalizing j s s' with
  | nil => exact .ok _ h (.refl s)
  | cons v l ih =>
    have ht : l = vs.drop (j + 1) := by rw [← List.tail_drop, ← hl, List.tail_cons]
    have ha : SameRegs s (s.atByte j) := ⟨rfl, rfl, rfl, rfl, rfl, rfl, rfl⟩
    refine (writeByte_beside v (h.map (fun s => s.atByte j) (fun _ _ => rfl) rfl)).andThen (fun t x ⟨hn, w, hw, hx⟩ => ?_)
      fun _ u u' hu hq => ?_
    · have hj : t.pos.byte = j := hn.byte
      exact ⟨ha.trans hn.regs, w, hw, by rw [hj, hx, ← ht, hf j v l hl.symm]⟩
    · have hq := ha.trans hq.regs
      exact (ih (j + 1) ht hu).mono (fun _ => hq.trans) fun _ h => ⟨hq.trans h.1, h.2⟩

theorem writeBuf_beside (N n j : Nat) (hn : j + n = N) {s s' : State} (h : Skips rest s s') :
    (writeBuf n j s).Beside rest (SameRegs s) (fun t x => SameRegs s t ∧ ∃ w, restOfSlot t = .write w ∧
      x = (restOfByteOut (t.bufByte t.pos.byte) t.pos.bit w).andThen fun _ s => writeBuf (N - (t.pos.byte + 1)) (t.pos.byte + 1) s)
      (writeBuf n j s') := by
  induction n generalizing j s s' with
  | zero => exact .ok _ h (.refl s)
  | succ n ih =>
    have ha : SameRegs s (s.atByte j) := ⟨rfl, rfl, rfl, rfl, rfl, rfl, rfl⟩
    have hv : s'.bufByte j = s.bufByte j := by
      obtain ⟨l, rfl⟩ := h.setHost_eq
      rfl
    rw [writeBuf, writeBuf, hv]
    refine (writeByte_beside _ (h.map (fun s => s.atByte j) (fun _ _ => rfl) rfl)).andThen (fun t x ⟨hr, w, hw, hx⟩ => ?_)
      fun _ u u' hu hq => ?_
    · have hj : t.pos.byte = j := hr.byte
      have hr := ha.trans hr.regs
      exact ⟨hr, w, hw, by rw [hj, hr.bufByte, hx, show N - (j + 1) = n by omega]⟩
    · have hq := ha.trans hq.regs
      exact (ih (j + 1) (by omega) hu).mono (fun _ => hq.trans) fun _ h => ⟨hq.trans h.1, h.2⟩

theorem readBytes_beside (n : Nat) (vs : List Byte) (hn : vs.length + n = 8) {s s' : State} (h : Skips rest s s') :
    (readBytes n vs s).Beside rest (SameRegs s) (fun t x => SameRegs s t ∧ ∃ w, restOfSlot t = .read w ∧
      x = (restOfByteIn t.tmp.bits w).andThen fun v s' => readBytes (7 - t.tmp.rbuf.length) (t.tmp.rbuf ++ [v]) s')
      (readBytes n vs s') := by
  induction n generalizing vs s s' with
  | zero => exact .ok _ h (.refl s)
  | succ n ih =>
    have ha : SameRegs s (s.withRbuf vs) := ⟨rfl, rfl, rfl, rfl, rfl, rfl, rfl⟩
    refine (readByte_beside (h.map (fun s => s.withRbuf vs) (fun _ _ => rfl) rfl)).andThen (fun t x ⟨hr, w, hw, hx⟩ => ?_)
      fun v u u' hu hq => ?_
    · have hv : t.tmp.rbuf = vs := hr.rbuf
      exact ⟨ha.trans hr.regs, w, hw, by rw [hv, hx, show 7 - vs.length = n by omega]⟩
    · have hq := ha.trans hq.regs
      exact (ih (vs ++ [v]) (by simp; omega) hu).mono (fun _ => hq.trans) fun _ h => ⟨hq.trans h.1, h.2⟩

theorem Skips.setBufByte {s s' : State} (h : Skips rest s s') (j : Nat) (v : Byte) :
    Skips rest (s.setBufByte j v) (s'.setBufByte j v) :=
  h.map (fun s => s.setBufByte j v) (fun u l => by by_cases hj : j < u.cfg.bufSize <;> simp [State.setBufByte, hj, State.setHost])
    (by simp only [State.setBufByte]; split <;> rfl)

theorem readBuf_beside (N n j : Nat) (hn : j + n = N) {s s' : State} (h : Skips rest s s') :
    (readBuf n j s).Beside rest (fun u => u.seq = s.seq) (fun t x => t.seq = s.seq ∧ ∃ w, restOfSlot t = .read w ∧
      x = (restOfByteIn t.tmp.bits w).andThen fun v s => readBuf (N - (t.pos.byte + 1)) (t.pos.byte + 1) (s.setBufByte t.pos.byte v))
      (readBuf n j s') := by
  induction n generalizing j s s' with
  | zero => exact .ok _ h rfl
  | succ n ih =>
    refine (readByte_beside (h.map (fun s => s.atByte j) (fun _ _ => rfl) rfl)).andThen (fun t x ⟨hr, w, hw, hx⟩ => ?_)
      fun v u u' hu hq => ?_
    · have hj : t.pos.byte = j := hr.byte
      exact ⟨hr.regs.seq, w, hw, by rw [hj, hx, show N - (j + 1) = n by omega]⟩
    · have hq : (u.setBufByte j v).seq = s.seq := by
        have : u.seq = s.seq := hq.regs.seq
        simp only [State.setBufByte]
        split <;> exact this
      exact (ih (j + 1) (by omega) (hu.setBufByte j v)).mono (fun _ h => h.trans hq) fun _ h => ⟨h.1.trans hq, h.2⟩

/-! ## The search pass -/

/-- Stopped in a pass. -/
def PassRest (w : Walked) (s t : State) (x : Ran (ResultCode × Cursor)) : Prop := t.seq = s.seq ∧ restOfPass w t = some x

theorem PassRest.of_seq {w : Walked} {s u t : State} {x : Ran (ResultCode × Cursor)} (h : u.seq = s.seq) (h' : PassRest w u t x) :
    PassRest w s t x := ⟨h'.1.trans h, h'.2⟩

/-- The pass in hand is where the state keeps it. -/
theorem Near.passOf {s t : State} (h : Near s t) (w : Walked) : t.passOf w = s.passOf w := by
  cases w <;> simp only [State.passOf, State.walked, h.tmp, h.regs.cursor, h.regs.rom]

theorem Skips.walk {s s' : State} (h : Skips rest s s') (w : Walked) (c : Cursor) : Skips rest (s.walk w c) (s'.walk w c) :=
  h.map (fun s => s.walk w c) (fun _ _ => by cases w <;> rfl) (by simp)

theorem Skips.withPass {s s' : State} (h : Skips rest s s') (w : Walked) (p : Pass) : Skips rest (s.withPass w p) (s'.withPass w p) :=
  (h.walk w p.cursor).map (fun s => s.withLastZero p.lastZero) (fun _ _ => rfl) rfl

theorem searchBits_beside (w : Walked) (n k : Nat) (p : Pass) (hn : k + n = 65) {s s' : State} (h : Skips rest s s')
    (hp : s.passOf w = some p) :
    (searchBits w n k p s).Beside rest (fun u => u.seq = s.seq) (fun t x => PassRest w s t (x.andThen (passEnd w)))
      (searchBits w n k p s') := by
  induction n generalizing k p s s' with
  | zero => exact .ok _ h rfl
  | succ n ih =>
    have hk : 64 - k = n := by omega
    have ha : ∀ a (u : State), (u.atPair k a).passOf w = u.passOf w := fun _ _ => by cases w <;> rfl
    refine (readBit_beside (h.map (fun s => s.atPair k none) (fun _ _ => rfl) rfl)).andThen (fun t x ⟨hr, hx⟩ => ?_)
      fun a u u' hu hq => ?_
    · have ht : t.passOf w = some p := (hr.passOf w).trans ((ha none s).trans hp)
      exact ⟨hr.regs.seq, by simp [restOfPass, hx, ht, hr.tmp, hr.bit, hk]⟩
    have hup : u.passOf w = some p := (hq.passOf w).trans ((ha none s).trans hp)
    have hus : u.seq = s.seq := hq.regs.seq
    refine (readBit_beside (h := hu.map (fun s => s.atPair k (some a)) (fun _ _ => rfl) rfl)).andThen (fun t x ⟨hr, hx⟩ => ?_)
      fun c v v' hv hq' => ?_
    · have ht : t.passOf w = some p := (hr.passOf w).trans ((ha (some a) u).trans hup)
      exact ⟨hr.regs.seq.trans hus, by simp [restOfPass, hx, ht, hr.tmp, hr.bit, hk]⟩
    have hvs : v.seq = s.seq := hq'.regs.seq.trans hus
    unfold searchTurn
    split
    · exact .ok _ hv hvs
    · rename_i dir p' _
      have hs : ∀ z : State, ((z.withPass w p').atPair k none).seq = z.seq := fun z => by simp
      refine (writeBit_beside ((hv.withPass w p').map (fun s => s.atPair k none) (fun _ _ => rfl) rfl) dir).andThen
        (fun t x ⟨hr, hb, hx⟩ => ?_) fun _ z z' hz hqz => ?_
      · have ht : t.passOf w = some p' := (hr.passOf w).trans ((ha none _).trans (by simp))
        exact ⟨hr.regs.seq.trans ((hs v).trans hvs), by simp [restOfPass, hx, ht, hb, hr.bit, hk]⟩
      · have hzs : (z.withPass w (p'.turn k dir)).seq = s.seq := by
          rw [State.withPass_seq, hqz.regs.seq, hs, hvs]
        exact (ih (k + 1) _ (by omega) (hz.withPass w _) (by simp)).mono (fun _ h => h.trans hzs) fun _ => .of_seq hzs

theorem conclude_beside {s s' : State} {R : State → Ran (ResultCode × Cursor) → Prop} (w : Walked) (r : ResultCode × Cursor)
    (h : Skips rest s s') : (conclude w r s).Beside rest (fun u => u.seq = s.seq) R (conclude w r s') :=
  .ok _ (h.walk w r.2) (by simp)

theorem passEnd_beside {s s' : State} {R : State → Ran (ResultCode × Cursor) → Prop} (w : Walked) (r : Bool × Pass)
    (h : Skips rest s s') : (passEnd w r s).Beside rest (fun u => u.seq = s.seq) R (passEnd w r s') := by
  unfold passEnd
  rw [h.cfg]
  exact conclude_beside w _ h

theorem searchStep_beside (w : Walked) (c : Cursor) {s s' : State} (h : Skips rest s s') (hp : s.tmp.lastZero = none)
    (hc : s.walked w = c) :
    (searchStep w c s).Beside rest (fun u => u.seq = s.seq) (PassRest w s) (searchStep w c s') := by
  unfold searchStep
  split
  · exact conclude_beside w _ h
  have hwalk : ∀ {u : State}, InByte s u → u.walked w = c := fun {u} hu => by
    rw [← hc]
    cases w <;> simp [State.walked, hu.regs.cursor, hu.regs.rom, hu.own]
  refine (resetPresence_beside h).andThen
    (fun t x ⟨hn, hx⟩ => ⟨hn.regs.seq, by simp [restOfPass, hx, hwalk hn.inByte]⟩) fun p u u' hu hq => ?_
  have hus : u.seq = s.seq := hq.regs.seq
  unfold passAfterReset
  split
  · exact (conclude_beside w _ hu).mono (fun _ h => h.trans hus) fun _ h => h
  rw [hu.cfg]
  refine (writeByte_beside _ hu).andThen (fun t x ⟨hn, y, hy, hx⟩ => ⟨hn.regs.seq.trans hus, ?_⟩) fun _ v v' hv hq' => ?_
  · have : t.passOf w = none := by simp [State.passOf, hn.lastZero, hq.tmp, hp]
    simp [restOfPass, hy, this, hx, hn.regs.cfg, hwalk (hq.inByte.trans hn)]
  have hw : (v.withLastZero 0).passOf w = some { cursor := c, lastZero := 0 } := by
    have : (v.withLastZero 0).walked w = c := by
      rw [← hwalk (hq.inByte.trans hq')]
      cases w <;> rfl
    simp [State.passOf, this]
  have hvs : (v.withLastZero 0).seq = s.seq := hq'.regs.seq.trans hus
  refine (searchBits_beside w 64 1 _ rfl (hv.map (fun s => s.withLastZero 0) (fun _ _ => rfl) rfl) hw).andThen
    (fun t x hx => hx.of_seq hvs) fun r z z' hz hqz => ?_
  exact (passEnd_beside w r hz).mono (fun _ h => h.trans (hqz.trans hvs)) fun _ => .of_seq (hqz.trans hvs)

/-! ## Commands -/

/-- Stopped in command `i`: it stands past its start, and `x` is the rest of it. -/
def Stands (i : Instr) (s t : State) (x : Ran Unit) : Prop := t.seq = s.seq ∧ t.pos.place ≠ .start ∧ restOf i t = some x

theorem Stands.of_seq {i : Instr} {s u t : State} {x : Ran Unit} (h : u.seq = s.seq) (h' : Stands i u t x) : Stands i s t x :=
  ⟨h'.1.trans h, h'.2⟩

/-- A phase of a body is a place past the checks. -/
theorem Stands.of_body {i : Instr} {s t : State} {x : Ran Unit} (hs : t.seq = s.seq) (h : restOfBody i t = some x) : Stands i s t x := by
  have hn : restOfSlot t ≠ .none := fun hn => by cases i <;> simp [restOfBody, restOfPass, hn] at h
  have : t.pos.place ≠ .start ∧ restOf i t = restOfBody i t := by
    revert hn
    unfold restOfSlot restOf
    cases t.pos.place <;> simp
  exact ⟨hs, this.1, this.2.trans h⟩

/-- A command that has come to its end leaves the engine idle. -/
def Over (u : State) : Prop := u.seq = .idle

theorem finish_beside (i : Instr) (code : ResultCode) {s s' : State} (h : Skips rest s s') :
    (finish code s).Beside rest Over (Stands i s) (finish code s') := by
  refine (stand_beside h (.last code)).andThen (fun t x ⟨hp, hn, hx⟩ => ⟨hn.regs.seq, by simp [hp], by simp [restOf, hp, hx, Ran.complete]⟩)
    fun _ u u' hu _ => ?_
  exact .ok _ (hu.map (fun s => s.complete code) (fun _ _ => rfl) rfl) rfl

theorem searchCommandEnd_beside (i : Instr) (r : ResultCode × Cursor) {s s' : State} (h : Skips rest s s') :
    (searchCommandEnd r s).Beside rest Over (Stands i s) (searchCommandEnd r s') :=
  finish_beside i r.1 (h.map (fun s => s.setFound (r.1 == .ok)) (fun _ _ => rfl) rfl)

/-- The body of every command, from a state in which no temporary has a value. -/
theorem body_beside (i : Instr) {s s' : State} (h : Skips rest s s') (ht : s.tmp = .none) :
    (bodyOf i s).Beside rest Over (Stands i s) (bodyOf i s') := by
  have hp : s.tmp.lastZero = none := by rw [ht]; rfl
  have hreg : s'.rom = s.rom ∧ s'.cursor = s.cursor ∧ s'.acc = s.acc ∧ ∀ n j, bufBytes s' n j = bufBytes s n j := by
    obtain ⟨l, rfl⟩ := h.setHost_eq
    exact ⟨rfl, rfl, rfl, fun _ _ => rfl⟩
  obtain ⟨hrom, hcur, hacc, hbuf⟩ := hreg
  have hend : ∀ (f : State → State), (∀ u l, f (u.setHost l) = (f u).setHost l) → (∀ u, (f u).env.host = u.env.host) →
      (∀ u, (f u).seq = u.seq) → ∀ code {u u' : State}, Skips rest u u' → u.seq = s.seq →
        (finish code (f u)).Beside rest Over (Stands i s) (finish code (f u')) :=
    fun f h1 h2 h3 code u u' hu hq => (finish_beside i code (hu.map f h1 (h2 u))).mono (fun _ h => h) fun _ => .of_seq ((h3 u).trans hq)
  have hid : ∀ code {u u' : State}, Skips rest u u' → u.seq = s.seq →
      (finish code u).Beside rest Over (Stands i s) (finish code u') := hend id (fun _ _ => rfl) (fun _ => rfl) fun _ => rfl
  cases i with
  | reset =>
    exact (resetPresence_beside h).andThen (fun t x ⟨hn, hx⟩ => .of_body hn.regs.seq (by simp [restOfBody, hx]))
      fun p u u' hu hq => hid _ hu hq.regs.seq
  | writeBit b =>
    exact (writeBit_beside h b).andThen (fun t x ⟨hn, _, hx⟩ => .of_body hn.regs.seq (by simp [restOfBody, hx]))
      fun _ u u' hu hq => hid _ hu hq.regs.seq
  | readBit =>
    exact (readBit_beside h).andThen (fun t x ⟨hn, hx⟩ => .of_body hn.regs.seq (by simp [restOfBody, hx]))
      fun v u u' hu hq => hend (fun s => s.setData (if v then 1 else 0)) (fun _ _ => rfl) (fun _ => rfl) (fun _ => rfl) _ hu hq.regs.seq
  | writeByte v =>
    exact (writeByte_beside v h).andThen (fun t x ⟨hn, w, hw, hx⟩ => .of_body hn.regs.seq (by simp [restOfBody, hw, hx]))
      fun _ u u' hu hq => hid _ hu hq.regs.seq
  | readByte =>
    exact (readByte_beside h).andThen (fun t x ⟨hn, w, hw, hx⟩ => .of_body hn.regs.seq (by simp [restOfBody, hw, hx]))
      fun v u u' hu hq => hend (fun s => s.setData v) (fun _ _ => rfl) (fun _ => rfl) (fun _ => rfl) _ hu hq.regs.seq
  | writeBlock n =>
    exact (writeBuf_beside n.toNat n.toNat 0 (by omega) h).andThen
      (fun t x ⟨hn, w, hw, hx⟩ => .of_body hn.seq (by simp [restOfBody, hw, hx])) fun _ u u' hu hq => hid _ hu hq.seq
  | readBlock n =>
    exact (readBuf_beside n.toNat n.toNat 0 (by omega) h).andThen
      (fun t x ⟨hn, w, hw, hx⟩ => .of_body hn (by simp [restOfBody, hw, hx])) fun _ u u' hu hq => hid _ hu hq
  | writeRomCode =>
    show (bodyWriteRomCode s).Beside rest Over _ (bodyWriteRomCode s')
    unfold bodyWriteRomCode
    rw [hrom]
    refine (writeBytes_beside (romBytes s.rom) (romByte s.rom) 0 _ rfl ?_ h).andThen
      (fun t x ⟨hn, w, hw, hx⟩ => .of_body hn.seq (by simp [restOfBody, hw, hx, hn.rom])) fun _ u u' hu hq => hid _ hu hq.seq
    intro j v l hj
    match j, hj with
    | 0, hj | 1, hj | 2, hj | 3, hj | 4, hj | 5, hj | 6, hj | 7, hj => exact (List.cons.inj hj).1.symm
    | j + 8, hj => simp [romBytes] at hj
  | readRom =>
    refine (resetPresence_beside h).andThen (fun t x ⟨hn, hx⟩ => .of_body hn.regs.seq (by simp [restOfBody, hx]))
      fun p u u' hu hq => ?_
    have hz : ∀ c code {u u' : State}, Skips rest u u' → u.seq = s.seq →
        (finish code (u.setRom c)).Beside rest Over (Stands .readRom s) (finish code (u'.setRom c)) :=
      fun c => hend (fun s => s.setRom c) (fun _ _ => rfl) (fun _ => rfl) fun _ => rfl
    unfold readRomAfterReset
    split
    · exact hz 0 _ hu hq.regs.seq
    rw [hu.cfg]
    refine (writeByte_beside _ hu).andThen
      (fun t x ⟨hn, w, hw, hx⟩ => .of_body (hn.regs.seq.trans hq.regs.seq) (by simp [restOfBody, hw, hx, hn.regs.cfg]))
      fun _ v v' hv hqv => ?_
    have hqv := hqv.regs.seq.trans hq.regs.seq
    refine (readBytes_beside 8 [] rfl hv).andThen (fun t x ⟨hn, w, hw, hx⟩ => .of_body (hn.seq.trans hqv) (by simp [restOfBody, hw, hx]))
      fun r w w' hw hqw => ?_
    have hc : w'.ctrl = w.ctrl := by
      obtain ⟨l, rfl⟩ := hw.setHost_eq
      rfl
    unfold readRomEnd
    rw [hc]
    split <;> exact hz _ _ hw (hqw.seq.trans hqv)
  | searchFirst =>
    exact (searchStep_beside .registers (Cursor.fresh 0) (h.map (fun s => s.setCursor (Cursor.fresh 0)) (fun _ _ => rfl) rfl) hp
      rfl).andThen (fun t x ⟨hn, hx⟩ => .of_body hn (by simp [restOfBody, hx])) fun r u u' hu hq =>
        (searchCommandEnd_beside .searchFirst r hu).mono (fun _ h => h) fun _ => .of_seq hq
  | searchNext =>
    show (bodySearchNext s).Beside rest Over _ (bodySearchNext s')
    unfold bodySearchNext
    rw [hcur]
    exact (searchStep_beside .registers s.cursor h hp rfl).andThen
      (fun t x ⟨hn, hx⟩ => .of_body hn (by simp [restOfBody, hx])) fun r u u' hu hq =>
        (searchCommandEnd_beside .searchNext r hu).mono (fun _ h => h) fun _ => .of_seq hq
  | verifyRom =>
    show (bodyVerifyRom s).Beside rest Over _ (bodyVerifyRom s')
    unfold bodyVerifyRom
    rw [hrom]
    refine (searchStep_beside .own (verifyCursor s.rom) (h.walk .own _) hp rfl).andThen
      (fun t x ⟨hn, hx⟩ => .of_body hn (by simp [restOfBody, hx])) fun r u u' hu hq => ?_
    have hr : u'.rom = u.rom := by
      obtain ⟨l, rfl⟩ := hu.setHost_eq
      rfl
    unfold verifyEnd
    rw [hr]
    exact hend (fun w => w.setFound (verifyResult u.rom r == .ok)) (fun _ _ => rfl) (fun _ => rfl) (fun _ => rfl) _ hu hq
  | crc8Step b =>
    show (bodyCrc8Step b s).Beside rest Over _ (bodyCrc8Step b s')
    unfold bodyCrc8Step
    rw [hacc]
    exact hend (fun w => w.setAcc (crc8 s.acc b)) (fun _ _ => rfl) (fun _ => rfl) (fun _ => rfl) _ h rfl
  | crc8Block n =>
    show (bodyCrc8Block n s).Beside rest Over _ (bodyCrc8Block n s')
    unfold bodyCrc8Block
    rw [hacc, hbuf]
    exact hend (fun w => w.setAcc (crc8Bytes s.acc (bufBytes s n.toNat 0))) (fun _ _ => rfl) (fun _ => rfl) (fun _ => rfl) _ h rfl

/-- A command from its start, with a look to come: stopped by it, it stands where the rest of it is the command as it would have gone
on without the look. -/
theorem command_beside (i : Instr) {s s' : State} (h : Skips rest s s') (ht : s.tmp = .none) :
    ((point (s.stand .checks)).checked i (bodyOf i)).Beside rest Over (Stands i s)
      ((point (s'.stand .checks)).checked i (bodyOf i)) := by
  refine (stand_beside h .checks).andThen (fun t x ⟨hp, hn, hx⟩ => ⟨hn.regs.seq, by simp [hp], by simp [restOf, hp, hx, Ran.checked]⟩)
    fun _ u u' hu hq => ?_
  have hp : prologue i u' = prologue i u := by
    obtain ⟨l, rfl⟩ := hu.setHost_eq
    rfl
  simp only [hp]
  split
  · exact (finish_beside i _ hu).mono (fun _ h => h) fun _ => .of_seq hq.regs.seq
  · exact (body_beside i hu (hq.tmp.trans ht)).mono (fun _ h => h) fun _ => .of_seq hq.regs.seq

/-- The same of an illegal word's run. -/
theorem illegal_beside {s s' : State} (h : Skips rest s s') :
    (point (s.stand .checks)).illegal.Beside rest Over
      (fun t x => t.seq = s.seq ∧ t.pos.place ≠ .start ∧ restOfIllegal t = some x) (point (s'.stand .checks)).illegal := by
  refine (stand_beside h .checks).andThen
    (fun t x ⟨hp, hn, hx⟩ => ⟨hn.regs.seq, by simp [hp], by simp [restOfIllegal, hp, hx, Ran.illegal]⟩) fun _ u u' hu hq => ?_
  refine (stand_beside hu (.last .illegalCommand)).andThen
    (fun t x ⟨hp, hn, hx⟩ => ⟨hn.regs.seq.trans hq.regs.seq, by simp [hp], by simp [restOfIllegal, hp, hx, Ran.complete]⟩)
    fun _ w w' hw _ => ?_
  exact .ok _ (hw.map (fun s => s.complete .illegalCommand) (fun _ _ => rfl) rfl) rfl

/-- A run that leaves the engine in the command has been stopped by the look. -/
theorem Ran.Beside.stopped_of_busy {R : State → Ran Unit → Prop} {r r' : Ran Unit} {t : State} (h : r.Beside rest Over R r')
    (ho : r.outcome = .next t) (hb : t.seq ≠ .idle) : t.env.host = rest ∧ R t r' := by
  cases r with
  | ok a u =>
    obtain ⟨_, _, _, hu⟩ := h
    exact absurd (Host.Outcome.next.inj ho ▸ hu) hb
  | cut u => exact absurd (Host.Outcome.next.inj ho ▸ h) hb
  | stopped u => exact Host.Outcome.next.inj ho ▸ h

end Sys2Proof.Machine
end

