-- ==== Sys2Proof/Laws/PerInstr.lean ====
section
/-! SUPPORT. Per-command facts about the syntax: the word the assembler writes carries the command's OPCODE, IMM8 and LEN in the
places R90 gives them. -/

namespace Sys2Proof.Laws

theorem packWord_fields (len : Half) (imm op : Byte) :
    opcodeField (packWord len imm op) = op ∧ immField (packWord len imm op) = imm ∧ lenField (packWord len imm op) = len := by
  refine ⟨?_, ?_, ?_⟩ <;>
    refine BitVec.eq_of_getLsbD_eq fun i hi => ?_ <;>
    simp only [opcodeField, immField, lenField, packWord, BitVec.getLsbD_extractLsb', BitVec.getLsbD_append, hi, decide_true,
      Bool.true_and]
  · simp [hi]
  · rw [if_neg (by omega), if_pos (by omega)]
    congr 1
    omega
  · rw [if_neg (by omega), if_neg (by omega)]
    congr 1
    omega

/-- The fields of the encoded word (R90, R97). -/
def WordFields.Statement (i : Instr) : Prop :=
  opcodeField (encode i) = i.opcode ∧ immField (encode i) = i.imm ∧ lenField (encode i) = i.len

theorem WordFields.reset : WordFields.Statement .reset := packWord_fields _ _ _
theorem WordFields.writeBit (b : Bool) : WordFields.Statement (.writeBit b) := packWord_fields _ _ _
theorem WordFields.readBit : WordFields.Statement .readBit := packWord_fields _ _ _
theorem WordFields.writeByte (v : Byte) : WordFields.Statement (.writeByte v) := packWord_fields _ _ _
theorem WordFields.readByte : WordFields.Statement .readByte := packWord_fields _ _ _
theorem WordFields.writeBlock (n : Half) : WordFields.Statement (.writeBlock n) := packWord_fields _ _ _
theorem WordFields.readBlock (n : Half) : WordFields.Statement (.readBlock n) := packWord_fields _ _ _
theorem WordFields.writeRomCode : WordFields.Statement .writeRomCode := packWord_fields _ _ _
theorem WordFields.readRom : WordFields.Statement .readRom := packWord_fields _ _ _
theorem WordFields.searchFirst : WordFields.Statement .searchFirst := packWord_fields _ _ _
theorem WordFields.searchNext : WordFields.Statement .searchNext := packWord_fields _ _ _
theorem WordFields.verifyRom : WordFields.Statement .verifyRom := packWord_fields _ _ _
theorem WordFields.crc8Step (b : Byte) : WordFields.Statement (.crc8Step b) := packWord_fields _ _ _
theorem WordFields.crc8Block (n : Half) : WordFields.Statement (.crc8Block n) := packWord_fields _ _ _

end Sys2Proof.Laws
end

