-- ==== Sys2Proof/Tests/Slice0.lean ====
section
/-! SUPPORT. Tests against the vectors of 95_test_vectors.md and the words of R97, and for every statement with hypotheses a
witness that they can be met. Expected values are the spec's; lengths of phases are free and are not compared. -/

namespace Sys2Proof.Machine.Tests

/-! ## Helpers -/

/-- The start state of 95_test_vectors.md section 3: reset, then EN = 1. -/
def ready : State := { State.reset with ctrl := { en := true, crcEn := false } }

/-- The same with CRC_EN = 1. -/
def readyCrc : State := { State.reset with ctrl := { en := true, crcEn := true } }

/-- The next levels of the line. -/
def onLine (l : List Bool) (s : State) : State := { s with env := { s.env with line := l } }

/-- The host's accesses to come. -/
def withHost (h : List HostReq) (s : State) : State := s.setHost h

/-- Something seen in the next state, if there is one. -/
def seen {α : Type} (f : State → α) (o : Host.Outcome State Fault Refusal) : Option α :=
  match o with
  | .next s => some (f s)
  | _ => none

/-- STATUS as the host reads it. -/
def status (s : State) : Word := readAt 0x008 s

/-- A trace without the lengths of its phases. -/
def shape (s : State) : List Expect :=
  s.env.trace.map fun e =>
    match e with
    | .low _ => .low 0
    | .rel _ => .rel 0
    | .smp v => .smp v
    | .cut .low => .low 1
    | .cut .released => .rel 1

/-- A write slot without lengths. -/
def wSlot : List Expect := [.low 0, .rel 0]

/-- A read slot without lengths. -/
def rSlot (v : Bool) : List Expect := [.low 0, .rel 0, .smp v, .rel 0]

/-- A bus reset without lengths. -/
def rst (s1 s2 : Bool) : List Expect := [.rel 0, .low 0, .rel 0, .smp s1, .rel 0, .smp s2]

/-- 0 and 1 as levels. -/
def lv (l : List Nat) : List Bool := l.map (· == 1)

/-- D1 = 28 FF 4C 60 91 16 04 B4. -/
def d1 : RomCode := 0xB4041691604CFF28

/-- D2 = 28 01 02 03 04 05 06 9E. -/
def d2 : RomCode := 0x9E06050403020128

/-- D3 = 10 AA 00 00 00 00 00 68. -/
def d3 : RomCode := 0x680000000000AA10

/-- The levels of a bit string on the wire, position 1 first. -/
def codeLevels (c : RomCode) : List Bool := (List.range 64).map c.getLsbD

/-- BUF holds these bytes from index 0 on. -/
def withBytes (l : List Byte) (s : State) : State := { s with buf := l.mapIdx fun i v => (i, v) }

/-! ## WellFormed: a good line and an ill-formed one for each check (R97) -/

theorem test_wf_bit : AsmLine.wellFormed (.writeBit 1) = true ∧ AsmLine.wellFormed (.writeBit 2) = false := by decide
theorem test_wf_byte : AsmLine.wellFormed (.writeByte 255) = true ∧ AsmLine.wellFormed (.writeByte 256) = false := by decide
theorem test_wf_crc_step : AsmLine.wellFormed (.crc8Step 255) = true ∧ AsmLine.wellFormed (.crc8Step 256) = false := by decide
theorem test_wf_write_block : AsmLine.wellFormed (.writeBlock 65535) = true ∧ AsmLine.wellFormed (.writeBlock 65536) = false := by decide
theorem test_wf_read_block : AsmLine.wellFormed (.readBlock 65535) = true ∧ AsmLine.wellFormed (.readBlock 65536) = false := by decide
theorem test_wf_crc_block : AsmLine.wellFormed (.crc8Block 65535) = true ∧ AsmLine.wellFormed (.crc8Block 65536) = false := by decide
theorem test_wf_wr_value : AsmLine.wellFormed (.wr .romLo 0xFFFFFFFF) = true ∧ AsmLine.wellFormed (.wr .romLo 0x100000000) = false := by decide
theorem test_wf_wr_reg : AsmLine.wellFormed (.wr (.buf 63) 0) = true ∧ AsmLine.wellFormed (.wr (.buf 64) 0) = false := by decide
theorem test_wf_rd_reg : AsmLine.wellFormed (.rd (.buf 63)) = true ∧ AsmLine.wellFormed (.rd (.buf 64)) = false := by decide
theorem test_wf_check : AsmLine.wellFormed (.check 15) = true ∧ AsmLine.wellFormed (.check 16) = false := by decide
/-- R100: MATCH_ROM is WRITE_BYTE 0x55, WAIT, WRITE_ROM_CODE; a WAIT polls, also a closing one. -/
theorem test_assemble_match_rom :
    assemble [[3], [1]] [.matchRom, .wait] = some [⟨.during 0, .write 0x004 4 0x5504⟩, ⟨.during 3, .poll false⟩, ⟨.whenIdle, .poll true⟩,
      ⟨.during 0, .write 0x004 4 0x0008⟩, ⟨.during 1, .poll false⟩, ⟨.whenIdle, .poll true⟩] := by decide
theorem test_assemble_refuses : assemble [] [.reset, .writeBit 2] = none := by decide

/-- R100: the polls of a WAIT: BUSY = 1 while CRC8_STEP runs, BUSY = 0 after it, with DONE = 1. -/
theorem test_wait_replies :
    seen (fun s => s.env.replies)
      (step ((withHost [⟨.during 1, .poll false⟩, ⟨.during 2, .poll false⟩, ⟨.whenIdle, .poll true⟩] State.reset).withFetchWord 32 0x110)) =
      some [1, 1] ∧
    seen (fun s => (s.env.replies, s.env.host))
      (step (withHost [⟨.during 9, .poll false⟩, ⟨.whenIdle, .poll true⟩, ⟨.during 0, .read 0x00C 4⟩]
        { State.reset with flags := ⟨true, false, false, false, .ok⟩ })) =
      some ([2], [⟨.during 0, .read 0x00C 4⟩]) := by decide +kernel

/-! ## Decoding: a word written out for every command (R90, R91, R97) -/

theorem test_decode_reset : decodeWord 0x00000001 = .ok .reset ∧ decodeWord 0xFFFFFF01 = .ok .reset := by decide
theorem test_decode_write_bit :
    decodeWord 0x00000102 = .ok (.writeBit true) ∧ decodeWord 0x0000FE02 = .ok (.writeBit false) := by decide
theorem test_decode_read_bit : decodeWord 0x00000003 = .ok .readBit := by decide
theorem test_decode_write_byte : decodeWord 0x0000A504 = .ok (.writeByte 0xA5) := by decide
theorem test_decode_read_byte : decodeWord 0x00000005 = .ok .readByte := by decide
theorem test_decode_write_block : decodeWord 0x01000006 = .ok (.writeBlock 256) := by decide
theorem test_decode_read_block : decodeWord 0x00090007 = .ok (.readBlock 9) := by decide
theorem test_decode_write_rom_code : decodeWord 0x00000008 = .ok .writeRomCode := by decide
theorem test_decode_read_rom : decodeWord 0x00000009 = .ok .readRom := by decide
theorem test_decode_search_first : decodeWord 0x0000000A = .ok .searchFirst := by decide
theorem test_decode_search_next : decodeWord 0x0000000B = .ok .searchNext := by decide
theorem test_decode_verify_rom : decodeWord 0x0000000C = .ok .verifyRom := by decide
theorem test_decode_crc_step : decodeWord 0x00000110 = .ok (.crc8Step 1) ∧ decodeWord 0x0000FF10 = .ok (.crc8Step 0xFF) := by decide
theorem test_decode_crc_block : decodeWord 0x00080011 = .ok (.crc8Block 8) := by decide
/-- P-1 to P-3. -/
theorem test_decode_illegal :
    decodeWord 0x00 = .error (.illegalOpcode 0x00) ∧ decodeWord 0x0D = .error (.illegalOpcode 0x0D) ∧
    decodeWord 0x0F = .error (.illegalOpcode 0x0F) ∧ decodeWord 0x12 = .error (.illegalOpcode 0x12) ∧
    decodeWord 0xFFFFFFFF = .error (.illegalOpcode 0xFF) := by decide +kernel
theorem test_decode_table_word : decodeTableWord 32 0x0000A504 = some (.writeByte 0xA5) ∧ decodeTableWord 8 0x0B = some .searchNext := by
  decide +kernel

/-! ## Encoding and prologue (95_test_vectors.md 3.1) -/

/-- P-4: the opcode is checked before EN. -/
theorem test_prologue_illegal : seen status (step (State.reset.withFetchWord 32 0x0000000D)) = some 0x00000702 := by decide +kernel
/-- P-5, P-6. -/
theorem test_prologue_enable :
    seen status (step (State.reset.withFetchWord 32 0x00000001)) = some 0x00000502 ∧
    seen status (step (State.reset.withFetchWord 32 0x00010006)) = some 0x00000502 := by decide +kernel
/-- P-7, P-10. -/
theorem test_prologue_length :
    seen status (step (ready.withFetchWord 32 0x01010006)) = some 0x00000502 ∧
    seen status (step (State.reset.withFetchWord 32 0x01010011)) = some 0x00000502 := by decide +kernel

/-! ## Host register access (95_test_vectors.md 3.2) -/

/-- M-1. -/
theorem test_rom_words :
    (writeAt 0x018 0xB4041691 (writeAt 0x014 0x604CFF28 ready)).rom = d1 ∧ readAt 0x014 { ready with rom := d1 } = 0x604CFF28 := by
  decide
/-- M-2, M-3, M-4. -/
theorem test_packed_registers :
    readAt 0x024 (writeAt 0x024 0xFFFFFFFF ready) = 0x00010F7F ∧ readAt 0x000 (writeAt 0x000 0xFFFFFFFF ready) = 0x00000003 ∧
    readAt 0x010 (writeAt 0x010 0x123456A7 ready) = 0x000000A7 := by decide
/-- M-6, M-14. -/
theorem test_reserved_and_info :
    readAt 0x02C ready = 0 ∧ readAt 0x0FC ready = 0 ∧ readAt 0x200 ready = 0 ∧ readAt 0x028 ready = 0x00000100 := by decide
/-- M-7. -/
theorem test_buffer_word : ((List.range 4).map (writeAt 0x100 0x464B0550 ready).bufByte) = [0x50, 0x05, 0x4B, 0x46] := by decide
/-- M-8. -/
theorem test_buffer_end :
    readAt 0x104 (writeAt 0x104 0xDDCCBBAA { ready with cfg := { Params.default with bufSize := 6 } }) = 0x0000BBAA := by decide
/-- M-9, M-10: writes of CTRL and CMD while RESET runs are dropped with OVR. -/
theorem test_busy_writes_dropped :
    seen (fun s => (s.ctrl.en, s.cmd, s.flags.ovr, s.seq))
      (step (((withHost [⟨.during 3, .write 0x000 4 0⟩, ⟨.during 0, .write 0x004 4 9⟩] ready).withFetchWord 32 1))) =
      some (true, 1, true, .idle) := by decide +kernel
/-- M-11, M-12. -/
theorem test_status_w1c :
    status (writeAt 0x008 0x4 { ready with flags := ⟨true, true, false, false, .ok⟩ }) = 0x00000002 ∧
    status (writeAt 0x008 0xFFFFFFFF { ready with flags := ⟨true, true, true, true, .notFound⟩ }) = 0x00000618 := by decide
/-- M-13. -/
theorem test_unadmitted_access :
    step (withHost [⟨.whenIdle, .read 0x014 1⟩] ready) = .refused (.unadmittedAccess 0x014 1) ∧
    step (withHost [⟨.whenIdle, .read 0x016 4⟩] ready) = .refused (.unadmittedAccess 0x016 4) := ⟨rfl, rfl⟩

/-! ## Bus physical layer (95_test_vectors.md 3.3) -/

/-- B1, B3. -/
theorem test_reset :
    seen (fun s => (status s, shape s)) (exec .reset (onLine (lv [0, 1]) ready)) = some (0x0000000A, rst false true) ∧
    seen status (exec .reset (onLine (lv [0, 0]) ready)) = some 0x00000102 := by decide +kernel
/-- R271: a reset input in the second phase cuts it; nothing is completed. -/
theorem test_reset_cut :
    seen (fun s => (status s, s.ctrl.en, shape s)) (exec .reset (withHost [⟨.during 3, .reset⟩] ready)) =
      some (0, false, [.rel 0, .low 1]) := by decide +kernel
/-- R37: WRITE_BLOCK 2 stopped 100 ticks into the low phase of bit 3 (a 0, 240 ticks and more) of byte 1: its position. -/
theorem test_position :
    seen (fun s => (s.pos.place, s.pos.byte, s.pos.bit, s.pin, status s, s.env.trace.length))
      (step ((withHost [⟨.during 24, .look 100⟩] (withBytes [0xFF, 0xF7] ready)).withFetchWord 32 0x00020006)) =
      some (.writeLow false, 1, 3, .low, 1, 22) ∧
    seen (fun s => s.pos.left)
      (step ((withHost [⟨.during 24, .look 100⟩] (withBytes [0xFF, 0xF7] ready)).withFetchWord 32 0x00020006)) =
      some (240 + Config.phaseExtra 22 - min 100 (240 + Config.phaseExtra 22)) := ⟨by decide +kernel, rfl⟩

/-- READ_BYTE stopped in its fifth slot goes on from there to the value of B10. -/
theorem test_goes_on :
    let s := (withHost [⟨.during 14, .look 5⟩] (onLine (lv [1, 0, 1, 0, 0, 1, 0, 1]) ready)).withFetchWord 32 0x05
    seen (fun t => (t.pos.bit, t.tmp.bits, t.seq)) (step s) = some (4, lv [1, 0, 1, 0], .run 5) ∧
    ∃ t, step s = .next t ∧ seen (fun u => (u.data, status u)) (step t) = some (0xA5, 2) := ⟨by decide +kernel, _, rfl, by decide +kernel⟩

/-- B4, B5: at least 24 and 256 ticks for a 1, 240 and 40 for a 0. -/
theorem test_write_bit :
    seen (fun s => s.env.trace) (exec (.writeBit true) ready) =
      some [.low (24 + Config.phaseExtra 0), .rel (256 + Config.phaseExtra 1)] ∧
    seen (fun s => s.env.trace) (exec (.writeBit false) ready) =
      some [.low (240 + Config.phaseExtra 0), .rel (40 + Config.phaseExtra 1)] := ⟨rfl, rfl⟩
/-- B6, B7. -/
theorem test_read_bit :
    seen (fun s => (s.data, shape s)) (exec .readBit (onLine [false] ready)) = some (0, rSlot false) ∧
    seen (fun s => s.data) (exec .readBit (onLine [true] { ready with data := 0xA5 })) = some 1 := by decide +kernel
/-- B8. -/
theorem test_write_byte :
    seen (fun s => (status s, s.data, shape s)) (exec (.writeByte 0xA5) { ready with data := 7 }) =
      some (2, 7, (List.replicate 8 wSlot).flatten) ∧
    byteBits 0xA5 = lv [1, 0, 1, 0, 0, 1, 0, 1] := by decide +kernel
/-- B10. -/
theorem test_read_byte : seen (fun s => s.data) (exec .readByte (onLine (lv [1, 0, 1, 0, 0, 1, 0, 1]) ready)) = some 0xA5 := by
  decide +kernel
/-- B9 (the count of slots), B14. -/
theorem test_write_block :
    seen (fun s => (status s, shape s, s.buf)) (exec (.writeBlock 3) (withBytes [0x4B, 0x46, 0x7F] ready)) =
      some (2, (List.replicate 24 wSlot).flatten, [(0, 0x4B), (1, 0x46), (2, 0x7F)]) ∧
    seen (fun s => (status s, shape s)) (exec (.writeBlock 0) ready) = some (2, []) := by decide +kernel
/-- B12, B13. -/
theorem test_read_block :
    seen (fun s => s.buf) (exec (.readBlock 2) (onLine (lv [0, 0, 0, 0, 1, 0, 1, 0, 1, 0, 1, 0, 0, 0, 0, 0]) ready)) =
      some [(0, 0x50), (1, 0x05)] ∧
    seen (fun s => (s.buf, shape s)) (exec (.readBlock 0) ready) = some ([], []) := by decide +kernel
/-- B15: the wire order of D1. -/
theorem test_write_rom_code :
    seen (fun s => (status s, shape s)) (exec .writeRomCode { ready with rom := d1 }) = some (2, (List.replicate 64 wSlot).flatten) ∧
    (romBytes d1).flatMap byteBits = lv (
      [0, 0, 0, 1, 0, 1, 0, 0] ++ [1, 1, 1, 1, 1, 1, 1, 1] ++ [0, 0, 1, 1, 0, 0, 1, 0] ++ [0, 0, 0, 0, 0, 1, 1, 0] ++
      [1, 0, 0, 0, 1, 0, 0, 1] ++ [0, 1, 1, 0, 1, 0, 0, 0] ++ [0, 0, 1, 0, 0, 0, 0, 0] ++ [0, 0, 1, 0, 1, 1, 0, 1]) := by decide +kernel

/-! ## CRC-8 (95_test_vectors.md 3.4) -/

/-- CR2, CR5. -/
theorem test_crc_step :
    seen (fun s => s.acc) (exec (.crc8Step 1) State.reset) = some 0x5E ∧
    seen (fun s => s.acc) (exec (.crc8Step 0) { State.reset with acc := 0xFF }) = some 0x35 := by decide +kernel
/-- CR12, CR15. -/
theorem test_crc_block :
    seen (fun s => s.acc) (exec (.crc8Block 9) (withBytes [0x31, 0x32, 0x33, 0x34, 0x35, 0x36, 0x37, 0x38, 0x39] State.reset)) =
      some 0xA1 ∧
    seen (fun s => s.acc) (exec (.crc8Block 0) { State.reset with acc := 0x3C }) = some 0x3C := by decide +kernel
/-- CR10: D1 byte by byte. -/
theorem test_crc_chain :
    (romBytes d1).scanl crc8 0 = [0x00, 0xE1, 0x82, 0xD5, 0x0D, 0xB2, 0xCE, 0xB4, 0x00] := by decide +kernel

/-! ## ROM code and READ_ROM (95_test_vectors.md 3.5) -/

theorem test_rom_accessors :
    romFamily d1 = 0x28 ∧ romSerial d1 = 0x041691604CFF ∧ romCrc d1 = 0xB4 ∧ romText d1 = "28FF4C60911604B4" := by decide +kernel
/-- R1, R3. -/
theorem test_read_rom :
    seen (fun s => (status s, s.rom)) (exec .readRom (onLine ([false, true] ++ codeLevels d1) readyCrc)) = some (0x0000000A, d1) ∧
    seen (fun s => (status s, s.rom)) (exec .readRom (onLine ([false, true] ++ codeLevels 0xB5041691604CFF28) readyCrc)) =
      some (0x0000020A, 0) := by decide +kernel
/-- R5, R9. -/
theorem test_read_rom_unchecked :
    seen (fun s => (status s, s.rom)) (exec .readRom (onLine [true, true] { readyCrc with rom := d1 })) = some (0x00000102, 0) ∧
    seen (fun s => s.rom) (exec .readRom (onLine ([false, true] ++ codeLevels (d1 &&& d2)) ready)) = some 0x9404040000000128 := by
  decide +kernel

/-! ## Search and verify (95_test_vectors.md 3.6, 3.7) -/

/-- S1: the pairs of the first and second pass at positions 1 to 12. -/
theorem test_reference_pairs :
    (refPass [d1, d2, d3] (Cursor.fresh 0)).take 26 =
      lv ([0, 1] ++ [0, 1, 0, 1, 0, 1, 0, 0, 1, 0, 0, 1, 0, 1, 0, 1, 0, 1, 1, 0, 0, 1, 1, 0]) ∧
    (refPass [d1, d2, d3] ⟨d3, 4, 4, false⟩).take 26 =
      lv ([0, 1] ++ [0, 1, 0, 1, 0, 1, 0, 0, 0, 1, 1, 0, 0, 1, 0, 1, 1, 0, 0, 0, 0, 1, 0, 1]) := by decide +kernel
/-- S1 row 1. -/
theorem test_search_first :
    seen (fun s => (status s, s.cursor)) (exec .searchFirst (onLine (refPass [d1, d2, d3] (Cursor.fresh 0)) ready)) =
      some (0x0000001A, ⟨d3, 4, 4, false⟩) := by decide +kernel
/-- R29, R202, R203 on the pass of S1: stopped in the write slot of position 4, LFD holds the zero taken there; stopped in that of
position 5, whose bit is 1, SROM does not have it yet, and in the next read slot it does; LD is written at the end alone. -/
theorem test_search_writes_as_it_goes :
    let stoppedAt n :=
      seen (fun s => (s.pos.place, s.pos.bit, s.cursor, s.tmp.lastZero))
        (step ((onLine (refPass [d1, d2, d3] (Cursor.fresh 0)) (withHost [⟨.during n, .look 0⟩] ready)).withFetchWord 32 0x0A))
    stoppedAt 53 = some (.writeLow false, 4, ⟨0, 0, 4, false⟩, some 4) ∧
    stoppedAt 61 = some (.writeLow true, 5, ⟨0, 0, 4, false⟩, some 4) ∧
    stoppedAt 63 = some (.readLow, 6, ⟨0x10, 0, 4, false⟩, some 4) := by decide +kernel
/-- S7. -/
theorem test_search_first_all_zero :
    seen (fun s => (status s, s.cursor)) (exec .searchFirst (onLine ([false, true] ++ List.replicate 128 false) ready)) =
      some (0x0000060A, Cursor.fresh 0) := by decide +kernel
/-- S1 row 3: the last device. -/
theorem test_search_next :
    seen (fun s => (status s, s.cursor))
      (exec .searchNext (onLine (refPass [d1, d2, d3] ⟨d2, 10, 4, false⟩) { ready with cursor := ⟨d2, 10, 4, false⟩ })) =
      some (0x0000001A, ⟨d1, 0, 4, true⟩) := by decide +kernel
/-- S8: a device lost at position 6. -/
theorem test_search_next_lost :
    seen (fun s => (status s, s.cursor))
      (exec .searchNext (onLine (lv [0, 1, 0, 1, 0, 1, 0, 1, 0, 0, 0, 1, 1, 1]) { ready with cursor := ⟨d3, 4, 4, false⟩ })) =
      some (0x0000010A, Cursor.fresh 0x680000000000AA08) := by decide +kernel
/-- V1. -/
theorem test_verify :
    seen (fun s => (status s, s.rom, s.cursor)) (exec .verifyRom (onLine (refPass [d1, d2, d3] (verifyCursor d1)) { ready with rom := d1 })) =
      some (0x0000001A, d1, Cursor.fresh 0) := by decide +kernel
/-- V5: D1 on a bus with only D2 and D3. -/
theorem test_verify_absent :
    seen (fun s => (status s, s.rom)) (exec .verifyRom (onLine (refPass [d2, d3] (verifyCursor d1)) { ready with rom := d1 })) =
      some (0x0000060A, d1) := by decide +kernel

/-! ## Witnesses: concrete states and operands that meet the hypotheses of each statement, each clause at a boundary -/

/-- A state in which a command has run before: registers, cursor, BUF and flags hold something. -/
def used : State :=
  { ready with
    cmd := 0x5, flags := ⟨true, true, true, true, .notFound⟩, data := 0xA5, acc := 0x3C, rom := d1, cursor := ⟨d3, 4, 4, false⟩
    buf := [(0, 0xFF), (1, 0x05)] }

/-- The same with EN = 0. -/
def usedOff : State := { used with ctrl := { en := false, crcEn := true } }

/-- A host that polls and writes while a command runs, and has more to do after it; no reset. -/
def chatty : List HostReq := [⟨.during 0, .read 0x008 4⟩, ⟨.during 2, .write 0x004 4 0x1⟩, ⟨.whenIdle, .read 0x00C 4⟩]

/-- An idle engine with one access to come. -/
def idleWith (op : HostOp) : State := withHost [⟨.whenIdle, op⟩] used

/-! ### Encoding and steps -/

theorem witness_DecoderIsTotalByOpcode :
    ((0xAB00 : Word).toNat % 256 = 0x00) ∧ (0x0D ≤ (0x0D : Word).toNat % 256 ∧ (0x0F : Word).toNat % 256 ≤ 0x0F) ∧
    (0x12 ≤ (0x12 : Word).toNat % 256 ∧ 0x12 ≤ (0xFF : Word).toNat % 256) ∧
    ¬((0xFF01 : Word).toNat % 256 = 0x00 ∨ (0x0D ≤ (0xFF01 : Word).toNat % 256 ∧ (0xFF01 : Word).toNat % 256 ≤ 0x0F) ∨
      0x12 ≤ (0xFF01 : Word).toNat % 256) ∧
    ¬((0x0C : Word).toNat % 256 = 0x00 ∨ (0x0D ≤ (0x0C : Word).toNat % 256 ∧ (0x0C : Word).toNat % 256 ≤ 0x0F) ∨
      0x12 ≤ (0x0C : Word).toNat % 256) ∧
    ¬((0x11 : Word).toNat % 256 = 0x00 ∨ (0x0D ≤ (0x11 : Word).toNat % 256 ∧ (0x11 : Word).toNat % 256 ≤ 0x0F) ∨
      0x12 ≤ (0x11 : Word).toNat % 256) := by decide

theorem witness_OperandFieldsDecode :
    (0xFFFFFF01 : Word).toNat % 256 = 0x01 ∧ (0x0000FE02 : Word).toNat % 256 = 0x02 ∧ (0xFFFFFF03 : Word).toNat % 256 = 0x03 ∧
    (0xFFFFFF04 : Word).toNat % 256 = 0x04 ∧ (0x00000005 : Word).toNat % 256 = 0x05 ∧ (0xFFFF0006 : Word).toNat % 256 = 0x06 ∧
    (0x00010007 : Word).toNat % 256 = 0x07 ∧ (0xFF000008 : Word).toNat % 256 = 0x08 ∧ (0x00000109 : Word).toNat % 256 = 0x09 ∧
    (0x0000000A : Word).toNat % 256 = 0x0A ∧ (0x8000000B : Word).toNat % 256 = 0x0B ∧ (0x0000000C : Word).toNat % 256 = 0x0C ∧
    (0x00008010 : Word).toNat % 256 = 0x10 ∧ (0x80000011 : Word).toNat % 256 = 0x11 := by decide

theorem witness_AssemblerWritesTheWords : Reg.wellFormed (.buf 63) = true ∧ Reg.wellFormed .info = true := by decide

/-- CRC8_STEP at its start, and at its last action. -/
theorem witness_StepRunsTheDecodedCommand :
    (used.accept 0x00000110).seq = .run 0x00000110 ∧ decodeWord 0x00000110 = .ok (.crc8Step 0x01) ∧
    (used.accept 0x00000110).pos.place = .start ∧ ((used.accept 0x00000110).stand (.last .ok)).pos.place ≠ .start ∧
    ((used.accept 0x00000110).stand (.last .ok)).seq = .run 0x00000110 := ⟨rfl, rfl, rfl, by decide, rfl⟩

/-- RESET stopped in its second phase, with a read after the look. -/
theorem witness_AStoppedCommandGoesOnWhereItStands :
    let s := (withHost [⟨.during 0, .read 0 4⟩, ⟨.during 3, .look 7⟩, ⟨.during 3, .read 8 4⟩] used).accept 0x01
    (s.Inv ∧ s.seq ≠ .idle) ∧ (3 ≤ ({ s with pos := { s.pos with points := 2 } } : State).pos.points + 1) ∧
    s.pos.place = .start ∧ s.tmp = .none ∧
    s.env.host = [⟨.during 0, .read 0 4⟩] ++ ⟨.during 3, .look 7⟩ :: [⟨.during 3, .read 8 4⟩] ∧
    (∀ r ∈ [⟨.during 0, .read 0 4⟩] ++ [⟨.during 3, .read 8 4⟩], HostOp.isLook (HostReq.op r) = false) ∧
    (∀ r ∈ [(⟨.during 3, .read 8 4⟩ : HostReq)].head?, ∀ m, r.arrival = .during m → 3 ≤ m) ∧
    ∃ t, step s = .next t ∧ t.seq ≠ .idle ∧ t.pos.place = .resetH :=
  ⟨by decide, by decide, rfl, rfl, rfl, by decide, by simp, _, rfl, by decide, rfl⟩

theorem witness_CommandWordsAreAccepted :
    (used.seq = .idle ∧ (withHost [⟨.whenIdle, .write 0x004 4 0xFFFFFFFF⟩, ⟨.during 0, .reset⟩] used).env.host =
      ⟨.whenIdle, .write 0x004 4 0xFFFFFFFF⟩ :: [⟨.during 0, .reset⟩]) ∧
    ((used.accept 0x0C).seq = .run 0x0C ∧ (used.accept 0x0C).pos.place = .start ∧ decodeWord 0x0C = .ok .verifyRom) ∧
    (withHost [⟨.during 0, .write 0x004 4 0x1⟩] used).env.host = [⟨.during 0, .write 0x004 4 0x1⟩] := by
  exact ⟨⟨rfl, rfl⟩, ⟨rfl, rfl, rfl⟩, rfl⟩

theorem witness_IllegalWordsCompleteAtOnce :
    ((withHost chatty usedOff).accept 0x00).seq = .run 0x00 ∧ (0x00 : Word).toNat % 256 = 0x00 ∧
    (used.accept 0x0D).seq = .run 0x0D ∧ (0x0D ≤ (0x0D : Word).toNat % 256 ∧ (0x0D : Word).toNat % 256 ≤ 0x0F) ∧
    (used.accept 0x12).seq = .run 0x12 ∧ 0x12 ≤ (0x12 : Word).toNat % 256 ∧
    ((withHost chatty usedOff).accept 0x00).unbroken ∧ (used.accept 0x0D).unbroken ∧ (used.accept 0x12).unbroken ∧
    ((withHost chatty usedOff).accept 0x00).pos.place = .start ∧ (used.accept 0x0D).pos.place = .start ∧
    (used.accept 0x12).pos.place = .start := by decide

theorem witness_BusCommandsNeedEnable :
    (1 ≤ Instr.reset.opcode.toNat ∧ Instr.reset.opcode.toNat ≤ 0x0C ∧ Instr.verifyRom.opcode.toNat ≤ 0x0C ∧
      (withHost chatty usedOff).ctrl.en = false ∧ (withHost chatty usedOff).unbroken) ∧
    (Instr.opcode (.crc8Step 0xFF) = 0x10 ∧ Instr.opcode (.crc8Block 0xFFFF) = 0x11 ∧ (withHost chatty used).unbroken ∧
      { withHost chatty used with ctrl := { en := false, crcEn := false } } =
        { withHost chatty used with ctrl := { (withHost chatty used).ctrl with en := !(withHost chatty used).ctrl.en } }) := by decide

/-- An illegal word with EN = 0; a bus command with EN = 0; a block command one above BUF_SIZE. -/
theorem witness_PrologueChecksComeInOrder :
    let s := withHost chatty usedOff
    (s.accept 0x0D).seq = .run 0x0D ∧ (s.accept 0x0D).unbroken ∧ (0x0D : Word).toNat % 256 = 0x0D ∧
    (s.accept 0xFFFF0001).seq = .run 0xFFFF0001 ∧ (s.accept 0xFFFF0001).unbroken ∧ (0xFFFF0001 : Word).toNat % 256 = 0x01 ∧
    s.ctrl.en = false ∧ (used.accept 0x01010006).seq = .run 0x01010006 ∧ (used.accept 0x01010006).unbroken ∧
    (0x01010006 : Word).toNat % 256 = 0x06 ∧ used.ctrl.en = true ∧ used.cfg.bufSize < (0x01010006 : Word).toNat / 2 ^ 16 ∧
    (s.accept 0x01010011).seq = .run 0x01010011 ∧ (0x01010011 : Word).toNat % 256 = 0x11 ∧
    ∀ w, (s.accept w).pos.place = .start ∧ (used.accept w).pos.place = .start := by
  refine ⟨?_, ?_, ?_, ?_, ?_, ?_, ?_, ?_, ?_, ?_, ?_, ?_, ?_, ?_, fun w => ⟨rfl, rfl⟩⟩ <;> decide +kernel

/-! ### Host accesses -/

theorem witness_IdleReadsHaveNoSideEffect :
    (idleWith (.read 0x1FC 4)).seq = .idle ∧ 0x1FC % 4 = 0 ∧ (idleWith (.read 0x1FC 4)).env.host = ⟨.whenIdle, .read 0x1FC 4⟩ :: [] ∧
    (idleWith (.read 0 4)).seq = .idle ∧ (idleWith (.read 0 4)).env.host = ⟨.whenIdle, .read 0 4⟩ :: [] := by decide

theorem witness_RegistersReadAsLaidOut : used.cfg.wf ∧ 63 < 64 ∧ 3 < 4 := by decide

theorem witness_IdleWritesAsListed :
    (idleWith (.write 0x100 4 7)).seq = .idle ∧ (idleWith (.write 0x100 4 7)).env.host = ⟨.whenIdle, .write 0x100 4 7⟩ :: [] ∧
    [0x000, 0x004, 0x008, 0x00C, 0x010, 0x014, 0x018, 0x01C, 0x020, 0x024, 0x028, 0x02C, 0x0FC, 0x100, 0x1FC, 0x200].all
      (fun off => decide (off % 4 = 0 ∧ (idleWith (.write off 4 7)).seq = .idle ∧
        (idleWith (.write off 4 7)).env.host = [⟨.whenIdle, .write off 4 7⟩])) = true := by decide

theorem witness_OnlyAlignedWordAccessesAreAdmitted :
    (idleWith (.read 0x1FC 4)).seq = .idle ∧ (4 = 4 ∧ 0x1FC % 4 = 0) ∧ ¬(4 = 4 ∧ 0x016 % 4 = 0) ∧ ¬(1 = 4 ∧ 0x014 % 4 = 0) ∧
    (idleWith (.read 0x016 4)).env.host = ⟨.whenIdle, .read 0x016 4⟩ :: [] ∧
    (idleWith (.write 0x014 1 0)).env.host = ⟨.whenIdle, .write 0x014 1 0⟩ :: [] := by decide

theorem witness_ReservedBitsAndOffsetsAreInert :
    (0x02C ≤ 0x02C ∧ 0x0FF < 0x100) ∧ 0x200 ≤ 0x200 ∧ (0xFFFFFFFF : Word) &&& 0x3 = 0x3 &&& 0x3 ∧
    (0xFFFFFFFF : Word) &&& 0x6 = 0x6 &&& 0x6 ∧ (0xFFFFFFFF : Word) &&& 0xFF = 0xFF &&& 0xFF ∧
    (0xFFFFFFFF : Word) &&& 0x10F7F = 0x10F7F &&& 0x10F7F := by decide

/-- The last word; with BUF_SIZE = 6 the word at 0x108 and the last one lie wholly above it. -/
theorem witness_BufferWordsReadBack :
    let s : State := { used with cfg := { used.cfg with bufSize := 6 } }
    (63 < 64 ∧ 0 < 64 ∧ (0 : Nat) ≠ 63 ∧ 3 < 4) ∧ 0x108 % 4 = 0 ∧ 0x100 + s.cfg.bufSize ≤ 0x108 ∧ 0x108 < 0x200 ∧ 0x1FC % 4 = 0 ∧
    0x100 + s.cfg.bufSize ≤ 0x1FC ∧ 0x1FC < 0x200 := by decide

theorem witness_RomHalvesMakeOneCode : 1 ≤ 1 ∧ 1 ≤ 64 ∧ 1 ≤ 64 ∧ 64 ≤ 64 := by decide

theorem witness_WindowOffsetsAreAddresses : 0x1FF < 0x200 ∧ windowOffset (hostAddress 0x1FF) = some 0x1FF := by
  simp [windowOffset, hostAddress]

theorem witness_BusyWritesAreDropped :
    let s : Nat → State := fun off => withHost [⟨.during 0, .write off 4 7⟩] { used with cfg := { used.cfg with bufSize := 6 } }
    [0x000, 0x004, 0x008, 0x010, 0x014, 0x018, 0x01C, 0x020, 0x024, 0x100, 0x104, 0x00C, 0x028, 0x02C, 0x0FC, 0x200].all
      (fun off => decide (off % 4 = 0 ∧ (s off).env.host = [⟨.during 0, .write off 4 7⟩])) = true ∧
    0x104 < 0x100 + (s 0x104).cfg.bufSize ∧ 0 ≤ (s 0x104).pos.points + 1 ∧
    seen (fun t => t.env.host) (exec .readBit (withHost [⟨.during 3, .write 0x104 4 7⟩] used)) = some [] := by decide

theorem witness_BusyReadsAreExactOrOpen :
    let s : State := withHost [⟨.during 0, .read 0x104 4⟩] { used with cfg := { used.cfg with bufSize := 6 } }
    (0x100 ≤ 0x104 ∧ 0x104 < 0x200 ∧ 0x104 % 4 = 0 ∧ 0x104 < 0x100 + s.cfg.bufSize) ∧ 0x104 % 4 = 0 ∧
    s.env.host = [⟨.during 0, .read 0x104 4⟩] := by decide

theorem witness_HostAccessesNeverDisturbACommand : (withHost chatty used).unbroken := by decide

/-- A running command that takes a read, a write and a read of STATUS, which sees the write's OVR; one that takes a reset, and one a
look; an idle engine with each kind of access. -/
theorem witness_HostAccessesTakeEffectInOrder :
    let fresh : State := { ready with flags := ⟨false, false, false, false, .ok⟩ }
    let s := (withHost [⟨.during 0, .read 8 4⟩, ⟨.during 0, .write 0 4 0⟩, ⟨.during 2, .read 8 4⟩] fresh).accept 0x110
    s.seq ≠ .idle ∧ (∃ t, step s = .next t ∧ t.env.host = [] ∧ t.env.replies = [0x1, 0x5]) ∧
    (∃ t, step ((withHost [⟨.during 0, .reset⟩] used).accept 0x110) = .next t ∧ t.env.resets = used.env.resets + 1) ∧
    (∃ t, step ((withHost [⟨.during 2, .look 0⟩] used).accept 0x110) = .next t ∧ t.seq = .run 0x110) ∧
    (∃ t, step (withHost [⟨.whenIdle, .read 0x008 4⟩, ⟨.whenIdle, .reset⟩] used) = .next t ∧ t.env.replies = [0x0000061E]) ∧
    (idleWith (.poll true)).seq = .idle ∧ (HostOp.poll true).admitted = true ∧ (HostOp.write 0x1FC 4 0).admitted = true ∧
    (HostOp.look 3).admitted = true ∧ HostOp.reset.admitted = true :=
  ⟨by decide, ⟨_, rfl, rfl, by decide⟩, ⟨_, rfl, rfl⟩, ⟨_, rfl, rfl⟩, ⟨_, rfl, by decide⟩, rfl, rfl, rfl, rfl, rfl⟩

/-! ### Reset, ends and invariants -/

theorem witness_ResetValuesAsListed :
    used.seq = .idle ∧ (withHost [⟨.whenIdle, .reset⟩] used).env.host = ⟨.whenIdle, .reset⟩ :: [] ∧
    used.hardReset = used.hardReset := ⟨rfl, rfl, rfl⟩

theorem witness_ResetAbortsACommandAtOnce :
    (withHost [⟨.during 1, .reset⟩, ⟨.whenIdle, .read 0 4⟩] used).env.host = ⟨.during 1, .reset⟩ :: [⟨.whenIdle, .read 0 4⟩] ∧
    1 ≤ used.pos.points + 1 ∧ (withHost [⟨.during 4, .reset⟩] used).env.host = ⟨.during 4, .reset⟩ :: [] := by decide

/-- A command that completes, and one that a look stops in a low phase. -/
theorem witness_EveryStepKeepsTheInvariant :
    State.Inv (used.accept 0x00000110) ∧ (∃ t, step (used.accept 0x00000110) = .next t ∧ t.acc ≠ used.acc) ∧
    State.Inv ((withHost [⟨.during 2, .look 0⟩] used).accept 0x03) ∧
    ∃ t, step ((withHost [⟨.during 2, .look 0⟩] used).accept 0x03) = .next t ∧ t.pin = .low :=
  ⟨by decide, ⟨_, rfl, by decide⟩, by decide, _, rfl, rfl⟩

/-- The last action of a command, and a command in a low phase, are states of the invariant. -/
theorem test_invariant_part_way :
    State.Inv ((used.accept 0x00000110).stand (.last .ok)) ∧ State.Inv ((used.accept 0x03).enter .readLow .low 24) ∧
    ¬ State.Inv ((used.accept 0x03).enter (.writeLow true) .low 24) ∧ ¬ State.Inv (used.setData 0 |>.enter .readLow .low 24) := by
  refine ⟨by decide, by decide, by decide, by decide⟩

theorem witness_NoStepChangesTheParameters : ∃ t, step (idleWith .reset) = .next t ∧ t.rom ≠ used.rom := ⟨_, rfl, by decide⟩

theorem witness_OnlyNamedCommandsWriteARegister :
    (∃ t, exec .readBit used = .next t ∧ t.env.resets = used.env.resets) ∧
    (∃ t, exec .readBit (onLine [true] used) = .next t ∧ t.data ≠ used.data) ∧
    (∃ t, exec (.crc8Step 0) used = .next t ∧ t.acc ≠ used.acc) ∧
    (∃ t, exec .readRom (onLine [true, true] used) = .next t ∧ t.rom ≠ used.rom ∧ t.flags.present ≠ used.flags.present) ∧
    (∃ t, exec .searchNext (onLine [true, true] used) = .next t ∧ t.cursor ≠ used.cursor ∧ t.flags.found ≠ used.flags.found) ∧
    ∃ t, exec (.readBlock 1) (onLine (List.replicate 8 false) used) = .next t ∧ t.bufByte 0 ≠ used.bufByte 0 := by
  exact ⟨⟨_, rfl, rfl⟩, ⟨_, rfl, by decide⟩, ⟨_, rfl, by decide⟩, ⟨_, rfl, by decide, by decide⟩, ⟨_, rfl, by decide, by decide⟩,
    ⟨_, rfl, by decide⟩⟩

theorem witness_ResultCodesHaveTheirRaisers :
    (∃ t, exec (.crc8Step 0) used = .next t ∧ t.env.resets = used.env.resets ∧ t.flags.result = .ok) ∧
    (∃ t, exec .reset (onLine [true, true] used) = .next t ∧ t.env.resets = used.env.resets ∧ t.flags.result = .notPresent) ∧
    (∃ t, exec .verifyRom usedOff = .next t ∧ t.env.resets = used.env.resets ∧ t.flags.result = .invalidArgument) ∧
    ∃ t, exec .searchNext { used with cursor := ⟨d1, 0, 4, true⟩ } = .next t ∧ t.env.resets = used.env.resets ∧
      t.flags.result = .notFound :=
  ⟨⟨_, rfl, rfl, rfl⟩, ⟨_, rfl, rfl, rfl⟩, ⟨_, rfl, rfl, rfl⟩, ⟨_, rfl, rfl, rfl⟩⟩

theorem witness_OverrunStaysUntilCleared :
    (∃ t, step (idleWith (.write 0x008 4 0x4)) = .next t ∧ used.flags.ovr = true ∧ t.flags.ovr = false) ∧
    ∃ t, step (idleWith .reset) = .next t ∧ used.flags.ovr = true ∧ t.flags.ovr = false := ⟨⟨_, rfl, rfl, rfl⟩, ⟨_, rfl, rfl, rfl⟩⟩

/-! ### Commands: with EN = 1 and with EN = 0, at both ends of a length; a host that polls and writes, and no reset -/

theorem witness_ResetCommandReportsPresence :
    (withHost chatty used).unbroken ∧ (withHost chatty used).ctrl.en = true ∧ (withHost chatty usedOff).ctrl.en = false := by decide

theorem witness_WriteBitDrivesOneSlot :
    (withHost chatty used).unbroken ∧ (withHost chatty used).ctrl.en = true ∧ (withHost chatty usedOff).ctrl.en = false := by decide

theorem witness_ReadBitStoresTheLevel :
    (withHost chatty used).unbroken ∧ (withHost chatty used).ctrl.en = true ∧ (withHost chatty usedOff).ctrl.en = false := by decide

theorem witness_WriteByteSendsBitsLowFirst :
    (withHost chatty used).unbroken ∧ (withHost chatty used).ctrl.en = true ∧ (withHost chatty usedOff).ctrl.en = false := by decide

theorem witness_ReadByteAssemblesBitsLowFirst :
    (withHost chatty used).unbroken ∧ (withHost chatty used).ctrl.en = true ∧ (withHost chatty usedOff).ctrl.en = false ∧
    ∀ i, i < 8 → (0xA5 : Byte).getLsbD i = (onLine (lv [1, 0, 1, 0, 0, 1, 0, 1]) used).upcoming i := by decide

theorem witness_WriteBlockSendsTheBuffer :
    (withHost chatty used).unbroken ∧ (withHost chatty used).ctrl.en = true ∧ (256 : Half).toNat ≤ used.cfg.bufSize ∧
    (0 : Half).toNat ≤ used.cfg.bufSize ∧ used.cfg.bufSize < (257 : Half).toNat ∧ (withHost chatty usedOff).ctrl.en = false := by decide

theorem witness_ReadBlockFillsTheBuffer :
    (withHost chatty used).unbroken ∧ (withHost chatty used).ctrl.en = true ∧ (256 : Half).toNat ≤ used.cfg.bufSize ∧
    (0 : Half).toNat ≤ used.cfg.bufSize ∧ used.cfg.bufSize < (257 : Half).toNat ∧ (withHost chatty usedOff).ctrl.en = false ∧
    0 < (256 : Half).toNat ∧ 255 < (256 : Half).toNat ∧ 7 < 8 ∧ (256 : Half).toNat ≤ 256 := by decide

theorem witness_WriteRomCodeSendsPositionsInOrder :
    (withHost chatty used).unbroken ∧ (withHost chatty used).ctrl.en = true ∧ (withHost chatty usedOff).ctrl.en = false := by decide

/-- The trace of one read slot, with its free lengths. -/
def oneRead : List BusEvent :=
  [.low (24 + Config.phaseExtra 0), .rel (36 + Config.phaseExtra 1), .smp true, .rel (220 + Config.phaseExtra 2)]

theorem witness_SamplesAreTakenReleased :
    used.unbroken ∧ (∃ t, exec .readBit (onLine [true] used) = .next t ∧ t.env.trace = used.env.trace ++ oneRead) ∧
    ∃ before after, oneRead = before ++ .smp true :: after := ⟨by decide, ⟨_, rfl, rfl⟩, oneRead.take 2, oneRead.drop 3, rfl⟩

/-- A code that is not INVALID_ARGUMENT, for each command; a present and an absent bus for READ_ROM; a code found by each search. -/
theorem witness_NominalBusTimesAreLowerBounds :
    used.cfg.timing = Timing.standard ∧ used.unbroken ∧
    seen (fun t => t.flags.result) (exec .reset (onLine [true, true] used)) = some .notPresent ∧
    seen (fun t => t.flags.result) (exec (.writeBit true) used) = some .ok ∧
    seen (fun t => t.flags.result) (exec .readBit (onLine [true] used)) = some .ok ∧
    seen (fun t => t.flags.result) (exec (.writeByte 0xFF) used) = some .ok ∧
    seen (fun t => t.flags.result) (exec .readByte used) = some .ok ∧
    seen (fun t => t.flags.result) (exec (.writeBlock 2) used) = some .ok ∧
    seen (fun t => t.flags.result) (exec (.readBlock 0) used) = some .ok ∧
    seen (fun t => t.flags.result) (exec .writeRomCode used) = some .ok ∧
    seen (fun t => (t.flags.result, t.flags.present)) (exec .readRom (onLine [true, true] used)) = some (.notPresent, false) ∧
    seen (fun t => (t.flags.result, t.flags.present)) (exec .readRom (onLine (lv [0, 1]) used)) = some (.ok, true) ∧
    seen (fun t => t.flags.result) (exec .searchFirst (onLine (refPass [d1] (Cursor.fresh 0)) used)) = some .ok ∧
    seen (fun t => t.flags.result) (exec .searchNext (onLine (refPass [d3] used.cursor) used)) = some .ok ∧
    seen (fun t => t.flags.result) (exec .verifyRom (onLine (refPass [d1] (verifyCursor d1)) used)) = some .ok ∧
    seen (fun t => t.flags.result) (exec (.crc8Step 0) used) = some .ok ∧
    seen (fun t => t.flags.result) (exec (.crc8Block 2) used) = some .ok := by
  refine ⟨rfl, by decide, ?_, ?_, ?_, ?_, ?_, ?_, ?_, ?_, ?_, ?_, ?_, ?_, ?_, ?_, ?_⟩ <;> decide +kernel

/-! ### CRC and ROM codes -/

theorem witness_Crc8StepFoldsOneByte : (withHost chatty usedOff).unbroken ∧ (withHost chatty used).unbroken := by decide

theorem witness_Crc8BlockFoldsTheBuffer :
    (withHost chatty usedOff).unbroken ∧ (0 : Half).toNat ≤ used.cfg.bufSize ∧ (256 : Half).toNat ≤ used.cfg.bufSize ∧
    used.cfg.bufSize < (257 : Half).toNat := by decide

theorem witness_RomTextDeterminesTheCode : 7 < 8 ∧ romText d1 = romText (romOfBytes [0x28, 0xFF, 0x4C, 0x60, 0x91, 0x16, 0x04, 0xB4]) := by
  decide +kernel

/-- No presence (1, 1); presence (0, 1) with the code D1; EN = 0. -/
theorem witness_ReadRomReadsCheckedCode :
    let absent := onLine [true, true] used
    let present := onLine ([false, true] ++ codeLevels d1) (withHost chatty used)
    (absent.unbroken ∧ absent.ctrl.en = true ∧ (!absent.upcoming 0 && absent.upcoming 1) = false) ∧
    (present.unbroken ∧ present.ctrl.en = true ∧ (!present.upcoming 0 && present.upcoming 1) = true ∧
      ∀ k, k < 64 → d1.getLsbD k = present.upcoming (2 + k)) ∧
    (withHost chatty usedOff).unbroken ∧ (withHost chatty usedOff).ctrl.en = false := by decide +kernel

/-! ### Search and verify -/

theorem goodDevices (t : ZeroTest) : GoodDevices t [d1, d2, d3] := by
  refine ⟨by decide, fun d hd => ?_⟩
  simp only [List.mem_cons, List.not_mem_nil, or_false] at hd
  rcases hd with rfl | rfl | rfl <;> exact ⟨by decide +kernel, by cases t <;> decide⟩

theorem goodDevices_two (t : ZeroTest) : GoodDevices t [d2, d3] := by
  refine ⟨by decide, fun d hd => (goodDevices t).2 d ?_⟩
  exact List.mem_cons_of_mem _ hd

/-- The same state with the other zero test. -/
def byFamily (s : State) : State := { s with cfg := { s.cfg with zeroTest := .familyByte } }

theorem witness_SearchFirstRunsAFreshPass :
    (withHost chatty used).unbroken ∧ (withHost chatty used).ctrl.en = true ∧ (withHost chatty usedOff).ctrl.en = false := by decide

theorem witness_SearchNextRunsAPassFromTheCursor :
    (withHost chatty used).unbroken ∧ (withHost chatty used).ctrl.en = true ∧ (withHost chatty usedOff).ctrl.en = false := by decide

theorem witness_VerifyRomComparesTheWalkedCode :
    (withHost chatty used).unbroken ∧ (withHost chatty used).ctrl.en = true ∧ (withHost chatty usedOff).ctrl.en = false := by decide

theorem witness_ExhaustedSearchReportsOnce :
    let s : State := { withHost chatty used with cursor := ⟨d1, 0, 4, true⟩ }
    s.unbroken ∧ s.ctrl.en = true ∧ s.cursor.exh = true := by decide

/-- The pairs (1, 0) and (0, 1) at 1 and 64; a discrepancy below, at and past LD = 4, with and without LFD; the pair (1, 1). -/
theorem witness_DirectionFollowsLastDiscrepancy :
    1 ≤ 1 ∧ 1 ≤ 64 ∧ 64 ≤ 64 ∧ ¬(true = true ∧ false = true) ∧ ¬(false = true ∧ true = true) ∧ ¬(false = true ∧ false = true) ∧
    (true ≠ false) ∧ 3 < (4 : BitVec 7).toNat ∧ 4 = (4 : BitVec 7).toNat ∧ (4 : BitVec 7).toNat < 5 ∧ 5 ≤ 8 ∧ ¬ 9 ≤ 8 ∧
    choose true true 4 ⟨⟨d3, 4, 4, false⟩, 0⟩ = none ∧
    choose false false 4 ⟨⟨d3, 4, 4, false⟩, 0⟩ = some (true, ⟨⟨d3, 4, 4, false⟩, 0⟩) ∧
    Pass.turn ⟨⟨d3, 4, 4, false⟩, 0⟩ 4 true = ⟨⟨d3 ||| 0x8, 4, 4, false⟩, 0⟩ ∧
    choose false false 3 ⟨⟨d3, 4, 4, false⟩, 0⟩ = some (false, ⟨⟨d3, 4, 3, false⟩, 3⟩) ∧
    choose false false 9 ⟨⟨d3, 4, 4, false⟩, 0⟩ = some (false, ⟨⟨d3, 4, 4, false⟩, 9⟩) := by decide

theorem witness_SearchLeavesAFoundCodeOrAFreshCursor :
    (∃ t, exec .searchNext (onLine [true, true] used) = .next t ∧ t.env.resets = used.env.resets ∧ used.ctrl.en = true ∧
      t.flags.result ≠ .ok) ∧
    seen (fun t => (t.flags.result, t.env.resets)) (exec .searchFirst (onLine (refPass [d1] (Cursor.fresh 0)) used)) =
      some (.ok, used.env.resets) := ⟨⟨_, rfl, rfl, rfl, by decide⟩, by decide +kernel⟩

theorem witness_SearchFirstFindsTheEarliestDevice :
    let s := onLine (refPass [d1, d2, d3] (Cursor.fresh 0)) (withHost chatty used)
    GoodDevices s.cfg.zeroTest [d1, d2, d3] ∧ GoodDevices (byFamily s).cfg.zeroTest [d1, d2, d3] ∧ s.unbroken ∧ (byFamily s).unbroken ∧
      s.ctrl.en = true ∧ refPass [d1, d2, d3] (Cursor.fresh 0) <+: s.env.line ∧ (byFamily s).env.line = s.env.line :=
  ⟨goodDevices _, goodDevices _, by decide, by decide, rfl, List.prefix_rfl, rfl⟩

/-- R205, R213: with `family_byte` the same device is found. -/
theorem test_search_first_family_byte :
    seen (fun s => (status s, s.cursor)) (exec .searchFirst (onLine (refPass [d1, d2, d3] (Cursor.fresh 0)) (byFamily ready))) =
      some (0x0000001A, ⟨d3, 4, 4, false⟩) := by decide +kernel

/-- The cursor after S1 row 1, at D3 with the branch at position 4 to come. -/
theorem witness_SearchNextFindsTheNextDevice :
    let s := onLine (refPass [d1, d2, d3] ⟨d3, 4, 4, false⟩) (withHost chatty used)
    GoodDevices s.cfg.zeroTest [d1, d2, d3] ∧ GoodDevices (byFamily s).cfg.zeroTest [d1, d2, d3] ∧
      CursorAt [d1, d2, d3] s.cursor ∧ s.unbroken ∧ s.ctrl.en = true ∧ s.cursor.exh = false ∧
      refPass [d1, d2, d3] s.cursor <+: s.env.line ∧ (byFamily s).cursor = s.cursor := by
  have hb : ∀ k, 4 < k → ¬ branchAt [d1, d2, d3] d3 k := by
    rintro k hk ⟨-, -, h0, d, hd, ha, h1⟩
    have h4 := ha 4 (by decide) hk
    simp only [List.mem_cons, List.not_mem_nil, or_false] at hd
    rcases hd with rfl | rfl | rfl
    · exact absurd h4 (by decide)
    · exact absurd h4 (by decide)
    · rw [h0] at h1
      exact absurd h1 (by decide)
  have h4 : branchAt [d1, d2, d3] d3 4 :=
    ⟨by decide, by decide, by decide, d1, by decide, fun j h h' => by interval_cases j <;> decide, by decide⟩
  exact ⟨goodDevices _, goodDevices _, ⟨by decide, .inr h4, hb, rfl⟩, by decide, rfl, rfl, List.prefix_rfl, rfl⟩

/-- D1 in ROM: on a bus with all three, and on one with only D2 and D3 (V1, V5); with each zero test. -/
theorem witness_VerifyRomFindsExactlyThePresentDevice :
    let s := onLine (refPass [d1, d2, d3] (verifyCursor d1)) (withHost chatty used)
    let s' := onLine (refPass [d2, d3] (verifyCursor d1)) (withHost chatty used)
    (GoodDevices s.cfg.zeroTest [d1, d2, d3] ∧ GoodDevices (byFamily s).cfg.zeroTest [d1, d2, d3] ∧ s.unbroken ∧ s.ctrl.en = true ∧
      refPass [d1, d2, d3] (verifyCursor s.rom) <+: s.env.line ∧ s.rom ∈ [d1, d2, d3]) ∧
    GoodDevices s'.cfg.zeroTest [d2, d3] ∧ GoodDevices (byFamily s').cfg.zeroTest [d2, d3] ∧ s'.unbroken ∧ s'.ctrl.en = true ∧
      refPass [d2, d3] (verifyCursor s'.rom) <+: s'.env.line ∧ s'.rom ∉ [d2, d3] :=
  ⟨⟨goodDevices _, goodDevices _, by decide, rfl, List.prefix_rfl, by decide⟩, goodDevices_two _, goodDevices_two _, by decide, rfl,
    List.prefix_rfl, by decide⟩

end Sys2Proof.Machine.Tests
end

section
/-! PROOF. The parameters of R11 that stand in `State.cfg` (log entry 3): neither a host access to the idle engine nor a step of a
running command, however it ends, changes them. -/

namespace Sys2Proof.Machine

/-! ## A step of the idle engine -/

@[simp] theorem writeReg_cfg (r : Reg) (v : Word) (s : State) : (writeReg r v s).cfg = s.cfg := by
  cases r with
  | buf w => exact s.setBufWord_cfg w v
  | _ => rfl

@[simp] theorem writeAt_cfg (off : Nat) (v : Word) (s : State) : (writeAt off v s).cfg = s.cfg := by
  unfold writeAt
  split
  · exact writeReg_cfg _ v s
  · rfl

/-- The next host access, the reset input among them, leaves the parameters (R63, R270). -/
theorem hostStep_cfg {s t : State} (h : hostStep s = .next t) : t.cfg = s.cfg := by
  unfold hostStep at h
  split at h
  · cases h
    rfl
  · next r rest _ =>
    obtain ⟨_, op⟩ := r
    cases op with
    | read off size =>
      dsimp only at h
      split at h <;> cases h
      rfl
    | write off size v =>
      dsimp only at h
      split at h <;> cases h
      exact writeAt_cfg ..
    | _ =>
      cases h
      rfl

/-! ## A step of a running command -/

theorem goOn_next {o : Option (Ran Unit)} {t : State} (h : goOn o = .next t) : ∃ r, o = some r ∧ r.outcome = .next t := by
  cases o with
  | none => cases h
  | some r => exact ⟨r, rfl, h⟩

/-- A step of a running command, a decoded one or an illegal word, from its start or past it, is one run to completion, to a
hardware reset or to a look (R37, R92, R93, R271). -/
theorem step_run_leaves {s t : State} {w : Word} (hw : s.seq = .run w) (h : step s = .next t) :
    ∃ r : Ran Unit, r.Leaves s Any Any ∧ r.outcome = .next t := by
  have weaken {Q P : State → Prop} {r : Ran Unit} (hr : r.Leaves s Q P) : r.Leaves s Any Any :=
    hr.mono (fun _ _ => trivial) fun _ _ => trivial
  simp only [step, hw] at h
  split at h
  · obtain ⟨r, hr, hl⟩ := exec_leaves _ s
    exact ⟨r, weaken hl, hr ▸ h⟩
  · obtain ⟨r, hr, hn⟩ := goOn_next h
    exact ⟨r, restOf_leaves_any _ s hr, hn⟩
  · obtain ⟨r, hr, hl⟩ := illegalCommand_leaves s
    exact ⟨r, weaken hl, hr ▸ h⟩
  · obtain ⟨r, hr, hn⟩ := goOn_next h
    exact ⟨r, restOfIllegal_leaves_any s hr, hn⟩

theorem CutFrom.cfg {s t : State} (h : CutFrom s t) : t.cfg = s.cfg := by rw [h.regs]

/-- However a command's run ends, it leaves the parameters. -/
theorem Ran.Leaves.cfg {s t : State} {Q P : State → Prop} {r : Ran Unit} (h : r.Leaves s Q P) (hn : r.outcome = .next t) :
    t.cfg = s.cfg := by
  cases r with
  | ok _ u =>
    cases hn
    exact h.1.cfg
  | cut u =>
    cases hn
    exact CutFrom.cfg h
  | stopped u =>
    cases hn
    exact h.1.cfg

/-- Settles O29: an idle engine takes a host access, which leaves the parameters; a running command's step ends in completion, a
hardware reset or a look, and each of these keeps them. -/
theorem noStepChangesTheParameters : Obligations.NoStepChangesTheParameters := by
  intro s t h
  cases hs : s.seq with
  | idle => exact hostStep_cfg (by simpa only [step, hs] using h)
  | run w =>
    obtain ⟨r, hl, hn⟩ := step_run_leaves hs h
    exact hl.cfg hn

end Sys2Proof.Machine
end

section
/-! PROOF. A running command and a look (R21, R37; log entry 24): a command of the invariant has a next step, a look leaves the
position in the phase where it lands, and the step after it is the rest of the command. A decoded command and an illegal word (R95)
are taken together, as the run of the accepted word. -/

namespace Sys2Proof.Machine

/-! ## The run of an accepted word -/

/-- The run of an accepted word from its start: the command it decodes to, or an illegal word's completion (R95). -/
def runOfWord (w : Word) (s : State) : Ran Unit :=
  match decodeWord w with
  | .ok i => (point (s.stand .checks)).checked i (bodyOf i)
  | .error _ => (point (s.stand .checks)).illegal

/-- The rest of that run from a position past its start; none where its pseudocode has no such place. -/
def restOfWord (w : Word) (s : State) : Option (Ran Unit) :=
  match decodeWord w with
  | .ok i => restOf i s
  | .error _ => restOfIllegal s

section run
variable {s : State} {w : Word} (hw : s.seq = .run w)
include hw

theorem step_at_start (hp : s.pos.place = .start) : step s = (runOfWord w s).outcome := by
  cases hd : decodeWord w with
  | ok i => simp only [step, runOfWord, hw, hd, hp, exec_eq]
  | error e => simp only [step, runOfWord, hw, hd, hp, illegalCommand]

theorem step_past_start (hp : s.pos.place ≠ .start) : step s = goOn (restOfWord w s) := by
  cases hd : decodeWord w with
  | ok i => simp only [step, restOfWord, hw, hd]
  | error e => simp only [step, restOfWord, hw, hd]

theorem stands_past_start (hp : s.pos.place ≠ .start) : s.stands = (restOfWord w s).isSome := by
  cases hd : decodeWord w with
  | ok i => simp only [State.stands, restOfWord, hw, hd]
  | error e => simp only [State.stands, restOfWord, hw, hd]

end run

theorem Ran.outcome_next (r : Ran Unit) : ∃ t, r.outcome = .next t := by
  cases r <;> exact ⟨_, rfl⟩

/-- Progress: the position is one of the command's, so there is a rest of it to run (R37, R240). -/
theorem running_step_next {s : State} (hs : s.stands = true) (hb : s.seq ≠ .idle) : ∃ t, step s = .next t := by
  cases hw : s.seq with
  | idle => exact absurd hw hb
  | run w =>
    by_cases hp : s.pos.place = .start
    · rw [step_at_start hw hp]
      exact Ran.outcome_next _
    · rw [stands_past_start hw hp] at hs
      obtain ⟨r, hr⟩ := Option.isSome_iff_exists.1 hs
      rw [step_past_start hw hp, hr]
      exact r.outcome_next

/-! ## A look that lands in a phase -/

/-- A look that is due ends the step where it lands. -/
theorem arrivals_look {q n : Nat} (rest : List HostReq) {s : State} (hq : q ≤ s.pos.points) :
    arrivals (⟨.during q, .look n⟩ :: rest) s = .stopped ((s.setHost rest).elapse n) := by
  have hl : HostReq.lands ⟨.during q, .look n⟩ s.pos.points = true := by simp [HostReq.lands, HostOp.admitted, hq]
  rw [arrivals, if_pos hl]

/-- A phase in which a due look lands is stopped in the phase, its ticks counted as far as the look says. -/
theorem phase_look {s : State} {q n : Nat} {rest : List HostReq} (hh : s.env.host = ⟨.during q, .look n⟩ :: rest)
    (hq : q ≤ s.pos.points + 1) (pl : Place) (d : Pin) (least : Nat) :
    phase pl d least s =
      .stopped ((({ s.enter pl d least with
        pos := { (s.enter pl d least).pos with points := s.pos.points + 1 } } : State).setHost rest).elapse n) := by
  unfold phase point here
  rw [State.enter_env, hh, arrivals_look rest hq]
  rfl

/-! ## Going on after a look -/

/-- The run of a word with a look to come, beside the run without it: stopped by the look, it stands where the rest of it is the other
run. -/
theorem runOfWord_beside {rest : List HostReq} {s s' : State} (w : Word) (h : Skips rest s s') (ht : s.tmp = .none) :
    (runOfWord w s).Beside rest Over (fun t x => t.seq = s.seq ∧ t.pos.place ≠ .start ∧ restOfWord w t = some x) (runOfWord w s') := by
  unfold runOfWord restOfWord
  cases decodeWord w with
  | ok i => exact command_beside i h ht
  | error e => exact illegal_beside h

/-- A command stopped part-way by a look goes on in the next step as it would have gone on without the look. -/
theorem step_after_look {rest : List HostReq} {s s' t : State} {w : Word} (h : Skips rest s s') (hw : s.seq = .run w)
    (hp : s.pos.place = .start) (ht : s.tmp = .none) (hst : step s = .next t) (hb : t.seq ≠ .idle) :
    t.env.host = rest ∧ step t = step s' := by
  rw [step_at_start hw hp] at hst
  obtain ⟨hr, htw, htp, hx⟩ := (runOfWord_beside w h ht).stopped_of_busy hst hb
  obtain ⟨l, rfl⟩ := h.setHost_eq
  refine ⟨hr, ?_⟩
  rw [step_past_start (htw.trans hw) htp, hx, step_at_start (s := s.setHost l) hw hp]
  rfl

/-- Settles O7: a state of the invariant stands at a place of its command, so there is a rest of it to run; a look lands in a phase
with the phase's length split between the ticks passed and remaining; and the run with a look goes on, past it, as the run beside it
that has none. -/
theorem aStoppedCommandGoesOnWhereItStands : Obligations.AStoppedCommandGoesOnWhereItStands := by
  refine ⟨?_, ?_, ?_⟩
  · rintro s ⟨_, _, _, _, hs, _⟩ hb
    exact running_step_next hs hb
  · intro pl d least q n rest s hh hq
    refine ⟨_, phase_look hh hq pl d least, rfl, rfl, rfl, rfl, rfl, Nat.zero_add _, ?_⟩
    simp only [State.elapse_pos, State.setHost_pos, State.enter_pos]
    omega
  · intro s t q n before rest hb hp ht hh hl hd hst htb
    cases hw : s.seq with
    | idle => exact absurd hw hb
    | run w => exact step_after_look ⟨q, n, before, hh, hl, hd, rfl⟩ hw hp ht hst htb

end Sys2Proof.Machine
end

section
/-! PROOF. The window: where a register lies and where an offset is reserved (R22, R33, R77), BUF as the host reads and writes it
(R32), and the reserved bits of the packed registers (R33). -/

namespace Sys2Proof.Machine

/-! ## Offsets -/

/-- Past the registers of their own, an offset is a word of the buffer area or reserved (R22, R33; log entry 10). -/
theorem regAt_of_ge {off : Nat} (h : 0x02C ≤ off) :
    regAt off = if 0x100 ≤ off ∧ off < 0x200 then some (.buf ((off - 0x100) / 4)) else none := by
  unfold regAt
  split
  case h_12 => rfl
  all_goals omega

theorem regAt_buf {w : Nat} (hw : w < 64) : regAt (0x100 + 4 * w) = some (.buf w) := by
  rw [regAt_of_ge (by omega), if_pos (by omega), show (0x100 + 4 * w - 0x100) / 4 = w by omega]

theorem regAt_reserved {off : Nat} (h : (0x02C ≤ off ∧ off < 0x100) ∨ 0x200 ≤ off) : regAt off = none := by
  rw [regAt_of_ge (by omega), if_neg (by omega)]

/-- Every aligned offset of the buffer area is that of one of its 64 words. -/
theorem exists_bufOffset {off : Nat} (h4 : off % 4 = 0) (h : 0x100 ≤ off) (h' : off < 0x200) : ∃ w < 64, off = 0x100 + 4 * w :=
  ⟨(off - 0x100) / 4, by omega, by omega⟩

theorem readAt_of_regAt {off : Nat} {r : Reg} (h : regAt off = some r) (s : State) : readAt off s = readReg r s := by
  rw [readAt, h]

theorem writeAt_of_regAt {off : Nat} {r : Reg} (h : regAt off = some r) (v : Word) (s : State) : writeAt off v s = writeReg r v s := by
  rw [writeAt, h]

theorem readAt_buf {w : Nat} (hw : w < 64) (s : State) : readAt (0x100 + 4 * w) s = s.bufWord w := readAt_of_regAt (regAt_buf hw) s

theorem writeAt_buf {w : Nat} (hw : w < 64) (v : Word) (s : State) : writeAt (0x100 + 4 * w) v s = s.setBufWord w v :=
  writeAt_of_regAt (regAt_buf hw) v s

/-! ## Bytes of words -/

/-- Byte `j` of a word made of bytes (R32, R64). -/
theorem wordByte_wordOfBytes (b : Nat → Byte) {j : Nat} (hj : j < 4) : wordByte (wordOfBytes (b 0) (b 1) (b 2) (b 3)) j = b j := by
  unfold wordByte wordOfBytes
  interval_cases j
  · exact BitVec.extractLsb'_append_eq_right
  · exact (BitVec.extractLsb'_append_eq_of_le (by decide)).trans BitVec.extractLsb'_append_eq_right
  · exact (BitVec.extractLsb'_append_eq_of_le (by decide)).trans
      ((BitVec.extractLsb'_append_eq_of_le (by decide)).trans BitVec.extractLsb'_append_eq_right)
  · exact (BitVec.extractLsb'_append_eq_of_le (by decide)).trans
      ((BitVec.extractLsb'_append_eq_of_le (by decide)).trans BitVec.extractLsb'_append_eq_left)

theorem wordByte_bufWord (s : State) (w : Nat) {j : Nat} (hj : j < 4) : wordByte (s.bufWord w) j = s.bufByte (4 * w + j) :=
  wordByte_wordOfBytes (fun j => s.bufByte (4 * w + j)) hj

/-! ## BUF after a write -/

theorem State.bufByte_of_le {s : State} {i : Nat} (h : s.cfg.bufSize ≤ i) : s.bufByte i = 0 := if_neg (not_lt.2 h)

theorem State.setBufByte_of_le {s : State} {i : Nat} (h : s.cfg.bufSize ≤ i) (v : Byte) : s.setBufByte i v = s := if_neg (not_lt.2 h)

/-- A byte of BUF after a write of one byte: a byte that does not exist reads 0 as before (R32). -/
theorem State.bufByte_setBufByte (s : State) (i j : Nat) (v : Byte) :
    (s.setBufByte i v).bufByte j = if j = i ∧ i < s.cfg.bufSize then v else s.bufByte j := by
  by_cases hj : j = i
  · subst hj
    by_cases hi : j < s.cfg.bufSize
    · rw [State.bufByte_setBufByte_same s j v hi, if_pos ⟨rfl, hi⟩]
    · rw [State.setBufByte_of_le (not_lt.1 hi), if_neg fun h => hi h.2]
  · rw [State.bufByte_setBufByte_other s i j v hj, if_neg fun h => hj h.1]

/-- A byte of the written word, where it exists (R32): of the four byte writes, its own is the one that hits it. -/
theorem State.bufByte_setBufWord_same (s : State) (w : Nat) (v : Word) {j : Nat} (hj : j < 4) (h : 4 * w + j < s.cfg.bufSize) :
    (s.setBufWord w v).bufByte (4 * w + j) = wordByte v j := by
  interval_cases j <;> simp_all [State.setBufWord, State.bufByte_setBufByte]

/-- A byte outside the written word stays. -/
theorem State.bufByte_setBufWord_other (s : State) {w i : Nat} (v : Word) (h : i < 4 * w ∨ 4 * w + 4 ≤ i) :
    (s.setBufWord w v).bufByte i = s.bufByte i := by
  unfold State.setBufWord
  iterate 4 rw [State.bufByte_setBufByte_other _ _ _ _ (by omega)]

theorem State.bufWord_setBufWord_other (s : State) {w w' : Nat} (v : Word) (h : w' ≠ w) :
    (s.setBufWord w v).bufWord w' = s.bufWord w' := by
  unfold State.bufWord
  iterate 4 rw [s.bufByte_setBufWord_other v (by omega)]

/-- What is read back byte by byte after a write of a word (R32). -/
theorem State.wordByte_bufWord_setBufWord (s : State) (w : Nat) (v : Word) {j : Nat} (hj : j < 4) :
    wordByte ((s.setBufWord w v).bufWord w) j = if 4 * w + j < s.cfg.bufSize then wordByte v j else 0 := by
  rw [wordByte_bufWord _ _ hj]
  split
  · next h => exact s.bufByte_setBufWord_same w v hj h
  · next h => exact State.bufByte_of_le (by rw [State.setBufWord_cfg]; exact not_lt.1 h)

/-! ## Inert offsets -/

/-- An access at the offset reads 0 and writes nothing, idle or while a command runs, without OVR (R33, R66, R67). -/
def InertAt (off : Nat) (v : Word) (s : State) : Prop :=
  readAt off s = 0 ∧ writeAt off v s = s ∧ busyRead off s = s.reply 0 ∧ busyWrite off s = s

/-- An offset is inert if it reads 0 and ignores writes, and in a running command draws no free value and sets no OVR. -/
theorem InertAt.of_exact {off : Nat} {v : Word} {s : State} (hr : readAt off s = 0) (hw : writeAt off v s = s)
    (hd : drawsAt off s = false) (ho : overrunsAt off s = false) : InertAt off v s := by
  refine ⟨hr, hw, ?_, ?_⟩
  · rw [busyRead_eq, hd, hr]
    rfl
  · rw [busyWrite_eq, ho, Bool.or_false]

/-- R33: a reserved offset. -/
theorem inertAt_reserved {off : Nat} (v : Word) (s : State) (h : regAt off = none) : InertAt off v s :=
  .of_exact (by rw [readAt, h]) (by rw [writeAt, h]) (by rw [drawsAt, h]) (by rw [overrunsAt, h])

/-- R77: a word of the buffer area wholly at or above BUF_SIZE (log entry 11). -/
theorem inertAt_above_bufSize {w : Nat} (v : Word) (s : State) (hw : w < 64) (h : s.cfg.bufSize ≤ 4 * w) :
    InertAt (0x100 + 4 * w) v s := by
  have hb : ∀ j, s.bufByte (4 * w + j) = 0 := fun j => State.bufByte_of_le (by omega)
  have hs : ∀ j v, s.setBufByte (4 * w + j) v = s := fun j => State.setBufByte_of_le (by omega)
  have hn : ¬ 4 * w < s.cfg.bufSize := not_lt.2 h
  refine .of_exact ?_ ?_ ?_ ?_
  · rw [readAt_buf hw, State.bufWord, show s.bufByte (4 * w) = 0 from hb 0, hb, hb, hb]
    rfl
  · rw [writeAt_buf hw, State.setBufWord, show ∀ v, s.setBufByte (4 * w) v = s from hs 0, hs, hs, hs]
  · simp [drawsAt, regAt_buf hw, openWhileBusy, hn]
  · simp [overrunsAt, regAt_buf hw, overrunsWhileBusy, hn]

/-- Settles O17: the written word is read back from its own bytes, other words from theirs, and a word with no byte below BUF_SIZE is
inert. -/
theorem bufferWordsReadBack : Obligations.BufferWordsReadBack := by
  refine ⟨fun s w v hw => ⟨fun j hj => ?_, fun w' hw' hne => ?_⟩, fun s off v h4 hlo hhi => ?_⟩
  · rw [writeAt_buf hw, readAt_buf hw, s.wordByte_bufWord_setBufWord w v hj]
  · rw [writeAt_buf hw, readAt_buf hw', readAt_buf hw', s.bufWord_setBufWord_other v hne]
  · obtain ⟨w, hw, rfl⟩ := exists_bufOffset h4 (by omega) hhi
    exact inertAt_above_bufSize v s hw (by omega)

/-! ## Reserved bits that read 0

Each mask is laid out as its register is: ones over the constant fields, zeros over the stored ones. -/

/-- A word in fields is 0 under a mask in the same fields if each field is 0 under its part. -/
theorem append_and_append_eq_zero {m n : Nat} {x x' : BitVec m} {y y' : BitVec n} (hx : x &&& x' = 0#m) (hy : y &&& y' = 0#n) :
    (x ++ y) &&& (x' ++ y') = 0#(m + n) := by
  rw [BitVec.and_append, hx, hy, BitVec.zero_append_zero]

/-- CTRL has two fields (R23). -/
theorem ctrlWord_reserved (c : Ctrl) : ctrlWord c &&& 0xFFFFFFFC = 0 := by
  have hm : (0xFFFFFFFC : Word) = BitVec.allOnes 30 ++ 0#1 ++ 0#1 := by decide
  rw [hm, ctrlWord]
  repeat' refine append_and_append_eq_zero ?_ ?_
  all_goals simp

/-- STATUS has RESULT and five flags (R25). -/
theorem statusWord_reserved (busy : Bool) (f : Flags) : statusWord busy f &&& 0xFFFFF0E0 = 0 := by
  have hm : (0xFFFFF0E0 : Word) = BitVec.allOnes 20 ++ 0#4 ++ BitVec.allOnes 3 ++ 0#1 ++ 0#1 ++ 0#1 ++ 0#1 ++ 0#1 := by decide
  rw [hm, statusWord]
  repeat' refine append_and_append_eq_zero ?_ ?_
  all_goals simp

/-- DATA and CRC hold one byte (R26, R27). -/
theorem byteWord_reserved (b : Byte) : b.setWidth 32 &&& 0xFFFFFF00 = 0 := by
  have hb : b.setWidth 32 = 0#24 ++ b := BitVec.setWidth_eq_append (by decide)
  have hm : (0xFFFFFF00 : Word) = BitVec.allOnes 24 ++ 0#8 := by decide
  rw [hb, hm]
  exact append_and_append_eq_zero BitVec.zero_and BitVec.and_zero

/-- SEARCH has three fields (R30). -/
theorem searchWord_reserved (c : Cursor) : searchWord c &&& 0xFFFEF080 = 0 := by
  have hm : (0xFFFEF080 : Word) = BitVec.allOnes 15 ++ 0#1 ++ BitVec.allOnes 4 ++ 0#4 ++ BitVec.allOnes 1 ++ 0#7 := by decide
  rw [hm, searchWord]
  repeat' refine append_and_append_eq_zero ?_ ?_
  all_goals simp

/-- INFO has BUF_SIZE (R31). -/
theorem infoWord_reserved (p : Params) : infoWord p &&& 0xFFFF0000 = 0 := by
  have hm : (0xFFFF0000 : Word) = BitVec.allOnes 16 ++ 0#16 := by decide
  rw [hm, infoWord]
  exact append_and_append_eq_zero BitVec.zero_and BitVec.and_zero

/-! ## Reserved bits that a write ignores -/

section write
variable {v v' m : Word} (h : v &&& m = v' &&& m)
include h

/-- Words that agree under a mask agree in a field that the mask covers. -/
theorem extractLsb'_eq_of_and_eq (start len : Nat) (hm : m.extractLsb' start len = BitVec.allOnes len) :
    v.extractLsb' start len = v'.extractLsb' start len := by
  have he := congrArg (BitVec.extractLsb' start len) h
  rwa [BitVec.extractLsb'_and, BitVec.extractLsb'_and, hm, BitVec.and_allOnes, BitVec.and_allOnes] at he

theorem getLsbD_eq_of_and_eq (i : Nat) (hm : m.getLsbD i = true) : v.getLsbD i = v'.getLsbD i := by
  have he := congrArg (BitVec.getLsbD · i) h
  simpa only [BitVec.getLsbD_and, hm, Bool.and_true] using he

end write

theorem ctrlOfWord_congr {v v' : Word} (h : v &&& 0x3 = v' &&& 0x3) : ctrlOfWord v = ctrlOfWord v' := by
  rw [ctrlOfWord, ctrlOfWord, getLsbD_eq_of_and_eq h 0 (by decide), getLsbD_eq_of_and_eq h 1 (by decide)]

theorem w1c_congr {v v' : Word} (h : v &&& 0x6 = v' &&& 0x6) (f : Flags) : w1c v f = w1c v' f := by
  rw [w1c, w1c, getLsbD_eq_of_and_eq h 1 (by decide), getLsbD_eq_of_and_eq h 2 (by decide)]

theorem searchOfWord_congr {v v' : Word} (h : v &&& 0x10F7F = v' &&& 0x10F7F) (c : Cursor) : searchOfWord v c = searchOfWord v' c := by
  rw [searchOfWord, searchOfWord, extractLsb'_eq_of_and_eq h 0 7 (by decide), extractLsb'_eq_of_and_eq h 8 4 (by decide),
    getLsbD_eq_of_and_eq h 16 (by decide)]

/-- Settles O16: a reserved offset has no register; each register's reserved bits are its constant fields; and a write takes from the
word only the bits of the stored fields. -/
theorem reservedBitsAndOffsetsAreInert : Obligations.ReservedBitsAndOffsetsAreInert := by
  have hctrl : regAt 0x000 = some .ctrl := rfl
  have hstatus : regAt 0x008 = some .status := rfl
  have hdata : regAt 0x00C = some .data := rfl
  have hcrc : regAt 0x010 = some .crc := rfl
  have hsearch : regAt 0x024 = some .search := rfl
  have hinfo : regAt 0x028 = some .info := rfl
  refine ⟨fun s off v h => inertAt_reserved v s (regAt_reserved h), fun s => ?_, fun s v v' => ?_⟩
  · simp only [readAt_of_regAt hctrl, readAt_of_regAt hstatus, readAt_of_regAt hdata, readAt_of_regAt hcrc, readAt_of_regAt hsearch,
      readAt_of_regAt hinfo]
    exact ⟨ctrlWord_reserved _, statusWord_reserved _ _, byteWord_reserved _, byteWord_reserved _, searchWord_reserved _,
      infoWord_reserved _⟩
  · simp only [writeAt_of_regAt hctrl, writeAt_of_regAt hstatus, writeAt_of_regAt hcrc, writeAt_of_regAt hsearch, writeReg]
    refine ⟨fun h => ?_, fun h => ?_, fun h => ?_, fun h => ?_⟩
    · rw [ctrlOfWord_congr h]
    · rw [w1c_congr h]
    · rw [wordByte, wordByte, extractLsb'_eq_of_and_eq h (8 * 0) 8 (by decide)]
    · rw [searchOfWord_congr h]

end Sys2Proof.Machine
end

section
/-! PROOF. A step's dispatch (R21, R37), and the host's accesses to an idle engine: which are admitted (R61), what a read and a write do
(R62, R63), and their order (R70). -/

namespace Sys2Proof.Machine

/-! ## The step of a running command -/

/-- The word that `withFetchWord` puts in place is the whole 32-bit word. -/
theorem State.withFetchWord_toNat (s : State) (w : Word) : s.withFetchWord 32 w.toNat = s.accept w := by
  rw [State.withFetchWord, Nat.mod_eq_of_lt w.isLt, BitVec.ofNat_toNat, BitVec.setWidth_eq]

theorem step_decoded_start {s : State} {w : Word} {i : Instr} (hw : s.seq = .run w) (hd : decodeWord w = .ok i)
    (hp : s.pos.place = .start) : step s = exec i s := by
  simp only [step, hw, hd, hp]

/-- Settles O6: the sequencer's word is decoded, and the position says whether the command is at its start. -/
theorem stepRunsTheDecodedCommand : Obligations.StepRunsTheDecodedCommand := by
  refine ⟨fun s w i hw hd => ⟨step_decoded_start hw hd, fun hp => ?_⟩, fun s w i hd => ?_⟩
  · rw [step_past_start hw hp, restOfWord, hd]
  · rw [s.withFetchWord_toNat]
    exact step_decoded_start rfl hd rfl

/-! ## The step of an idle engine, access by access -/

theorem step_idle {s : State} (hs : s.seq = .idle) : step s = hostStep s := by
  simp only [step, hs]

section idle
variable {s : State} {a : Arrival} {off size : Nat} {v : Word} {rest : List HostReq} (hs : s.seq = .idle)
include hs

/-- R61, R62. -/
theorem step_idle_read (hh : s.env.host = ⟨a, .read off size⟩ :: rest) :
    step s = if size = 4 ∧ off % 4 = 0 then .next ((s.setHost rest).reply (readAt off s)) else .refused (.unadmittedAccess off size) := by
  simp only [step_idle hs, hostStep, hh, HostOp.admitted, decide_eq_true_eq]

/-- R61, R63. -/
theorem step_idle_write (hh : s.env.host = ⟨a, .write off size v⟩ :: rest) :
    step s = if size = 4 ∧ off % 4 = 0 then .next (writeAt off v (s.setHost rest)) else .refused (.unadmittedAccess off size) := by
  simp only [step_idle hs, hostStep, hh, HostOp.admitted, decide_eq_true_eq]

/-- R100: a poll reads STATUS, and the rest of its WAIT is not made. -/
theorem step_idle_poll {last : Bool} (hh : s.env.host = ⟨a, .poll last⟩ :: rest) :
    step s = .next ((s.setHost (if last then rest else dropPolls rest)).reply (readAt 0x008 s)) := by
  simp only [step_idle hs, hostStep, hh, regOffset]

theorem step_idle_reset (hh : s.env.host = ⟨a, .reset⟩ :: rest) : step s = .next (s.setHost rest).hardReset := by
  simp only [step_idle hs, hostStep, hh]

theorem step_idle_look {n : Nat} (hh : s.env.host = ⟨a, .look n⟩ :: rest) : step s = .next (s.setHost rest) := by
  simp only [step_idle hs, hostStep, hh]

end idle

@[simp] theorem writeReg_env (r : Reg) (v : Word) (s : State) : (writeReg r v s).env = s.env := by
  cases r with
  | buf w => exact s.setBufWord_env w v
  | _ => rfl

/-- No write touches the inputs to come or the records. -/
@[simp] theorem writeAt_env (off : Nat) (v : Word) (s : State) : (writeAt off v s).env = s.env := by
  unfold writeAt
  split
  · exact writeReg_env _ v s
  · rfl

/-- No register's value depends on the pin, the position, the accesses to come or the replies. -/
theorem readAt_unseen (off : Nat) (s : State) (p : Pin) (n : Position) (l : List HostReq) (vs : List Word) :
    readAt off { s with pin := p, pos := n, env := { s.env with host := l, replies := vs } } = readAt off s := by
  unfold readAt
  cases regAt off with
  | none => rfl
  | some r => cases r <;> rfl

/-- Settles O12: the read's step adds a reply, which no register's value depends on. -/
theorem idleReadsHaveNoSideEffect : Obligations.IdleReadsHaveNoSideEffect := by
  intro s a off rest hs h4 hh
  refine ⟨_, (step_idle_read hs hh).trans (if_pos ⟨rfl, h4⟩), rfl, ?_⟩
  exact readAt_unseen off s s.pin s.pos rest (s.env.replies ++ [readAt off s])

/-- Settles O15: the step of an idle engine asks of an access that it is of 4 bytes and aligned. -/
theorem onlyAlignedWordAccessesAreAdmitted : Obligations.OnlyAlignedWordAccessesAreAdmitted := by
  rintro s a off size v rest op hs (rfl | rfl) hh
  · rw [step_idle_read hs hh]
    exact ⟨fun h => ⟨_, if_pos h, rfl⟩, fun h => if_neg h⟩
  · rw [step_idle_write hs hh]
    exact ⟨fun h => ⟨_, if_pos h, by rw [writeAt_env]; rfl⟩, fun h => if_neg h⟩

/-! ## Halves of a ROM code -/

theorem wordByte_getLsbD (w : Word) (j : Nat) {i : Nat} (hi : i < 8) : (wordByte w j).getLsbD i = w.getLsbD (8 * j + i) := by
  simp [wordByte, hi]

theorem setRomLow_getLsbD (c : RomCode) (v : Word) {k : Nat} (hk : k < 64) :
    (setRomLow c v).getLsbD k = if k < 32 then v.getLsbD k else c.getLsbD k := by
  rw [setRomLow, BitVec.getLsbD_append, romHigh, BitVec.getLsbD_extractLsb']
  split
  · simp [*]
  · simp [show k - 32 < 32 by omega, show 32 + (k - 32) = k by omega]

theorem setRomHigh_getLsbD (c : RomCode) (v : Word) (k : Nat) :
    (setRomHigh c v).getLsbD k = if k < 32 then c.getLsbD k else v.getLsbD (k - 32) := by
  rw [setRomHigh, BitVec.getLsbD_append, romLow, BitVec.getLsbD_extractLsb']
  split <;> simp [*]

/-- R63: bytes 0 to 3 are the written word's. -/
theorem romByte_setRomLow (c : RomCode) (v : Word) {j : Nat} (hj : j < 8) :
    romByte (setRomLow c v) j = if j < 4 then wordByte v j else romByte c j := by
  refine BitVec.eq_of_getLsbD_eq fun i hi => ?_
  rw [romByte_getLsbD _ _ _ hi, setRomLow_getLsbD _ _ (by omega)]
  split
  · rw [if_pos (by omega), wordByte_getLsbD _ _ hi]
  · rw [if_neg (by omega), romByte_getLsbD _ _ _ hi]

/-- R63: bytes 4 to 7 are the written word's. -/
theorem romByte_setRomHigh (c : RomCode) (v : Word) (j : Nat) :
    romByte (setRomHigh c v) j = if j < 4 then romByte c j else wordByte v (j - 4) := by
  refine BitVec.eq_of_getLsbD_eq fun i hi => ?_
  rw [romByte_getLsbD _ _ _ hi, setRomHigh_getLsbD]
  split
  · rw [if_pos (by omega), romByte_getLsbD _ _ _ hi]
  · rw [if_neg (by omega), wordByte_getLsbD _ _ hi, show 8 * (j - 4) + i = 8 * j + i - 32 by omega]

/-! ## Writes, register by register -/

/-- R63: LD, LFD and EXH as numbers of the written word. -/
theorem searchOfWord_eq (v : Word) (c : Cursor) :
    searchOfWord v c =
      { srom := c.srom, ld := BitVec.ofNat 7 v.toNat, lfd := BitVec.ofNat 4 (v.toNat / 2 ^ 8), exh := v.getLsbD 16 } := by
  simp [searchOfWord, BitVec.extractLsb', Nat.shiftRight_eq_div_pow]

/-- A write of BUF changes nothing but BUF. -/
theorem State.setBufWord_eq (s : State) (w : Nat) (v : Word) : s.setBufWord w v = { s with buf := (s.setBufWord w v).buf } := by
  have hb (u : State) (i : Nat) (x : Byte) : u.setBufByte i x = { u with buf := (u.setBufByte i x).buf } := by
    unfold State.setBufByte
    split <;> rfl
  unfold State.setBufWord
  rw [hb, hb _ (4 * w + 2), hb _ (4 * w + 1), hb _ (4 * w)]

/-- R63: each byte of BUF after a write of a word. -/
theorem State.bufByte_setBufWord (s : State) (w : Nat) (v : Word) (i : Nat) :
    (s.setBufWord w v).bufByte i = if 4 * w ≤ i ∧ i < 4 * w + 4 ∧ i < s.cfg.bufSize then wordByte v (i - 4 * w) else s.bufByte i := by
  by_cases hi : 4 * w ≤ i ∧ i < 4 * w + 4
  · obtain ⟨j, rfl⟩ := Nat.exists_eq_add_of_le hi.1
    by_cases hb : 4 * w + j < s.cfg.bufSize
    · rw [if_pos ⟨hi.1, hi.2, hb⟩, s.bufByte_setBufWord_same w v (by omega) hb, Nat.add_sub_cancel_left]
    · rw [if_neg fun h => hb h.2.2, State.bufByte_of_le (by simpa using hb), State.bufByte_of_le (by simpa using hb)]
  · rw [if_neg fun h => hi ⟨h.1, h.2.1⟩, s.bufByte_setBufWord_other v (by omega)]

/-- Settles O14: the step writes the register at the offset, and each register's write is the case of R63. -/
theorem idleWritesAsListed : Obligations.IdleWritesAsListed := by
  intro s a off v rest hs h4 hh
  refine ⟨_, (step_idle_write hs hh).trans (if_pos ⟨rfl, h4⟩), ?_⟩
  refine ⟨?_, ?_, ?_, ?_, ?_, ?_, ?_, ?_, ?_, ?_, ?_⟩
  · rintro rfl; rfl
  · rintro rfl; rfl
  · rintro rfl; rfl
  · rintro rfl; rfl
  · rintro rfl
    exact ⟨rfl, fun j hj => romByte_setRomLow s.rom v hj⟩
  · rintro rfl
    exact ⟨rfl, fun j _ => romByte_setRomHigh s.rom v j⟩
  · rintro rfl
    exact ⟨rfl, fun j hj => romByte_setRomLow s.cursor.srom v hj⟩
  · rintro rfl
    exact ⟨rfl, fun j _ => romByte_setRomHigh s.cursor.srom v j⟩
  · rintro rfl
    exact congrArg (s.setHost rest).setCursor (searchOfWord_eq v s.cursor)
  · rintro ⟨hlo, hhi⟩
    obtain ⟨w, hw, rfl⟩ := exists_bufOffset h4 hlo hhi
    rw [writeAt_buf hw, Nat.add_sub_cancel_left]
    exact ⟨(s.setHost rest).setBufWord_eq w v, (s.setHost rest).bufByte_setBufWord w v⟩
  · rintro (rfl | rfl | h)
    · rfl
    · rfl
    · rw [writeAt, regAt_reserved h]

end Sys2Proof.Machine
end

section
/-! PROOF. The host beside a running command (R66, R67, R70, R114, R245). What an access can change in a running command is OVR, the
accesses to come, the replies and the count of the free values drawn for them: `State.quiet` forgets these four. A command run from a
state with no hardware reset and no look to come, and the same command run from the state made quiet, go step by step through the
same states up to these four. -/

namespace Sys2Proof.Machine

/-! ## The machine without the host -/

/-- The state with nothing of the host's accesses in it: none to come, no reply, no draw, and OVR clear. -/
def State.quiet (s : State) : State :=
  { s with flags := { s.flags with ovr := false }, env := { s.env with host := [], replies := [], draws := 0 } }

/-- States that are the same without the host's accesses differ at most in what they leave. -/
theorem State.eq_of_quiet_eq {t u : State} (h : t.quiet = u.quiet) :
    t = { u with
      flags := { u.flags with ovr := t.flags.ovr }
      env := { u.env with host := t.env.host, replies := t.env.replies, draws := t.env.draws } } := by
  have ht : t = { t.quiet with
      flags := { t.quiet.flags with ovr := t.flags.ovr }
      env := { t.quiet.env with host := t.env.host, replies := t.env.replies, draws := t.env.draws } } := rfl
  rw [h] at ht
  exact ht

/-- Whether a reset or a look is to come is a matter of the inputs. -/
theorem State.unbroken.of_env {s t : State} (h : s.unbroken) (he : t.env = s.env) : t.unbroken := by
  unfold State.unbroken State.noReset State.noLook
  rw [he]
  exact h

theorem State.unbroken.of_no_host {s : State} (h : s.env.host = []) : s.unbroken := by
  simp [State.unbroken, State.noReset, State.noLook, h]

theorem busyRead_quiet (off : Nat) (s : State) : (busyRead off s).quiet = s.quiet := by
  rw [busyRead_eq]
  split <;> rfl

theorem busyWrite_quiet (off : Nat) (s : State) : (busyWrite off s).quiet = s.quiet := by
  rw [busyWrite_eq]
  rfl

theorem State.setBufByte_quiet (s : State) (i : Nat) (v : Byte) : (s.setBufByte i v).quiet = s.quiet.setBufByte i v := by
  unfold State.setBufByte
  by_cases h : i < s.cfg.bufSize
  · rw [if_pos h, if_pos (show i < s.quiet.cfg.bufSize from h)]
    rfl
  · rw [if_neg h, if_neg (show ¬ i < s.quiet.cfg.bufSize from h)]

theorem State.walk_quiet (s : State) (w : Walked) (c : Cursor) : (s.walk w c).quiet = s.quiet.walk w c := by
  cases w <;> rfl

theorem State.withPass_quiet (s : State) (w : Walked) (p : Pass) : (s.withPass w p).quiet = s.quiet.withPass w p := by
  cases w <;> rfl

/-! ## A piece of a command and the same piece without the host -/

/-- A piece `r`, which no reset cuts and no look stops, and the same piece `r'` from the quiet state: the same value, and the same
state without the host. -/
def Ran.Mirrors {α : Type} (r r' : Ran α) : Prop := ∃ a t, r = .ok a t ∧ t.unbroken ∧ r' = .ok a t.quiet

section mirrors
variable {α β : Type}

theorem Ran.Mirrors.ok {s : State} (a : α) (h : s.unbroken) : (Ran.ok a s).Mirrors (.ok a s.quiet) := ⟨a, s, rfl, h, rfl⟩

theorem Ran.Mirrors.andThen {r r' : Ran α} {f f' : α → State → Ran β} (h : r.Mirrors r')
    (hf : ∀ a t, t.unbroken → (f a t).Mirrors (f' a t.quiet)) : (r.andThen f).Mirrors (r'.andThen f') := by
  obtain ⟨a, t, rfl, ht, rfl⟩ := h
  exact hf a t ht

end mirrors

/-- The accesses that land leave the quiet state as it was. -/
theorem arrivals_quiet {l : List HostReq} {s u : State} (h : arrivals l s = .ok () u) : u.quiet = s.quiet := by
  induction l generalizing s with
  | nil =>
    cases h
    rfl
  | cons r rest ih =>
    obtain ⟨a, op⟩ := r
    unfold arrivals at h
    split at h
    · cases op with
      | read off size => exact (ih h).trans (busyRead_quiet off s)
      | write off size v => exact (ih h).trans (busyWrite_quiet off s)
      | poll last => exact (ih h).trans (busyRead_quiet _ s)
      | reset => cases h
      | look n => cases h
    · cases h
      rfl

theorem here_mirrors {s : State} (hs : s.unbroken) : (here s).Mirrors (here s.quiet) := by
  have hy := here_yields s
  cases hr : here s with
  | ok a u =>
    rw [hr] at hy
    exact ⟨a, u, rfl, hy.2.unbroken hs, congrArg (Ran.ok ()) (arrivals_quiet hr).symm⟩
  | cut u =>
    rw [hr] at hy
    exact absurd hs.1 (CutFrom.reset_to_come hy)
  | stopped u =>
    rw [hr] at hy
    exact absurd hs.2 (StoppedFrom.look_to_come hy)

section pieces
variable {s : State} (hs : s.unbroken)
include hs

theorem point_mirrors : (point s).Mirrors (point s.quiet) :=
  here_mirrors (s := { s with pos := { s.pos with points := s.pos.points + 1 } }) hs

theorem phase_mirrors (pl : Place) (p : Pin) (d : Nat) : (phase pl p d s).Mirrors (phase pl p d s.quiet) := by
  obtain ⟨_, t, h, ht, h'⟩ := point_mirrors (s := s.enter pl p d) hs
  refine ⟨(), t.held p (s.phaseLength d), ?_, ht, ?_⟩
  · rw [phase, h]
    rfl
  · exact congrArg (Ran.held · p (s.phaseLength d)) h'

theorem sample_mirrors : (sample s).Mirrors (sample s.quiet) := .ok (s := s.sampled) s.level hs

/-! ## The procedures of the bus physical layer -/

theorem resetSeq_mirrors : (resetSeq s).Mirrors (resetSeq s.quiet) :=
  (phase_mirrors hs _ _ _).andThen fun _ _ h => (phase_mirrors h _ _ _).andThen fun _ _ h =>
    (phase_mirrors h _ _ _).andThen fun _ _ h => (sample_mirrors h).andThen fun _ _ h =>
    (phase_mirrors h _ _ _).andThen fun _ _ h => (sample_mirrors h).andThen fun _ _ h => .ok _ h

theorem presence_mirrors (p : Bool) : (presence p s).Mirrors (presence p s.quiet) :=
  (point_mirrors (s := (s.setPresent p).stand .present) hs).andThen fun _ _ h => .ok p h

theorem resetPresence_mirrors : (resetPresence s).Mirrors (resetPresence s.quiet) :=
  (resetSeq_mirrors hs).andThen fun p _ h => presence_mirrors h p

theorem writeBit_mirrors (b : Bool) : (writeBit b s).Mirrors (writeBit b s.quiet) :=
  (phase_mirrors hs _ _ _).andThen fun _ _ h => phase_mirrors h _ _ _

theorem readBit_mirrors : (readBit s).Mirrors (readBit s.quiet) :=
  (phase_mirrors hs _ _ _).andThen fun _ _ h => (phase_mirrors h _ _ _).andThen fun _ _ h =>
    (sample_mirrors h).andThen fun v _ h => (phase_mirrors h _ _ _).andThen fun _ _ h => .ok v h

/-! ## Bits, bytes, blocks -/

theorem writeBits_mirrors (i : Nat) (bs : List Bool) : (writeBits i bs s).Mirrors (writeBits i bs s.quiet) := by
  induction bs generalizing i s with
  | nil => exact .ok () hs
  | cons b bs ih => exact (writeBit_mirrors (s := s.atBit i) hs b).andThen fun _ _ h => ih h (i + 1)

theorem readBits_mirrors (n : Nat) (bs : List Bool) : (readBits n bs s).Mirrors (readBits n bs s.quiet) := by
  induction n generalizing bs s with
  | zero => exact .ok bs hs
  | succ n ih => exact (readBit_mirrors (s := s.withBits bs) hs).andThen fun b _ h => ih h (bs ++ [b])

theorem writeByte_mirrors (v : Byte) : (writeByte v s).Mirrors (writeByte v s.quiet) := writeBits_mirrors hs 0 _

theorem readByte_mirrors : (readByte s).Mirrors (readByte s.quiet) := (readBits_mirrors hs 8 []).andThen fun _ _ h => .ok _ h

theorem writeBytes_mirrors (j : Nat) (vs : List Byte) : (writeBytes j vs s).Mirrors (writeBytes j vs s.quiet) := by
  induction vs generalizing j s with
  | nil => exact .ok () hs
  | cons v vs ih => exact (writeByte_mirrors (s := s.atByte j) hs v).andThen fun _ _ h => ih h (j + 1)

theorem readBytes_mirrors (n : Nat) (vs : List Byte) : (readBytes n vs s).Mirrors (readBytes n vs s.quiet) := by
  induction n generalizing vs s with
  | zero => exact .ok vs hs
  | succ n ih => exact (readByte_mirrors (s := s.withRbuf vs) hs).andThen fun v _ h => ih h (vs ++ [v])

theorem writeBuf_mirrors (n j : Nat) : (writeBuf n j s).Mirrors (writeBuf n j s.quiet) := by
  induction n generalizing j s with
  | zero => exact .ok () hs
  | succ n ih => exact (writeByte_mirrors (s := s.atByte j) hs _).andThen fun _ _ h => ih h (j + 1)

theorem readBuf_mirrors (n j : Nat) : (readBuf n j s).Mirrors (readBuf n j s.quiet) := by
  induction n generalizing j s with
  | zero => exact .ok () hs
  | succ n ih =>
    refine (readByte_mirrors (s := s.atByte j) hs).andThen fun v t h => ?_
    rw [← t.setBufByte_quiet]
    exact ih (h.of_env (by simp)) (j + 1)

/-! ## The search pass -/

theorem searchBits_mirrors (w : Walked) (n k : Nat) (p : Pass) : (searchBits w n k p s).Mirrors (searchBits w n k p s.quiet) := by
  induction n generalizing k p s with
  | zero => exact .ok _ hs
  | succ n ih =>
    refine (readBit_mirrors (s := s.atPair k none) hs).andThen fun a t h => ?_
    refine (readBit_mirrors (s := t.atPair k (some a)) h).andThen fun c u h => ?_
    unfold searchTurn
    cases choose a c k p with
    | none => exact .ok _ h
    | some x =>
      obtain ⟨dir, p'⟩ := x
      dsimp only
      rw [← u.withPass_quiet]
      refine (writeBit_mirrors (s := (u.withPass w p').atPair k none) (h.of_env (by simp)) dir).andThen fun _ v h => ?_
      unfold searchWritten
      rw [← v.withPass_quiet]
      exact ih (h.of_env (by simp)) (k + 1) _

theorem conclude_mirrors (w : Walked) (r : ResultCode × Cursor) : (conclude w r s).Mirrors (conclude w r s.quiet) := by
  unfold conclude
  rw [← s.walk_quiet]
  exact .ok r (hs.of_env (by simp))

theorem searchStep_mirrors (w : Walked) (c : Cursor) : (searchStep w c s).Mirrors (searchStep w c s.quiet) := by
  unfold searchStep
  split
  · exact conclude_mirrors hs w _
  refine (resetPresence_mirrors hs).andThen fun p t h => ?_
  unfold passAfterReset
  split
  · exact conclude_mirrors h w _
  exact (writeByte_mirrors h _).andThen fun _ u h => (searchBits_mirrors (s := u.withLastZero 0) h w 64 1 _).andThen
    fun r _ h => conclude_mirrors h w _

/-! ## Commands -/

theorem finish_mirrors (code : ResultCode) : (finish code s).Mirrors (finish code s.quiet) := by
  unfold finish Ran.complete
  exact (point_mirrors (s := s.stand (.last code)) hs).andThen fun _ t h => .ok (s := t.complete code) () h

theorem resetEnd_mirrors (p : Bool) : (resetEnd p s).Mirrors (resetEnd p s.quiet) := finish_mirrors hs _

theorem finishOk_mirrors : (finishOk () s).Mirrors (finishOk () s.quiet) := finish_mirrors hs _

theorem readBitEnd_mirrors (v : Bool) : (readBitEnd v s).Mirrors (readBitEnd v s.quiet) :=
  finish_mirrors (s := s.setData (if v then 1 else 0)) hs _

theorem readByteEnd_mirrors (v : Byte) : (readByteEnd v s).Mirrors (readByteEnd v s.quiet) :=
  finish_mirrors (s := s.setData v) hs _

theorem readRomEnd_mirrors (vs : List Byte) : (readRomEnd vs s).Mirrors (readRomEnd vs s.quiet) := by
  unfold readRomEnd
  show Ran.Mirrors _ (if (s.ctrl.crcEn && crc8Bytes 0 vs != 0) = true then _ else _)
  split
  · exact finish_mirrors (s := s.setRom 0) hs _
  · exact finish_mirrors (s := s.setRom (romOfBytes vs)) hs _

theorem readRomAfterReset_mirrors (p : Bool) : (readRomAfterReset p s).Mirrors (readRomAfterReset p s.quiet) := by
  unfold readRomAfterReset
  split
  · exact finish_mirrors (s := s.setRom 0) hs _
  · exact (writeByte_mirrors hs _).andThen fun _ _ h => (readBytes_mirrors h 8 []).andThen fun vs _ h => readRomEnd_mirrors h vs

theorem searchCommandEnd_mirrors (r : ResultCode × Cursor) : (searchCommandEnd r s).Mirrors (searchCommandEnd r s.quiet) :=
  finish_mirrors (s := s.setFound (r.1 == .ok)) hs _

theorem verifyEnd_mirrors (r : ResultCode × Cursor) : (verifyEnd r s).Mirrors (verifyEnd r s.quiet) :=
  finish_mirrors (s := s.setFound (verifyResult s.rom r == .ok)) hs _

theorem bodyOf_mirrors (i : Instr) : (bodyOf i s).Mirrors (bodyOf i s.quiet) := by
  unfold bodyOf
  cases i with
  | reset => exact (resetPresence_mirrors hs).andThen fun p _ h => resetEnd_mirrors h p
  | writeBit b => exact (writeBit_mirrors hs b).andThen fun _ _ h => finishOk_mirrors h
  | readBit => exact (readBit_mirrors hs).andThen fun v _ h => readBitEnd_mirrors h v
  | writeByte v => exact (writeByte_mirrors hs v).andThen fun _ _ h => finishOk_mirrors h
  | readByte => exact (readByte_mirrors hs).andThen fun v _ h => readByteEnd_mirrors h v
  | writeBlock n => exact (writeBuf_mirrors hs n.toNat 0).andThen fun _ _ h => finishOk_mirrors h
  | readBlock n => exact (readBuf_mirrors hs n.toNat 0).andThen fun _ _ h => finishOk_mirrors h
  | writeRomCode => exact (writeBytes_mirrors hs 0 _).andThen fun _ _ h => finishOk_mirrors h
  | readRom => exact (resetPresence_mirrors hs).andThen fun p _ h => readRomAfterReset_mirrors h p
  | searchFirst =>
    exact (searchStep_mirrors (s := s.setCursor (Cursor.fresh 0)) hs .registers _).andThen fun r _ h => searchCommandEnd_mirrors h r
  | searchNext => exact (searchStep_mirrors hs .registers _).andThen fun r _ h => searchCommandEnd_mirrors h r
  | verifyRom =>
    exact (searchStep_mirrors (s := s.walk .own (verifyCursor s.rom)) hs .own _).andThen fun r _ h => verifyEnd_mirrors h r
  | crc8Step b => exact finish_mirrors (s := s.setAcc (crc8 s.acc b)) hs _
  | crc8Block n => exact finish_mirrors (s := s.setAcc (crc8Bytes s.acc (bufBytes s n.toNat 0))) hs _

theorem command_mirrors (i : Instr) :
    ((point (s.stand .checks)).checked i (bodyOf i)).Mirrors ((point (s.quiet.stand .checks)).checked i (bodyOf i)) := by
  refine (point_mirrors (s := s.stand .checks) hs).andThen fun _ t h => ?_
  show Ran.Mirrors _ (match prologue i t with | some code => finish code t.quiet | none => bodyOf i t.quiet)
  cases prologue i t with
  | some code => exact finish_mirrors h code
  | none => exact bodyOf_mirrors h i

/-- A command's step from a state, and from the state without the host. -/
theorem exec_quiet (i : Instr) : ∃ t, exec i s = .next t ∧ exec i s.quiet = .next t.quiet := by
  obtain ⟨_, t, h, -, h'⟩ := command_mirrors hs i
  exact ⟨t, by rw [exec_eq, h]; rfl, by rw [exec_eq, h']; rfl⟩

/-- What lands in a command changes nothing of how it ends but OVR, the accesses to come, the replies and the draws (R66, R67, R245). -/
theorem exec_undisturbed (i : Instr) : ∃ t t0, exec i s = .next t ∧ exec i (s.setHost []) = .next t0 ∧
    t = { t0 with
      flags := { t0.flags with ovr := t.flags.ovr }
      env := { t0.env with host := t.env.host, replies := t.env.replies, draws := t.env.draws } } := by
  obtain ⟨t, ht, hq⟩ := exec_quiet hs i
  obtain ⟨t0, ht0, hq0⟩ := exec_quiet (s := s.setHost []) (.of_no_host rfl) i
  exact ⟨t, t0, ht, ht0, State.eq_of_quiet_eq (Host.Outcome.next.inj (hq.symm.trans hq0))⟩

end pieces

end Sys2Proof.Machine
end

section
/-! PROOF. The host's accesses to a running command: a write is dropped (R66), a read is exact or open (R67), and accesses take effect
in issue order (R70). -/

namespace Sys2Proof.Machine

/-! ## What a command that runs to its end has taken -/

/-- With no reset and no look to come, a command runs to its end. -/
theorem Ran.Leaves.completed {s : State} {Q P : State → Prop} {r : Ran Unit} (h : r.Leaves s Q P) (hs : s.unbroken) :
    ∃ t, r = .ok () t ∧ Completed s t := by
  cases r with
  | ok _ t => exact ⟨t, rfl, h.1⟩
  | cut t => exact absurd hs.1 (CutFrom.reset_to_come h)
  | stopped t => exact absurd hs.2 (StoppedFrom.look_to_come h.1)

theorem exec_completed {i : Instr} {s t : State} (hs : s.unbroken) (h : exec i s = .next t) : Completed s t := by
  obtain ⟨r, he, hr⟩ := exec_leaves i s
  obtain ⟨u, rfl, hu⟩ := hr.completed hs
  cases he.symm.trans h
  exact hu

/-- The same from the state that the command's first point leaves. -/
theorem exec_completed_after_point {i : Instr} {s u t : State} (hp : point (s.stand .checks) = .ok () u) (hu : u.unbroken)
    (h : exec i s = .next t) : Completed u t := by
  have hr : ((Ran.ok () u).checked i (bodyOf i)).Leaves u Produced (StandsIn i) := Ran.Keeps.checked (.ok () trivial)
  obtain ⟨v, hv, hc⟩ := hr.completed hu
  rw [exec_eq, hp, hv] at h
  cases h
  exact hc

section completed
variable {s t : State} (h : Completed s t)
include h

/-- With nothing to come the host has no part in a command. -/
theorem Completed.of_no_host (hh : s.env.host = []) :
    t.env.host = [] ∧ t.env.replies = s.env.replies ∧ t.env.draws = s.env.draws ∧ t.flags.ovr = s.flags.ovr := by
  obtain ⟨l, hl, vs, hv, hr⟩ := h.took
  obtain ⟨rfl, ht⟩ := List.append_eq_nil_iff.1 (hl.symm.trans hh)
  obtain ⟨rfl, hd, ho⟩ := hv.of_nil
  exact ⟨ht, by rw [hr, List.append_nil], hd, ho⟩

/-- R66: one write to come gets no reply, and sets OVR as its register says if it lands. -/
theorem Completed.of_write {a : Arrival} {off size : Nat} {v : Word} (hh : s.env.host = [⟨a, .write off size v⟩]) :
    t.env.replies = s.env.replies ∧ t.env.draws = s.env.draws ∧
      (t.env.host = [] → t.flags.ovr = (s.flags.ovr || overrunsAt off s)) := by
  obtain ⟨l, hl, vs, hv, hr⟩ := h.took
  rw [hh] at hl
  cases l with
  | nil =>
    obtain ⟨rfl, hd, -⟩ := hv.of_nil
    exact ⟨by rw [hr, List.append_nil], hd, fun ht => by rw [ht] at hl; cases hl⟩
  | cons r l =>
    obtain ⟨rfl, hl'⟩ := List.cons.inj hl.symm
    obtain ⟨rfl, -⟩ := List.append_eq_nil_iff.1 hl'
    cases hv with
    | status hs => simp at hs
    | write hv =>
      obtain ⟨rfl, hd, ho⟩ := hv.of_nil
      exact ⟨by rw [hr, List.append_nil], hd, fun _ => ho⟩

end completed

/-! ## One access that lands at the first point -/

/-- An aligned write whose time has come lands (R61, R66). -/
theorem arrivals_write {p off : Nat} {s : State} (h4 : off % 4 = 0) (hp : p ≤ s.pos.points) (v : Word) (rest : List HostReq) :
    arrivals (⟨.during p, .write off 4 v⟩ :: rest) s = arrivals rest (busyWrite off s) := by
  have hl : HostReq.lands ⟨.during p, .write off 4 v⟩ s.pos.points = true := by simp [HostReq.lands, HostOp.admitted, h4, hp]
  rw [arrivals, if_pos hl]

/-- An aligned read whose time has come lands (R61, R67). -/
theorem arrivals_read {p off : Nat} {s : State} (h4 : off % 4 = 0) (hp : p ≤ s.pos.points) (rest : List HostReq) :
    arrivals (⟨.during p, .read off 4⟩ :: rest) s = arrivals rest (busyRead off s) := by
  have hl : HostReq.lands ⟨.during p, .read off 4⟩ s.pos.points = true := by simp [HostReq.lands, HostOp.admitted, h4, hp]
  rw [arrivals, if_pos hl]

/-- The state at the first point of a command, its checks. -/
def State.atChecks (s : State) : State := { s.stand .checks with pos := { (s.stand .checks).pos with points := s.pos.points + 1 } }

theorem point_checks (s : State) : point (s.stand .checks) = arrivals s.env.host s.atChecks := rfl

/-- What a read gets does not depend on the position or the pin. -/
theorem busyRead_atChecks (off : Nat) (s : State) :
    (busyRead off s.atChecks).env = (busyRead off s).env ∧ (busyRead off s.atChecks).flags = s.flags := by
  have hr : readAt off s.atChecks = readAt off s := readAt_unseen off s _ _ _ _
  rw [busyRead_eq, busyRead_eq, hr]
  by_cases hd : drawsAt off s = true
  · rw [if_pos hd, if_pos (show drawsAt off s.atChecks = true from hd)]
    exact ⟨rfl, rfl⟩
  · rw [if_neg hd, if_neg (show ¬ drawsAt off s.atChecks = true from hd)]
    exact ⟨rfl, rfl⟩

/-! ## Writes to a running command -/

theorem overrunsAt_buf {w : Nat} (hw : w < 64) (s : State) : overrunsAt (0x100 + 4 * w) s = decide (4 * w < s.cfg.bufSize) := by
  rw [overrunsAt, regAt_buf hw]
  rfl

theorem drawsAt_buf {w : Nat} (hw : w < 64) (s : State) : drawsAt (0x100 + 4 * w) s = decide (4 * w < s.cfg.bufSize) := by
  rw [drawsAt, regAt_buf hw]
  rfl

/-- R66: a write to a register of the list is dropped with OVR. -/
theorem overrunsAt_listed {off : Nat} {s : State} (h4 : off % 4 = 0)
    (h : off = 0x000 ∨ off = 0x004 ∨ off = 0x008 ∨ off = 0x010 ∨ off = 0x014 ∨ off = 0x018 ∨ off = 0x01C ∨ off = 0x020 ∨
      off = 0x024 ∨ (0x100 ≤ off ∧ off < 0x200 ∧ off < 0x100 + s.cfg.bufSize)) : overrunsAt off s = true := by
  rcases h with rfl | rfl | rfl | rfl | rfl | rfl | rfl | rfl | rfl | ⟨hlo, hhi, hb⟩
  on_goal -1 =>
    obtain ⟨w, hw, rfl⟩ := exists_bufOffset h4 hlo hhi
    rw [overrunsAt_buf hw, decide_eq_true_eq]
    omega
  all_goals rfl

/-- R66: DATA, INFO and the reserved offsets ignore a write without OVR. -/
theorem overrunsAt_ignored {off : Nat} (s : State)
    (h : off = 0x00C ∨ off = 0x028 ∨ (0x02C ≤ off ∧ off < 0x100) ∨ 0x200 ≤ off) : overrunsAt off s = false := by
  rcases h with rfl | rfl | h
  · rfl
  · rfl
  · rw [overrunsAt, regAt_reserved h]

/-- A write due at the first point of a command is taken there. -/
theorem exec_takes_write {i : Instr} {s t : State} {p off : Nat} {v : Word} (h4 : off % 4 = 0)
    (hh : s.env.host = [⟨.during p, .write off 4 v⟩]) (hp : p ≤ s.pos.points + 1) (h : exec i s = .next t) : t.env.host = [] := by
  have hpt : point (s.stand .checks) = .ok () ((busyWrite off s.atChecks).setHost []) := by
    rw [point_checks, hh]
    exact arrivals_write h4 hp v []
  exact ((exec_completed_after_point hpt (.of_no_host rfl) h).of_no_host rfl).1

/-- Settles O20: the command goes as without the write, which draws nothing, gets no reply, and sets OVR as its offset says. -/
theorem busyWritesAreDropped : Obligations.BusyWritesAreDropped := by
  intro i s p off v h4 hh
  have hs : s.unbroken := by simp [State.unbroken, State.noReset, State.noLook, hh, HostOp.isLook]
  obtain ⟨t, t0, ht, ht0, he⟩ := exec_undisturbed hs i
  obtain ⟨hr, hd, ho⟩ := (exec_completed hs ht).of_write hh
  obtain ⟨-, hr0, hd0, -⟩ := (exec_completed (.of_no_host rfl) ht0).of_no_host rfl
  refine ⟨t, t0, ht, ht0, ?_, fun hp => exec_takes_write h4 hh hp ht, fun hl => ⟨fun hoff => ?_, fun hoff => ?_⟩⟩
  · rw [hr, hd] at he
    rw [State.setHost_env] at hr0 hd0
    rwa [← hr0, ← hd0] at he
  · rw [ho hl, overrunsAt_listed h4 hoff, Bool.or_true]
  · rw [ho hl, overrunsAt_ignored s hoff, Bool.or_false]

/-! ## Reads of a running command -/

/-- R67: a register with a value of its own while a command runs. -/
theorem busyRead_exact {off : Nat} {s : State} (hd : drawsAt off s = false) : busyRead off s = s.reply (readAt off s) := by
  rw [busyRead_eq, hd]
  rfl

/-- R67: an open register. -/
theorem busyRead_open {off : Nat} {s : State} (hd : drawsAt off s = true) :
    busyRead off s = { s with env := { s.env with
      draws := s.env.draws + 1, replies := s.env.replies ++ [Config.busyRead s.env.draws] } } := by
  rw [busyRead_eq, hd]
  rfl

/-- R67: the open registers. -/
theorem drawsAt_listed {off : Nat} {s : State}
    (h : off = 0x00C ∨ off = 0x010 ∨ off = 0x014 ∨ off = 0x018 ∨ off = 0x01C ∨ off = 0x020 ∨ off = 0x024 ∨
      (0x100 ≤ off ∧ off < 0x200 ∧ off % 4 = 0 ∧ off < 0x100 + s.cfg.bufSize)) : drawsAt off s = true := by
  rcases h with rfl | rfl | rfl | rfl | rfl | rfl | rfl | ⟨hlo, hhi, h4, hb⟩
  on_goal -1 =>
    obtain ⟨w, hw, rfl⟩ := exists_bufOffset h4 hlo hhi
    rw [drawsAt_buf hw, decide_eq_true_eq]
    omega
  all_goals rfl

/-- Settles O21: a register is exact or open by its offset; and a read that lands at the first point leaves a state from which the
command runs with no host, to the end it has without the read. -/
theorem busyReadsAreExactOrOpen : Obligations.BusyReadsAreExactOrOpen := by
  refine ⟨fun s off => ⟨?_, fun h => busyRead_open (drawsAt_listed h)⟩, fun i s off h4 hh => ?_⟩
  · rintro (rfl | rfl | rfl | rfl) <;> exact busyRead_exact rfl
  · have hs : s.unbroken := by simp [State.unbroken, State.noReset, State.noLook, hh, HostOp.isLook]
    obtain ⟨t, t0, ht, ht0, he⟩ := exec_undisturbed hs i
    have hpt : point (s.stand .checks) = .ok () ((busyRead off s.atChecks).setHost []) := by
      rw [point_checks, hh]
      exact arrivals_read h4 (Nat.zero_le _) []
    obtain ⟨hb, hf⟩ := busyRead_atChecks off s
    obtain ⟨hl, hr, hd, ho⟩ := (exec_completed_after_point hpt (.of_no_host rfl) ht).of_no_host rfl
    obtain ⟨hl0, -, -, ho0⟩ := (exec_completed (.of_no_host rfl) ht0).of_no_host rfl
    rw [State.setHost_env, hb] at hr hd
    rw [State.setHost_flags, hf] at ho
    rw [State.setHost_flags] at ho0
    refine ⟨t, t0, ht, ht0, ?_, hr, hd⟩
    rw [hl, ho] at he
    rwa [← hl0, ← ho0] at he

/-! ## The order of accesses -/

theorem statusWord_busy (b : Bool) (f : Flags) : (statusWord b f).getLsbD 0 = b := by
  simp only [statusWord, BitVec.getLsbD_append, bit]
  simp

/-- A poll of an idle engine sees BUSY = 0 (R37). -/
theorem readAt_status_idle {s : State} (hs : s.seq = .idle) : (readAt 0x008 s).getLsbD 0 = false := by
  refine (statusWord_busy s.busy s.flags).trans ?_
  rw [State.busy, hs]

/-- Settles O23: a step of a running command ends in completion, a hardware reset or a look, each of which says what has landed; a step
of an idle engine is that of its next access. -/
theorem hostAccessesTakeEffectInOrder : Obligations.HostAccessesTakeEffectInOrder := by
  refine ⟨fun s t hb h => ?_, fun s r rest hs hh hadm => ?_⟩
  · cases hw : s.seq with
    | idle => exact absurd hw hb
    | run w =>
      obtain ⟨r, hl, hn⟩ := step_run_leaves hw h
      cases r with
      | ok _ u =>
        cases hn
        obtain ⟨l, hh, ht⟩ := hl.1.took
        exact ⟨l, _, ht, .inl ⟨hh, hl.1.seq, rfl, hl.1.resets⟩⟩
      | cut u =>
        cases hn
        have hc : CutFrom s t := hl
        obtain ⟨l, a, o, hh, ht⟩ := hc.took
        exact ⟨l, o, ht, .inr (.inl ⟨a, hh, by rw [hc.regs]; rfl, hc.resets⟩)⟩
      | stopped u =>
        cases hn
        have hst : StoppedFrom s t := hl.1
        obtain ⟨l, a, n, hh, ht⟩ := hst.took
        exact ⟨l, _, ht, .inr (.inr ⟨a, n, hh, hst.seq.trans hw, rfl, hst.resets⟩)⟩
  · obtain ⟨a, op⟩ := r
    cases op with
    | read off size => exact ⟨_, (step_idle_read hs hh).trans (if_pos (of_decide_eq_true hadm)), rfl, rfl⟩
    | write off size v =>
      refine ⟨_, (step_idle_write hs hh).trans (if_pos (of_decide_eq_true hadm)), ?_⟩
      rw [writeAt_env]
      exact ⟨rfl, rfl⟩
    | poll last => exact ⟨_, step_idle_poll hs hh, rfl, readAt_status_idle hs, rfl⟩
    | reset => exact ⟨_, step_idle_reset hs hh, rfl, rfl⟩
    | look n => exact ⟨_, step_idle_look hs hh, rfl, rfl⟩

end Sys2Proof.Machine
end

section
/-! PROOF. Command words (30_encoding.md): the fields of a word as numbers (R90, R94), what an illegal word does (R95), how a word is
accepted (R92), and what the lines of the assembler come to (R97, R98, R100). -/

namespace Sys2Proof.Machine

/-! ## The fields of a word as numbers -/

theorem opcodeField_toNat (w : Word) : (opcodeField w).toNat = w.toNat % 256 := by
  rw [opcodeField, BitVec.extractLsb'_toNat, Nat.shiftRight_zero]

theorem immField_eq (w : Word) : immField w = BitVec.ofNat 8 (w.toNat / 2 ^ 8) := by
  rw [immField, BitVec.extractLsb', Nat.shiftRight_eq_div_pow]

theorem lenField_eq (w : Word) : lenField w = BitVec.ofNat 16 (w.toNat / 2 ^ 16) := by
  rw [lenField, BitVec.extractLsb', Nat.shiftRight_eq_div_pow]

/-- The bit that WRITE_BIT takes (R94). -/
theorem writtenBit_eq (w : Word) : w.getLsbD 8 = (w.toNat / 2 ^ 8 % 2 == 1) := by
  rw [BitVec.getLsbD, Nat.testBit_eq_decide_div_mod_eq]
  rfl

/-- Settles O3: the number of the OPCODE selects the decoder's arm, which takes the operand from its field. -/
theorem operandFieldsDecode : Obligations.OperandFieldsDecode := by
  intro w op imm len
  have harm (n : Nat) (h : op = n) : (opcodeField w).toNat = n := (opcodeField_toNat w).trans h
  refine ⟨?_, ?_, ?_, ?_, ?_, ?_, ?_, ?_, ?_, ?_, ?_, ?_, ?_, ?_⟩
  all_goals
    intro h
    simp only [decodeWord, harm _ h, writtenBit_eq, immField_eq, lenField_eq, imm, len]

/-! ## Acceptance -/

/-- Settles O8: the write of CMD to an idle engine is an acceptance, an accepted word runs from its start, and a write of CMD that
lands in a running command is taken there and does nothing but set OVR. -/
theorem commandWordsAreAccepted : Obligations.CommandWordsAreAccepted := by
  refine ⟨fun s a w rest hs hh => ?_, fun s w i hw hp hd => ⟨step_decoded_start hw hd hp, ?_⟩, fun i s v hh => ?_⟩
  · exact (step_idle_write hs hh).trans (if_pos ⟨rfl, rfl⟩)
  · rw [State.busy, hw]
  · have hs : s.unbroken := by simp [State.unbroken, State.noReset, State.noLook, hh, HostOp.isLook]
    obtain ⟨t, -, ht, -⟩ := exec_undisturbed hs i
    have hc := exec_completed hs ht
    have hl : t.env.host = [] := exec_takes_write rfl hh (Nat.zero_le _) ht
    obtain ⟨-, -, ho⟩ := hc.of_write hh
    refine ⟨t, ht, hc.cmd, hc.seq, ?_, hl⟩
    rw [ho hl, overrunsAt_listed rfl (.inr (.inl rfl)), Bool.or_true]

/-! ## Illegal words -/

/-- The illegal OPCODEs of R95 have no arm in the decoder. -/
theorem decodeWord_illegal {w : Word}
    (h : w.toNat % 256 = 0x00 ∨ (0x0D ≤ w.toNat % 256 ∧ w.toNat % 256 ≤ 0x0F) ∨ 0x12 ≤ w.toNat % 256) :
    decodeWord w = .error (.illegalOpcode (opcodeField w)) := by
  rw [← opcodeField_toNat] at h
  unfold decodeWord
  split
  case h_15 => rfl
  all_goals omega

theorem step_illegal_start {s : State} {w : Word} {e : DecodeError} (hw : s.seq = .run w) (hd : decodeWord w = .error e)
    (hp : s.pos.place = .start) : step s = illegalCommand s := by
  simp only [step, hw, hd, hp]

/-- An illegal word passes its first point and completes (R95). -/
theorem illegalCommand_ends (s : State) :
    ∃ r : Ran Unit, illegalCommand s = r.outcome ∧ r.Ends s [] (s.complete .illegalCommand) := by
  have h := Ran.Yields.of_hidden (s := s) (point_yields (s.stand .checks))
  refine ⟨_, rfl, h.andThen_ends (tr' := []) fun t ht => ?_⟩
  exact (finish_ends .illegalCommand t).of_regs (by rw [ht.regs]; rfl)

/-- Settles O9: the word has no arm in the decoder, and its run is two points and the completion. -/
theorem illegalWordsCompleteAtOnce : Obligations.IllegalWordsCompleteAtOnce := by
  intro s w hw hp hop hs
  obtain ⟨r, hr, he⟩ := illegalCommand_ends s
  obtain ⟨t, ht, hends, hbuf⟩ := he.next hs
  refine ⟨t, ?_, hends, State.bufByte_congr hbuf hends.cfg hends.resets⟩
  rw [step_illegal_start hw (decodeWord_illegal hop) hp, hr, ht]

/-! ## The assembler -/

/-- The number of a word packed from its fields (R90). -/
theorem packWord_toNat (len : Half) (imm op : Byte) :
    (packWord len imm op).toNat = len.toNat * 2 ^ 16 + imm.toNat * 2 ^ 8 + op.toNat := by
  rw [packWord, BitVec.toNat_append, BitVec.toNat_append, ← Nat.shiftLeft_add_eq_or_of_lt op.isLt,
    ← Nat.shiftLeft_add_eq_or_of_lt imm.isLt, Nat.shiftLeft_eq, Nat.shiftLeft_eq]
  omega

/-- The number of the word that the assembler writes (R97). -/
theorem encode_eq (i : Instr) : encode i = BitVec.ofNat 32 (i.len.toNat * 2 ^ 16 + i.imm.toNat * 2 ^ 8 + i.opcode.toNat) := by
  rw [← packWord_toNat, BitVec.ofNat_toNat, BitVec.setWidth_eq]
  rfl

/-- A program of one line (R97). -/
theorem assemble_line (polls : List (List Nat)) (l : AsmLine) :
    assemble polls [l] = if l.wellFormed then some (scheduleItems polls (lineItems l)) else none := by
  simp [assemble]

section line
variable {l : AsmLine} {p : Prop} [Decidable p] (polls : List (List Nat))

/-- A line that is one access, refused where its operand is out of range. -/
theorem assemble_access {op op' : HostOp} (hl : lineItems l = [.access op]) (hr : l.wellFormed = decide p) (ho : p → op = op') :
    assemble polls [l] = if p then some [⟨.during 0, op'⟩] else none := by
  rw [assemble_line, hl, hr]
  by_cases hp : p
  · rw [if_pos hp, if_pos (decide_eq_true hp), ← ho hp]
    rfl
  · rw [if_neg hp, decide_eq_false hp]
    rfl

/-- A command line with an operand: its word's fields are the command's, each a number within its width. -/
theorem assemble_command {i : Instr} {w : Nat} (hl : lineItems l = [commandAccess i]) (hr : l.wellFormed = decide p)
    (hw : p → i.len.toNat * 2 ^ 16 + i.imm.toNat * 2 ^ 8 + i.opcode.toNat = w) :
    assemble polls [l] = if p then some [⟨.during 0, .write 0x004 4 (BitVec.ofNat 32 w)⟩] else none :=
  assemble_access polls hl hr fun hp => by rw [encode_eq, hw hp]

end line

/-- A number of at most 255 is the IMM8 field's (R97). -/
theorem fields_of_imm {n op : Nat} (h : n ≤ 255) :
    (0 : Half).toNat * 2 ^ 16 + (BitVec.ofNat 8 n).toNat * 2 ^ 8 + op = n * 2 ^ 8 + op := by
  rw [BitVec.toNat_ofNat, Nat.mod_eq_of_lt (by omega)]
  simp

/-- A number of at most 65535 is the LEN field's (R97). -/
theorem fields_of_len {n op : Nat} (h : n ≤ 65535) :
    (BitVec.ofNat 16 n).toNat * 2 ^ 16 + (0 : Byte).toNat * 2 ^ 8 + op = n * 2 ^ 16 + op := by
  rw [BitVec.toNat_ofNat, Nat.mod_eq_of_lt (by omega)]
  simp

/-- Settles O5: a line without an operand is evaluated; one with an operand is an access, or a command whose word has the operand in its
field. -/
theorem assemblerWritesTheWords : Obligations.AssemblerWritesTheWords := by
  intro polls asm acc cmd
  refine ⟨rfl, rfl, rfl, rfl, rfl, rfl, rfl, rfl, ?_, rfl, rfl, rfl, fun n => ?_⟩
  · exact congrArg some (List.append_nil _)
  refine ⟨?_, ?_, ?_, ?_, ?_, ?_, ?_, fun r hr => ⟨?_, ?_⟩⟩
  · exact assemble_command polls rfl rfl fun h => by interval_cases n <;> rfl
  · exact assemble_command polls rfl rfl fields_of_imm
  · exact assemble_command polls rfl rfl fields_of_imm
  · exact assemble_command polls rfl rfl fields_of_len
  · exact assemble_command polls rfl rfl fields_of_len
  · exact assemble_command polls rfl rfl fields_of_len
  · exact assemble_access polls rfl rfl fun _ => rfl
  · exact (assemble_line polls _).trans (if_pos hr)
  · refine assemble_access polls rfl ?_ fun _ => rfl
    rw [AsmLine.wellFormed, hr, Bool.true_and]

end Sys2Proof.Machine
end

section
/-! PROOF. The commands of the bus physical layer (40_bus_phy.md): the words that carry an operand, the checks (R243), a command from
its first point to its completion, and what RESET, the bit, byte and block commands and WRITE_ROM_CODE do. -/

namespace Sys2Proof.Machine

/-! ## Command words with an operand -/

/-- The word of WRITE_BYTE (R140). -/
theorem decodeWord_writeByte (v : Byte) : decodeWord (BitVec.ofNat 32 (v.toNat * 2 ^ 8 + 0x04)) = .ok (.writeByte v) := by
  have hw : (BitVec.ofNat 32 (v.toNat * 2 ^ 8 + 0x04)).toNat = v.toNat * 2 ^ 8 + 0x04 := by
    rw [BitVec.toNat_ofNat]
    omega
  obtain ⟨-, -, -, h, -⟩ := operandFieldsDecode (BitVec.ofNat 32 (v.toNat * 2 ^ 8 + 0x04))
  rw [h (by omega), hw, show (v.toNat * 2 ^ 8 + 0x04) / 2 ^ 8 = v.toNat by omega, BitVec.ofNat_toNat, BitVec.setWidth_eq]

/-- A word made of a LEN field and an OPCODE has these fields (R90). -/
theorem lenWord_fields (n : Half) {op : Nat} (h : op < 2 ^ 8) :
    (BitVec.ofNat 32 (n.toNat * 2 ^ 16 + op)).toNat % 256 = op ∧
      BitVec.ofNat 16 ((BitVec.ofNat 32 (n.toNat * 2 ^ 16 + op)).toNat / 2 ^ 16) = n := by
  have hw : (BitVec.ofNat 32 (n.toNat * 2 ^ 16 + op)).toNat = n.toNat * 2 ^ 16 + op := by
    rw [BitVec.toNat_ofNat]
    omega
  refine ⟨by omega, ?_⟩
  rw [hw, show (n.toNat * 2 ^ 16 + op) / 2 ^ 16 = n.toNat by omega, BitVec.ofNat_toNat, BitVec.setWidth_eq]

/-- The word of WRITE_BLOCK (R150). -/
theorem decodeWord_writeBlock (n : Half) : decodeWord (BitVec.ofNat 32 (n.toNat * 2 ^ 16 + 0x06)) = .ok (.writeBlock n) := by
  obtain ⟨hop, hlen⟩ := lenWord_fields n (op := 0x06) (by decide)
  obtain ⟨-, -, -, -, -, h, -⟩ := operandFieldsDecode (BitVec.ofNat 32 (n.toNat * 2 ^ 16 + 0x06))
  rw [h hop, hlen]

/-- The word of READ_BLOCK (R151). -/
theorem decodeWord_readBlock (n : Half) : decodeWord (BitVec.ofNat 32 (n.toNat * 2 ^ 16 + 0x07)) = .ok (.readBlock n) := by
  obtain ⟨hop, hlen⟩ := lenWord_fields n (op := 0x07) (by decide)
  obtain ⟨-, -, -, -, -, -, h, -⟩ := operandFieldsDecode (BitVec.ofNat 32 (n.toNat * 2 ^ 16 + 0x07))
  rw [h hop, hlen]

/-! ## The checks -/

theorem prologue_of_disabled {i : Instr} {s : State} (hi : isBusCommand i = true) (he : s.ctrl.en = false) :
    prologue i s = some .invalidArgument := by
  rw [prologue, hi, he]
  rfl

theorem prologue_of_too_long {i : Instr} {s : State} {n : Half} (hn : blockLength i = some n) (h : s.cfg.bufSize < n.toNat) :
    prologue i s = some .invalidArgument := by
  simp [prologue, hn, h]

theorem prologue_of_enabled {i : Instr} {s : State} (he : s.ctrl.en = true)
    (hl : ∀ n, blockLength i = some n → n.toNat ≤ s.cfg.bufSize) : prologue i s = none := by
  rw [prologue, he, Bool.not_true, Bool.and_false]
  cases hn : blockLength i with
  | none => rfl
  | some n => exact if_neg (not_lt.2 (hl n hn))

/-! ## From the first point to the completion -/

/-- With no reset and no look to come a piece runs to its end. -/
theorem Ran.Yields.ok {α : Type} {s : State} {tr : List Expect} {a : α} {r : Ran α} (h : r.Yields s tr a) (hs : s.unbroken) :
    ∃ t, r = .ok a t ∧ During s tr t := by
  cases r with
  | ok b t =>
    obtain ⟨rfl, ht⟩ := h
    exact ⟨t, rfl, ht⟩
  | cut t => exact absurd hs.1 (CutFrom.reset_to_come h)
  | stopped t => exact absurd hs.2 (StoppedFrom.look_to_come h)

/-- Past its checks a command is its body, run from the state that its first point leaves (R243). -/
theorem exec_past_checks {i : Instr} {s : State} (hs : s.unbroken) (hp : prologue i s = none) :
    ∃ t, During s [] t ∧ exec i s = (bodyOf i t).outcome := by
  obtain ⟨t, hr, ht⟩ := Ran.Yields.ok (s := s) (Ran.Yields.of_hidden (point_yields (s.stand .checks))) hs
  refine ⟨t, ht, ?_⟩
  rw [exec_eq, hr, Ran.checked, Ran.andThen_ok, prologue_during ht, hp]

theorem EndsAs.sameBuf {s u t : State} {tr : List Expect} (h : EndsAs s tr u t) (hb : t.buf = s.buf) (hc : u.cfg = s.cfg) :
    SameBuf s t := State.bufByte_congr hb (h.cfg.trans hc) h.resets

/-- A command whose checks pass ends as its body does, here with BUF as it was. -/
theorem exec_completes {i : Instr} {s u : State} {tr : List Expect} (hs : s.unbroken) (hp : prologue i s = none)
    (hb : ∀ t, During s [] t → (bodyOf i t).Ends t tr u) (hbuf : u.buf = s.buf) (hcfg : u.cfg = s.cfg) :
    ∃ t, exec i s = .next t ∧ SameBuf s t ∧ EndsAs s tr u t := by
  obtain ⟨t, ht, he⟩ := exec_past_checks hs hp
  obtain ⟨v, hv, hends, hvb⟩ := ((hb t ht).after ht).next hs
  exact ⟨v, he.trans hv, hends.sameBuf (hvb.trans hbuf) hcfg, hends⟩

/-- A command whose checks fail completes with nothing else changed (R243). -/
theorem exec_refused {i : Instr} {s : State} {code : ResultCode} (hs : s.unbroken) (hp : prologue i s = some code) :
    ∃ t, exec i s = .next t ∧ SameBuf s t ∧ EndsAs s [] (s.complete code) t := by
  obtain ⟨r, hr, hends⟩ := command_checked (body := bodyOf i) hp
  obtain ⟨t, ht, he, hb⟩ := hends.next hs
  exact ⟨t, (exec_eq i s).trans (hr.trans ht), he.sameBuf hb rfl, he⟩

/-- The last action, as seen from where the command began (R93). -/
theorem finish_ends_of_during {s t : State} {tr : List Expect} (h : During s tr t) (code : ResultCode) :
    (finish code t).Ends t [] (s.complete code) :=
  (finish_ends code t).of_regs (by rw [h.regs]; rfl)

theorem During.setData {s t : State} {tr : List Expect} (h : During s tr t) (v : Byte) : During (s.setData v) tr (t.setData v) :=
  h.congr ⟨rfl, rfl, rfl, rfl, rfl, rfl⟩ rfl rfl rfl rfl (by conv_lhs => rw [h.regs]
                                                             rfl)

/-- A byte into DATA, then the last action (R131, R141). -/
theorem finish_setData_ends_of_during {s t : State} {tr : List Expect} (h : During s tr t) (v : Byte) :
    (finish .ok (t.setData v)).Ends t [] ((s.setData v).complete .ok) :=
  (finish_ends_of_during (h.setData v) .ok).of_written ⟨rfl, rfl, rfl, rfl, rfl, rfl⟩ rfl rfl

/-- A piece, then the command's last actions, which leave no trace. -/
theorem Ran.Yields.andThen_last {α : Type} {s t w : State} {tr : List Expect} {a : α} {r : Ran α} {f : α → State → Ran Unit}
    (h : r.Yields t tr a) (ht : During s [] t) (hf : ∀ u, During s tr u → (f a u).Ends u [] w) : (r.andThen f).Ends t tr w := by
  have := h.andThen_ends (tr' := []) fun u hu => hf u (ht.trans hu)
  rwa [List.append_nil] at this

/-- Write slots, then `complete(OK)`. -/
theorem Ran.Yields.andThen_finishOk {s t : State} {tr : List Expect} {r : Ran Unit} (h : r.Yields t tr ()) (ht : During s [] t) :
    (r.andThen finishOk).Ends t tr (s.complete .ok) :=
  h.andThen_last ht fun _ hu => finish_ends_of_during hu .ok

/-- At a command's first point no sample has been taken. -/
theorem During.upcoming_first {s t : State} (h : During s [] t) (i : Nat) : t.upcoming i = s.upcoming i := by
  rw [h.upcoming, samplesIn_nil, Nat.zero_add]

theorem During.levels_first {s t : State} (h : During s [] t) (i n : Nat) : t.levels i n = s.levels i n := by
  rw [h.levels, samplesIn_nil, Nat.zero_add]

theorem During.levelBytes_first {s t : State} (h : During s [] t) (i n : Nat) : t.levelBytes i n = s.levelBytes i n := by
  rw [h.levelBytes, samplesIn_nil, Nat.zero_add]

/-! ## RESET, WRITE_BIT, READ_BIT -/

/-- R120 past the checks: the procedure of R116 with PRESENT written, then the result that PRESENT decides. -/
theorem bodyReset_ends {s t : State} (ht : During s [] t) :
    (bodyReset t).Ends t (resetTrace s.cfg.timing (s.upcoming 0) (s.upcoming 1))
      ((s.setPresent (!s.upcoming 0 && s.upcoming 1)).complete (if !s.upcoming 0 && s.upcoming 1 then .ok else .notPresent)) := by
  have h := resetPresence_yields t
  rw [ht.cfg, ht.upcoming_first, ht.upcoming_first] at h
  exact (h.andThen_last (ht.setPresent _) fun _ hu => finish_ends_of_during hu _).of_written (.setPresent _ _) rfl rfl

/-- Settles O33: the checks pass or fail by EN, and the body is the procedure of R116 with PRESENT written. -/
theorem resetCommandReportsPresence : Obligations.ResetCommandReportsPresence :=
  ⟨rfl, fun _ hs => ⟨fun he => exec_completes hs (prologue_of_enabled he nofun) (fun _ ht => bodyReset_ends ht) rfl rfl,
    fun he => exec_refused hs (prologue_of_disabled rfl he)⟩⟩

/-- Settles O34: the body is one write slot. -/
theorem writeBitDrivesOneSlot : Obligations.WriteBitDrivesOneSlot := by
  refine ⟨rfl, rfl, fun b s hs => ⟨fun he => ?_, fun he => exec_refused hs (prologue_of_disabled rfl he)⟩⟩
  refine exec_completes hs (prologue_of_enabled he nofun) (fun t ht => ?_) rfl rfl
  exact (ht.cfg ▸ writeBit_yields b t).andThen_finishOk ht

/-- Settles O35: the body is one read slot, whose level goes into DATA. -/
theorem readBitStoresTheLevel : Obligations.ReadBitStoresTheLevel := by
  refine ⟨rfl, fun s hs => ⟨fun he => ?_, fun he => exec_refused hs (prologue_of_disabled rfl he)⟩⟩
  refine exec_completes hs (prologue_of_enabled he nofun) (fun t ht => ?_) rfl rfl
  have h := readBit_yields t
  rw [ht.cfg, ht.upcoming_first] at h
  exact h.andThen_last ht fun _ hu => finish_setData_ends_of_during hu _

/-! ## WRITE_BYTE, READ_BYTE -/

theorem byteBits_eq_map (v : Byte) : byteBits v = (List.range 8).map fun i => v.getLsbD i := rfl

/-- Bit `i` of the byte that eight levels make (R123). -/
theorem State.byteOfBits_levels_getLsbD (s : State) (k : Nat) {i : Nat} (hi : i < 8) :
    (byteOfBits (s.levels k 8)).getLsbD i = s.upcoming (k + i) := by
  rw [byteOfBits_getLsbD _ _ hi]
  simp [State.levels, hi]

/-- Settles O36: the body is the write slots of the byte's bits. -/
theorem writeByteSendsBitsLowFirst : Obligations.WriteByteSendsBitsLowFirst := by
  refine ⟨decodeWord_writeByte, fun v s hs => ⟨fun he => ?_, fun he => exec_refused hs (prologue_of_disabled rfl he)⟩⟩
  refine exec_completes hs (prologue_of_enabled he nofun) (fun t ht => ?_) rfl rfl
  rw [← byteBits_eq_map]
  exact (ht.cfg ▸ writeByte_yields v t).andThen_finishOk ht

/-- Settles O37: the body is eight read slots, and a byte is determined by its eight bits. -/
theorem readByteAssemblesBitsLowFirst : Obligations.ReadByteAssemblesBitsLowFirst := by
  refine ⟨rfl, fun s hs => ⟨fun he v hv => ?_, fun he => exec_refused hs (prologue_of_disabled rfl he)⟩⟩
  have hb : byteOfBits (s.levels 0 8) = v := BitVec.eq_of_getLsbD_eq fun i hi => by
    rw [s.byteOfBits_levels_getLsbD 0 hi, Nat.zero_add, hv i hi]
  refine exec_completes hs (prologue_of_enabled he nofun) (fun t ht => ?_) rfl rfl
  have h := readByte_yields t
  rw [ht.cfg, ht.levels_first, hb] at h
  exact h.andThen_last ht fun _ hu => finish_setData_ends_of_during hu v

/-! ## WRITE_BLOCK, READ_BLOCK -/

theorem prologue_block_none {i : Instr} {s : State} {n : Half} (hn : blockLength i = some n) (he : s.ctrl.en = true)
    (h : n.toNat ≤ s.cfg.bufSize) : prologue i s = none :=
  prologue_of_enabled he fun m hm => by
    cases hn.symm.trans hm
    exact h

theorem prologue_block_some {i : Instr} {s : State} {n : Half} (hi : isBusCommand i = true) (hn : blockLength i = some n)
    (h : s.ctrl.en = false ∨ s.cfg.bufSize < n.toNat) : prologue i s = some .invalidArgument :=
  h.elim (prologue_of_disabled hi) (prologue_of_too_long hn)

theorem During.bufBytes_zero {s t : State} {tr : List Expect} (h : During s tr t) (n : Nat) :
    bufBytes t n 0 = (List.range n).map fun j => s.bufByte j :=
  List.map_congr_left fun j _ => by rw [h.bufByte, Nat.zero_add]

/-- Settles O38: the checks are EN and the length, and the body is the write slots of the bytes of BUF. -/
theorem writeBlockSendsTheBuffer : Obligations.WriteBlockSendsTheBuffer := by
  refine ⟨decodeWord_writeBlock, fun n s hs => ⟨fun he hn => ?_, fun h => exec_refused hs (prologue_block_some rfl rfl h)⟩⟩
  refine exec_completes hs (prologue_block_none rfl he hn) (fun t ht => ?_) rfl rfl
  have h := writeBuf_yields n.toNat 0 t
  rw [ht.cfg, ht.bufBytes_zero] at h
  exact h.andThen_finishOk ht

/-- R151 with no reset and no look to come: the bytes that the levels make are stored, and every other byte stays. -/
theorem readBuf_completes {n : Nat} {s : State} (hs : s.unbroken) (hn : n ≤ s.cfg.bufSize) :
    ∃ t, readBuf n 0 s = .ok () t ∧ During { s with buf := t.buf } (readBitsTrace s.cfg.timing (s.levels 0 (8 * n))) t ∧
      ∀ a, t.bufByte a = if a < n then (s.levelBytes 0 n).getD a 0 else s.bufByte a := by
  have h := readBuf_spec n 0 s (by omega)
  cases hr : readBuf n 0 s with
  | ok _ t =>
    rw [hr] at h
    obtain ⟨hd, -, hb⟩ := h
    exact ⟨t, rfl, hd, fun a => by simpa using hb a⟩
  | cut t =>
    rw [hr] at h
    exact absurd hs.1 (CutFrom.reset_to_come h)
  | stopped t =>
    rw [hr] at h
    exact absurd hs.2 (StoppedFrom.look_to_come h)

/-- Bit `i` of the `j`-th of the bytes that levels make is level `8j + i` (R151). -/
theorem State.levelBytes_getLsbD (s : State) {n j i : Nat} (hj : j < n) (hi : i < 8) :
    ((s.levelBytes 0 n).getD j 0).getLsbD i = s.upcoming (8 * j + i) := by
  have hb : (s.levelBytes 0 n).getD j 0 = byteOfBits (s.levels (8 * j) 8) := by simp [State.levelBytes, hj]
  rw [hb, s.byteOfBits_levels_getLsbD _ hi]

/-- READ_BLOCK whose checks pass (R151): the samples' bytes stand in BUF below the length, and the rest is as it was. -/
theorem exec_readBlock {n : Half} {s : State} (hs : s.unbroken) (he : s.ctrl.en = true) (hn : n.toNat ≤ s.cfg.bufSize) :
    ∃ t, exec (.readBlock n) s = .next t ∧ EndsAs s (readBitsTrace s.cfg.timing (s.levels 0 (8 * n.toNat))) (s.complete .ok) t ∧
      ∀ a, t.bufByte a = if a < n.toNat then (s.levelBytes 0 n.toNat).getD a 0 else s.bufByte a := by
  obtain ⟨t, ht, hx⟩ := exec_past_checks (i := .readBlock n) hs (prologue_block_none rfl he hn)
  obtain ⟨u, hr, hu, hbuf⟩ := readBuf_completes (ht.unbroken hs) (ht.cfg.symm ▸ hn)
  have hsu := (ht.withBuf u.buf).trans hu
  rw [List.nil_append, ht.cfg, ht.levels_first] at hsu
  have hends : (finishOk () u).Ends s _ (State.complete { s with buf := u.buf } .ok) :=
    ((finish_ends_of_during hsu .ok).after hsu).of_written ⟨rfl, rfl, rfl, rfl, rfl, rfl⟩ rfl rfl
  obtain ⟨v, hv, hvs, hvb⟩ := hends.next hs
  refine ⟨v, ?_, ?_, fun a => ?_⟩
  · rw [hx, bodyOf, bodyReadBlock, hr, Ran.andThen_ok, hv]
  · rw [List.append_nil] at hvs
    exact { hvs with }
  · rw [State.bufByte_congr (s := u) hvb (hvs.cfg.trans hsu.cfg.symm) (hvs.resets.trans hsu.resets.symm), hbuf, ht.levelBytes_first,
      ht.bufByte]

/-- Settles O39: below the length BUF has the bytes that the samples make, at and above it the bytes it had. -/
theorem readBlockFillsTheBuffer : Obligations.ReadBlockFillsTheBuffer := by
  refine ⟨decodeWord_readBlock, fun n s hs => ⟨fun he hn => ?_, fun h => exec_refused hs (prologue_block_some rfl rfl h)⟩⟩
  obtain ⟨t, ht, hends, hbuf⟩ := exec_readBlock hs he hn
  refine ⟨t, ht, hends, fun j hj i hi => ?_, fun a ha => ?_⟩
  · rw [hbuf, if_pos hj, s.levelBytes_getLsbD hj hi]
  · rw [hbuf, if_neg (not_lt.2 ha)]

/-! ## WRITE_ROM_CODE -/

/-- Numbering `n` rows of `m` one after another. -/
theorem flatMap_range_map_range {α : Type} (f : Nat → α) (m n : Nat) :
    ((List.range n).flatMap fun j => (List.range m).map fun i => f (m * j + i)) = (List.range (m * n)).map f := by
  induction n with
  | zero => rfl
  | succ n ih =>
    rw [List.range_succ, List.flatMap_append, ih, List.flatMap_singleton, Nat.mul_succ, List.range_add, List.map_append,
      List.map_map]
    rfl

/-- The bits of a ROM code's bytes in wire order are its positions in order (R13, R64, R123). -/
theorem romBytes_flatMap_byteBits (c : RomCode) :
    (romBytes c).flatMap byteBits = (List.range 64).map fun i => rombit c (i + 1) := by
  have hbyte (j : Nat) : byteBits (romByte c j) = (List.range 8).map fun i => c.getLsbD (8 * j + i) :=
    List.map_congr_left fun i hi => romByte_getLsbD c j i (List.mem_range.1 hi)
  calc (romBytes c).flatMap byteBits = ((List.range 8).map (romByte c)).flatMap byteBits := rfl
    _ = (List.range 8).flatMap fun j => (List.range 8).map fun i => c.getLsbD (8 * j + i) := by
      rw [List.flatMap_map]
      simp only [hbyte]
    _ = (List.range 64).map fun i => rombit c (i + 1) := flatMap_range_map_range _ 8 8

theorem writeBytesTrace_eq (tm : Timing) (vs : List Byte) : writeBytesTrace tm vs = writeBitsTrace tm (vs.flatMap byteBits) :=
  List.flatMap_assoc.symm

/-- Settles O40: the body is the write slots of the eight bytes of ROM, whose bits are the 64 positions in order. -/
theorem writeRomCodeSendsPositionsInOrder : Obligations.WriteRomCodeSendsPositionsInOrder := by
  refine ⟨rfl, fun s hs => ⟨fun he => ?_, fun he => exec_refused hs (prologue_of_disabled rfl he)⟩⟩
  refine exec_completes hs (prologue_of_enabled he nofun) (fun t ht => ?_) rfl rfl
  have h := writeBytes_yields 0 (romBytes t.rom) t
  rw [ht.cfg, writeBytesTrace_eq, romBytes_flatMap_byteBits, ht.rom] at h
  rw [bodyOf, bodyWriteRomCode, ht.rom]
  exact h.andThen_finishOk ht

end Sys2Proof.Machine
end

section
/-! PROOF. The CRC-8 accumulator (41_crc8.md): a byte folded into an accumulator equal to it gives 0, and CRC8_STEP and CRC8_BLOCK write
CRC.ACC and nothing else, whatever CTRL.EN holds. -/

namespace Sys2Proof.Machine

/-! ## The fold -/

theorem crc8Bytes_append (a : Byte) (d e : List Byte) : crc8Bytes a (d ++ e) = crc8Bytes (crc8Bytes a d) e := List.foldl_append

/-- The index of the table is 0, and so is its first entry (R161, R162). -/
theorem crc8_self (a : Byte) : crc8 a a = 0 := by
  rw [crc8, BitVec.xor_self]
  rfl

/-- Settles O44: the sequence leaves the accumulator at its own CRC, and that byte folded in then gives 0. -/
theorem crcSelfCheckFoldsToZero : Obligations.CrcSelfCheckFoldsToZero := fun a d =>
  calc crc8Bytes a (d ++ [crc8Bytes a d]) = crc8Bytes (crc8Bytes a d) [crc8Bytes a d] := crc8Bytes_append a d _
    _ = crc8 (crc8Bytes a d) (crc8Bytes a d) := rfl
    _ = 0 := crc8_self _

/-! ## Command words with an operand -/

/-- A word made of an IMM8 field and an OPCODE has these fields (R90). -/
theorem immWord_fields (b : Byte) {op : Nat} (h : op < 2 ^ 8) :
    (BitVec.ofNat 32 (b.toNat * 2 ^ 8 + op)).toNat % 256 = op ∧
      BitVec.ofNat 8 ((BitVec.ofNat 32 (b.toNat * 2 ^ 8 + op)).toNat / 2 ^ 8) = b := by
  have hw : (BitVec.ofNat 32 (b.toNat * 2 ^ 8 + op)).toNat = b.toNat * 2 ^ 8 + op := by
    rw [BitVec.toNat_ofNat]
    omega
  refine ⟨by omega, ?_⟩
  rw [hw, show (b.toNat * 2 ^ 8 + op) / 2 ^ 8 = b.toNat by omega, BitVec.ofNat_toNat, BitVec.setWidth_eq]

/-- The word of CRC8_STEP (R165). -/
theorem decodeWord_crc8Step (b : Byte) : decodeWord (BitVec.ofNat 32 (b.toNat * 2 ^ 8 + 0x10)) = .ok (.crc8Step b) := by
  obtain ⟨hop, himm⟩ := immWord_fields b (op := 0x10) (by decide)
  obtain ⟨-, -, -, -, -, -, -, -, -, -, -, -, h, -⟩ := operandFieldsDecode (BitVec.ofNat 32 (b.toNat * 2 ^ 8 + 0x10))
  rw [h hop, himm]

/-- The word of CRC8_BLOCK (R166). -/
theorem decodeWord_crc8Block (n : Half) : decodeWord (BitVec.ofNat 32 (n.toNat * 2 ^ 16 + 0x11)) = .ok (.crc8Block n) := by
  obtain ⟨hop, hlen⟩ := lenWord_fields n (op := 0x11) (by decide)
  obtain ⟨-, -, -, -, -, -, -, -, -, -, -, -, -, h⟩ := operandFieldsDecode (BitVec.ofNat 32 (n.toNat * 2 ^ 16 + 0x11))
  rw [h hop, hlen]

/-! ## CRC8_STEP, CRC8_BLOCK -/

/-- The checks of a command outside the bus class ask only the length (R242, R243). -/
theorem prologue_of_not_bus {i : Instr} {s : State} (hi : isBusCommand i = false)
    (hl : ∀ n, blockLength i = some n → n.toNat ≤ s.cfg.bufSize) : prologue i s = none := by
  rw [prologue, hi, Bool.false_and]
  cases hn : blockLength i with
  | none => rfl
  | some n => exact if_neg (not_lt.2 (hl n hn))

theorem During.setAcc {s t : State} {tr : List Expect} (h : During s tr t) (v : Byte) : During (s.setAcc v) tr (t.setAcc v) :=
  h.congr ⟨rfl, rfl, rfl, rfl, rfl, rfl⟩ rfl rfl rfl rfl (by conv_lhs => rw [h.regs]
                                                             rfl)

/-- A byte into CRC.ACC, then the last action (R165, R166). -/
theorem finish_setAcc_ends_of_during {s t : State} {tr : List Expect} (h : During s tr t) (v : Byte) :
    (finish .ok (t.setAcc v)).Ends t [] ((s.setAcc v).complete .ok) :=
  (finish_ends_of_during (h.setAcc v) .ok).of_written ⟨rfl, rfl, rfl, rfl, rfl, rfl⟩ rfl rfl

/-- A command whose checks pass and whose body writes CRC.ACC leaves everything else. -/
theorem exec_setAcc {i : Instr} {s : State} {v : Byte} (hs : s.unbroken) (hp : prologue i s = none)
    (hb : ∀ t, During s [] t → bodyOf i t = finish .ok (t.setAcc v)) :
    ∃ t, exec i s = .next t ∧ SameBuf s t ∧ EndsAs s [] ((s.setAcc v).complete .ok) t :=
  exec_completes hs hp (fun t ht => hb t ht ▸ finish_setAcc_ends_of_during ht v) rfl rfl

/-- Settles O46: no check is made, and the body writes CRC.ACC. -/
theorem crc8StepFoldsOneByte : Obligations.Crc8StepFoldsOneByte := by
  refine ⟨decodeWord_crc8Step, fun b s hs => ?_⟩
  refine exec_setAcc (v := crc8 s.acc b) hs (prologue_of_not_bus rfl nofun) fun t ht => ?_
  rw [bodyOf, bodyCrc8Step, ht.acc]

/-- Settles O47: the one check is the length, and the body writes CRC.ACC. -/
theorem crc8BlockFoldsTheBuffer : Obligations.Crc8BlockFoldsTheBuffer := by
  refine ⟨decodeWord_crc8Block, fun n s hs => ⟨fun hn => ?_, fun hn => exec_refused hs (prologue_of_too_long rfl hn)⟩⟩
  have hlen : ∀ m, blockLength (.crc8Block n) = some m → m.toNat ≤ s.cfg.bufSize := fun m hm => by
    cases hm
    exact hn
  refine exec_setAcc (v := crc8Bytes s.acc _) hs (prologue_of_not_bus rfl hlen) fun t ht => ?_
  rw [bodyOf, bodyCrc8Block, ht.acc, ht.bufBytes_zero]

end Sys2Proof.Machine
end

section
/-! PROOF. ROM codes (42_rom_code.md): the CRC step gives 0 only on the accumulator's own value, a ROM code is its eight bytes, and
READ_ROM stores the code that the 64 samples after its bus reset make. -/

namespace Sys2Proof.Machine

/-! ## Validity -/

/-- Of the table's entries (R162) only the first is 0. -/
theorem crcTable_getD_eq_zero : ∀ i : Fin 256, crcTable.getD i 0 = 0 → i = 0 := by decide +kernel

/-- A step gives 0 exactly when the byte is the accumulator. -/
theorem crc8_eq_zero_iff (a b : Byte) : crc8 a b = 0 ↔ b = a := by
  refine ⟨fun h => ?_, fun h => h ▸ crc8_self a⟩
  have hx : (a ^^^ b).toFin = 0 := crcTable_getD_eq_zero (a ^^^ b).toFin h
  exact (BitVec.xor_eq_zero_iff.1 (BitVec.eq_of_toFin_eq hx)).symm

theorem romBytes_eq_append (c : RomCode) : romBytes c = (List.range 7).map (romByte c) ++ [romByte c 7] := rfl

/-- Settles O49: the last step of the fold is that of byte 7 on the fold of bytes 0 to 6. -/
theorem validCodesCarryTheirCrc : Obligations.ValidCodesCarryTheirCrc := fun c =>
  calc romValid c = true ↔ crc8Bytes 0 (romBytes c) = 0 := beq_iff_eq
    _ ↔ crc8 (crc8Bytes 0 ((List.range 7).map (romByte c))) (romByte c 7) = 0 := by
      rw [romBytes_eq_append, crc8Bytes_append]
      rfl
    _ ↔ romByte c 7 = crc8Bytes 0 ((List.range 7).map (romByte c)) := crc8_eq_zero_iff _ _

/-! ## A code and its bytes -/

theorem romBytes_getD (c : RomCode) {j : Nat} (hj : j < 8) : (romBytes c).getD j 0 = romByte c j := by
  interval_cases j <;> rfl

/-- A code is the code of its bytes (R180). -/
theorem romOfBytes_romBytes (c : RomCode) : romOfBytes (romBytes c) = c := BitVec.eq_of_getLsbD_eq fun k hk => by
  have hi : k % 8 < 8 := Nat.mod_lt _ (by decide)
  rw [← Nat.div_add_mod k 8, romOfBytes_getLsbD _ _ _ hi (by omega), romBytes_getD c (by omega), romByte_getLsbD _ _ _ hi]

/-- Levels that are a code's positions in order make the code's bytes (R13, R123). -/
theorem State.levelBytes_eq_romBytes {s : State} {k : Nat} {c : RomCode} (h : ∀ i, i < 64 → c.getLsbD i = s.upcoming (k + i)) :
    s.levelBytes k 8 = romBytes c :=
  List.map_congr_left (f := fun j => byteOfBits (s.levels (k + 8 * j) 8)) fun j hj => BitVec.eq_of_getLsbD_eq fun i hi => by
    have hj : j < 8 := List.mem_range.1 hj
    rw [s.byteOfBits_levels_getLsbD _ hi, romByte_getLsbD _ _ _ hi, h _ (by omega), Nat.add_assoc]

/-! ## READ_ROM -/

theorem During.setRom {s t : State} {tr : List Expect} (h : During s tr t) (c : RomCode) : During (s.setRom c) tr (t.setRom c) :=
  h.congr ⟨rfl, rfl, rfl, rfl, rfl, rfl⟩ rfl rfl rfl rfl (by conv_lhs => rw [h.regs]
                                                             rfl)

/-- A code into ROM, then the last action (R186). -/
theorem finish_setRom_ends_of_during {s t : State} {tr : List Expect} (h : During s tr t) (c : RomCode) (code : ResultCode) :
    (finish code (t.setRom c)).Ends t [] ((s.setRom c).complete code) :=
  (finish_ends_of_during (h.setRom c) code).of_written ⟨rfl, rfl, rfl, rfl, rfl, rfl⟩ rfl rfl

/-- The registers as READ_ROM leaves them once the code `c` is read: the CRC check iff CRC_EN (R186). -/
def State.romRead (s : State) (c : RomCode) : State :=
  if s.ctrl.crcEn && crc8Bytes 0 (romBytes c) != 0 then (s.setRom 0).complete .crcMismatch else (s.setRom c).complete .ok

theorem State.romRead_buf (s : State) (c : RomCode) : (s.romRead c).buf = s.buf := by
  unfold State.romRead
  split <;> rfl

theorem State.romRead_cfg (s : State) (c : RomCode) : (s.romRead c).cfg = s.cfg := by
  unfold State.romRead
  split <;> rfl

/-- READ_ROM once the bytes of the code `c` are read: zero or the code goes into ROM (R186). -/
theorem readRomEnd_ends {s t : State} {tr : List Expect} (h : During s tr t) (c : RomCode) :
    (readRomEnd (romBytes c) t).Ends t [] (s.romRead c) := by
  unfold readRomEnd State.romRead
  rw [h.ctrl, romOfBytes_romBytes]
  split
  · exact finish_setRom_ends_of_during h 0 .crcMismatch
  · exact finish_setRom_ends_of_during h c .ok

theorem writeBytesTrace_singleton (tm : Timing) (v : Byte) : writeBytesTrace tm [v] = writeBitsTrace tm (byteBits v) :=
  List.append_nil _

/-- READ_ROM after its bus reset found a device: the command byte and 64 read slots (R186). -/
theorem readRomAfterReset_ends {s t : State} {tr : List Expect} (h : During s tr t) {c : RomCode}
    (hc : ∀ k, k < 64 → c.getLsbD k = t.upcoming k) :
    (readRomAfterReset true t).Ends t
      (writeBytesTrace s.cfg.timing [s.cfg.cmdReadRom] ++ readBitsTrace s.cfg.timing (t.levels 0 64)) (s.romRead c) := by
  have hw := writeBytesTrace_singleton t.cfg.timing t.cfg.cmdReadRom ▸ writeByte_yields t.cfg.cmdReadRom t
  rw [← h.cfg]
  refine hw.andThen_ends fun u hu => ?_
  have hup : ∀ k, u.upcoming k = t.upcoming k := fun k => by rw [hu.upcoming, samplesIn_writeBytesTrace, Nat.zero_add]
  have hr := readBytes_yields 8 [] u
  rw [hu.cfg, List.nil_append, State.levelBytes_eq_romBytes fun k hk => by rw [hc k hk, Nat.zero_add, hup], hu.levels,
    samplesIn_writeBytesTrace] at hr
  have := hr.andThen_ends fun v hv => readRomEnd_ends ((h.trans hu).trans hv) c
  rwa [List.append_nil] at this

/-- R186 past the checks, with no device: ROM becomes zero and the bus stays idle. -/
theorem bodyReadRom_absent_ends {s t : State} (ht : During s [] t) (hp : (!s.upcoming 0 && s.upcoming 1) = false) :
    (bodyReadRom t).Ends t (resetTrace s.cfg.timing (s.upcoming 0) (s.upcoming 1))
      (((s.setPresent false).setRom 0).complete .notPresent) := by
  have h := resetPresence_yields t
  rw [ht.cfg, ht.upcoming_first, ht.upcoming_first, hp] at h
  exact (h.andThen_last (ht.setPresent false) fun _ hu => finish_setRom_ends_of_during hu 0 .notPresent).of_written
    (.setPresent _ _) rfl rfl

/-- R186 past the checks, with a device: the code `c` is the 64 levels after the reset's two. -/
theorem bodyReadRom_present_ends {s t : State} (ht : During s [] t) (hp : (!s.upcoming 0 && s.upcoming 1) = true) {c : RomCode}
    (hc : ∀ k, k < 64 → c.getLsbD k = s.upcoming (2 + k)) :
    (bodyReadRom t).Ends t
      (resetTrace s.cfg.timing (s.upcoming 0) (s.upcoming 1) ++ writeBytesTrace s.cfg.timing [s.cfg.cmdReadRom] ++
        readBitsTrace s.cfg.timing (s.levels 2 64)) ((s.setPresent true).romRead c) := by
  have h := resetPresence_yields t
  rw [ht.cfg, ht.upcoming_first, ht.upcoming_first, hp] at h
  rw [List.append_assoc]
  refine (h.andThen_ends fun u hu => ?_).of_written (.setPresent _ _) rfl rfl
  have hsu : During (s.setPresent true) _ u := (ht.setPresent true).trans hu
  have hlv : u.levels 0 64 = s.levels 2 64 := hsu.levels 0 64
  exact hlv ▸ readRomAfterReset_ends hsu fun k hk => (hc k hk).trans (hsu.upcoming k).symm

/-- Settles O51: the checks pass or fail by EN, and past them the bus reset decides whether a code is read. -/
theorem readRomReadsCheckedCode : Obligations.ReadRomReadsCheckedCode := by
  refine ⟨rfl, fun s hs => ⟨fun he hp => ?_, fun he hp c hc => ?_, fun he => exec_refused hs (prologue_of_disabled rfl he)⟩⟩
  · exact exec_completes hs (prologue_of_enabled he nofun) (fun _ ht => bodyReadRom_absent_ends ht hp) rfl rfl
  · exact exec_completes hs (prologue_of_enabled he nofun) (fun _ ht => bodyReadRom_present_ends ht hp hc)
      ((s.setPresent true).romRead_buf c) ((s.setPresent true).romRead_cfg c)

end Sys2Proof.Machine
end

section
/-! PROOF. The device search and VERIFY_ROM (43_search.md): what one position of a pass does, and the three commands as one pass
over the samples to come, each with its own last actions after it. -/

namespace Sys2Proof.Machine

/-! ## One position of a pass -/

/-- A pair that is no discrepancy gives the first bit read, and nothing is recorded (R201). -/
theorem choose_of_ne {a c : Bool} (h : a ≠ c) (k : Nat) (p : Pass) : choose a c k p = some (a, p) := by
  cases a <;> cases c
  case false.true | true.false => rfl
  all_goals exact absurd rfl h

/-- A discrepancy gives the direction of R203, and a 0 is recorded. -/
theorem choose_discrepancy (k : Nat) (p : Pass) :
    choose false false k p = some (discrepancyDir p.cursor k, if discrepancyDir p.cursor k then p else p.recordZero k) := by
  unfold choose
  cases discrepancyDir p.cursor k <;> rfl

theorem discrepancyDir_before {c : Cursor} {k : Nat} (h : k < c.ld.toNat) : discrepancyDir c k = rombit c.srom k := if_pos h

theorem discrepancyDir_at {c : Cursor} {k : Nat} (h : k = c.ld.toNat) : discrepancyDir c k = true := by
  simp [discrepancyDir, h]

theorem discrepancyDir_after {c : Cursor} {k : Nat} (h : c.ld.toNat < k) : discrepancyDir c k = false := by
  simp [discrepancyDir, h.not_gt, h.ne']

/-- The record of a zero is in LFD alone of the cursor (R203, R209). -/
theorem Pass.recordZero_cursor (p : Pass) (k : Nat) :
    (p.recordZero k).cursor = { p.cursor with lfd := if k ≤ 8 then BitVec.ofNat 4 k else p.cursor.lfd } := by
  unfold Pass.recordZero
  split_ifs <;> rfl

theorem Pass.recordZero_lfd_toNat (p : Pass) (k : Nat) :
    (p.recordZero k).cursor.lfd.toNat = if k ≤ 8 then k else p.cursor.lfd.toNat := by
  rw [p.recordZero_cursor]
  split_ifs with hk
  · exact (BitVec.toNat_ofNat k 4).trans (Nat.mod_eq_of_lt (by omega))
  · rfl

/-- The choice of a direction leaves all of the cursor but LFD. -/
theorem choose_keeps {a c dir : Bool} {k : Nat} {p p' : Pass} (h : choose a c k p = some (dir, p')) :
    p'.cursor.ld = p.cursor.ld ∧ p'.cursor.exh = p.cursor.exh ∧ p'.cursor.srom = p.cursor.srom := by
  by_cases hac : a = c
  · subst hac
    cases a with
    | true => cases h
    | false =>
      rw [choose_discrepancy] at h
      cases h
      split_ifs
      · exact ⟨rfl, rfl, rfl⟩
      · rw [p.recordZero_cursor]
        exact ⟨rfl, rfl, rfl⟩
  · rw [choose_of_ne hac] at h
    cases h
    exact ⟨rfl, rfl, rfl⟩

/-- A position with a direction: its write slot, then bit `k` of SROM takes it and the pass goes on (R202). -/
theorem searchTurn_of_choose {a c dir : Bool} {k : Nat} {p p' : Pass} (h : choose a c k p = some (dir, p')) (w : Walked)
    (rest : Pass → State → Ran (Bool × Pass)) (s : State) :
    searchTurn w k p rest a c s =
      (writeBit dir ((s.withPass w p').atPair k none)).andThen fun _ t => rest (p'.turn k dir) (t.withPass w (p'.turn k dir)) := by
  unfold searchTurn
  rw [h]
  rfl

/-- Settles O56: the pair is a discrepancy or it is not, and after the write slot `setrombit` sets the one bit of SROM. -/
theorem directionFollowsLastDiscrepancy : Obligations.DirectionFollowsLastDiscrepancy := by
  intro k p hk1 hk64
  refine ⟨rfl, fun _ _ _ => rfl, fun a c hac => ?_⟩
  obtain ⟨⟨dir, p'⟩, hch⟩ := Option.ne_none_iff_exists'.1 (mt choose_eq_none.1 hac)
  obtain ⟨hld, hexh, hsrom⟩ := choose_keeps hch
  refine ⟨dir, p', hch, fun hne => ?_, fun hzero => ?_, hld, hexh, hsrom, p'.turn k dir, fun j hj1 hj64 => ?_, rfl, rfl,
    searchTurn_of_choose hch, fun _ => ⟨rfl, rfl, rfl, rfl⟩⟩
  · rw [choose_of_ne hne] at hch
    cases hch
    exact ⟨rfl, rfl, rfl⟩
  · obtain ⟨rfl, rfl⟩ := hzero
    rw [choose_discrepancy] at hch
    cases hch
    refine ⟨discrepancyDir_before, discrepancyDir_at, discrepancyDir_after, fun hdir => ?_, fun hdir => ?_⟩
    · rw [if_pos hdir]
      exact ⟨rfl, rfl⟩
    · rw [if_neg (Bool.eq_false_iff.1 hdir)]
      exact ⟨rfl, p.recordZero_lfd_toNat k⟩
  · exact hsrom ▸ rombit_setrombit p'.cursor.srom k j dir ⟨hk1, hk64⟩ ⟨hj1, hj64⟩

/-! ## A pass, then a command's last actions -/

theorem During.setFound {s t : State} {tr : List Expect} (h : During s tr t) (b : Bool) : During (s.setFound b) tr (t.setFound b) :=
  h.congr ⟨rfl, rfl, rfl, rfl, rfl, rfl⟩ rfl rfl rfl rfl (by conv_lhs => rw [h.regs]
                                                             rfl)

/-- FOUND is written, then the last action (R210 to R212). -/
theorem finish_setFound_ends_of_during {s t : State} {tr : List Expect} (h : During s tr t) (b : Bool) (code : ResultCode) :
    (finish code (t.setFound b)).Ends t [] ((s.setFound b).complete code) :=
  (finish_ends_of_during (h.setFound b) code).of_written ⟨rfl, rfl, rfl, rfl, rfl, rfl⟩ rfl rfl

/-- The registers after a pass from the cursor `c` over the levels to come: PRESENT, and the cursor that it walks (R202). -/
def State.passed (s : State) (w : Walked) (c : Cursor) : State :=
  (s.setPresent (presentAfterPass s.upcoming c s.flags.present)).walk w (walkPass s.cfg s.upcoming c).1.2

/-- A pass from the cursor `c`, put where the pass walks it at the command's first point, then last actions `f` that leave no
trace. -/
theorem searchStep_ends {w : Walked} {c : Cursor} {s t v : State} {f : ResultCode × Cursor → State → Ran Unit} (ht : During s [] t)
    (hf : ∀ u, During (s.passed w c) (walkPass s.cfg s.upcoming c).2 u → (f (walkPass s.cfg s.upcoming c).1 u).Ends u [] v) :
    ((searchStep w c (t.walk w c)).andThen f).Ends t (walkPass s.cfg s.upcoming c).2 v := by
  have hup : (t.walk w c).upcoming = s.upcoming := by
    rw [← funext ht.upcoming_first]
    cases w <;> rfl
  have hpass := searchStep_yields w c (t.walk w c) fun hw => by simp [hw]
  rw [hup, State.walk_cfg, ht.cfg, State.walk_flags, ht.present] at hpass
  have hstart : During (s.passed w c) [] (((t.walk w c).setPresent (presentAfterPass s.upcoming c s.flags.present)).walk w
      (walkPass s.cfg s.upcoming c).1.2) := by
    cases w <;> exact (ht.setPresent _).walk _ _
  exact (hpass.andThen_last hstart hf).of_written (by constructor <;> simp) (by simp) (by simp)

/-! ## SEARCH_FIRST, SEARCH_NEXT -/

/-- A search from the cursor `c` ends with the cursor and the result of its pass, and FOUND by that result (R210, R211). -/
theorem searchCommand_ends {s t : State} (ht : During s [] t) (c : Cursor) :
    ((searchStep .registers c (t.setCursor c)).andThen searchCommandEnd).Ends t (walkPass s.cfg s.upcoming c).2
      (((s.passed .registers c).setFound ((walkPass s.cfg s.upcoming c).1.1 == .ok)).complete (walkPass s.cfg s.upcoming c).1.1) :=
  searchStep_ends (w := .registers) ht fun _ hu => finish_setFound_ends_of_during hu _ _

/-- Settles O52: the checks pass or fail by EN, and the body is one pass from the fresh cursor. -/
theorem searchFirstRunsAFreshPass : Obligations.SearchFirstRunsAFreshPass := by
  refine ⟨rfl, fun s hs => ⟨fun he => ?_, fun he => exec_refused hs (prologue_of_disabled rfl he)⟩⟩
  exact exec_completes hs (prologue_of_enabled he nofun) (fun _ ht => searchCommand_ends ht (.fresh 0)) rfl rfl

/-- Settles O53: the checks pass or fail by EN, and the body is one pass from the cursor as it stands. -/
theorem searchNextRunsAPassFromTheCursor : Obligations.SearchNextRunsAPassFromTheCursor := by
  refine ⟨rfl, fun s hs => ⟨fun he => ?_, fun he => exec_refused hs (prologue_of_disabled rfl he)⟩⟩
  refine exec_completes hs (prologue_of_enabled he nofun) (fun t ht => ?_) rfl rfl
  exact ht.cursor ▸ searchCommand_ends ht t.cursor

/-! ## VERIFY_ROM -/

/-- The compare of R212, as a condition. -/
theorem verifyResult_eq (rom : RomCode) (r : ResultCode × Cursor) :
    verifyResult rom r = if r.1 = .ok ∧ r.2.srom ≠ rom then .notFound else r.1 := by
  simp [verifyResult]

/-- VERIFY_ROM past its checks: the pass writes PRESENT and its own cursor, and the compare decides FOUND and the result (R212). -/
theorem bodyVerifyRom_ends {s t : State} (ht : During s [] t) :
    (bodyVerifyRom t).Ends t (walkPass s.cfg s.upcoming (verifyCursor s.rom)).2
      (((s.passed .own (verifyCursor s.rom)).setFound
        (verifyResult s.rom (walkPass s.cfg s.upcoming (verifyCursor s.rom)).1 == .ok)).complete
        (verifyResult s.rom (walkPass s.cfg s.upcoming (verifyCursor s.rom)).1)) := by
  unfold bodyVerifyRom
  rw [ht.rom]
  refine searchStep_ends ht fun u hu => ?_
  have hrom : u.rom = s.rom := hu.rom
  unfold verifyEnd
  rw [hrom]
  exact finish_setFound_ends_of_during hu _ _

/-- Settles O54: the checks pass or fail by EN, and the body is one pass from VERIFY_ROM's own cursor and the compare. -/
theorem verifyRomComparesTheWalkedCode : Obligations.VerifyRomComparesTheWalkedCode := by
  refine ⟨rfl, fun s hs => ?_⟩
  intro w code
  have hcode : code = verifyResult s.rom w.1 := (verifyResult_eq s.rom w.1).symm
  rw [hcode]
  exact ⟨fun he => exec_completes hs (prologue_of_enabled he nofun) (fun _ ht => bodyVerifyRom_ends ht) rfl rfl,
    fun he => exec_refused hs (prologue_of_disabled rfl he)⟩

end Sys2Proof.Machine
end

section
/-! PROOF. Errors and how a command ends (60_exceptions.md): every command ends by completion or by a hardware reset (R240, R271), the
checks that begin a command come in order (R243), and a CRC command does not see CTRL.EN (R242). -/

namespace Sys2Proof.Machine

/-! ## The ends of a command -/

/-- A hardware reset has left every register at its reset value (R270, R271). -/
theorem CutFrom.atReset {s t : State} (h : CutFrom s t) : t.seq = .idle ∧ t.pin = .released ∧ t.flags.done = false := by
  rw [h.regs]
  exact ⟨rfl, rfl, rfl⟩

/-- Settles O26: a command's run is a completion, a cut by a reset that was to come, or a stop by a look, and no look is to come. -/
theorem everyCommandCompletesOrIsReset : Obligations.EveryCommandCompletesOrIsReset := by
  intro i s hs
  obtain ⟨r, hr, hl⟩ := exec_leaves i s
  cases r with
  | ok _ t =>
    obtain ⟨h, -⟩ := hl
    exact ⟨t, hr, h.seq, h.pin, h.cfg, .inl ⟨h.resets, h.done, h.cmd, h.ctrl⟩⟩
  | cut t =>
    have h : CutFrom s t := hl
    obtain ⟨hseq, hpin, hdone⟩ := h.atReset
    exact ⟨t, hr, hseq, hpin, h.cfg, .inr ⟨h.resets, h.regs, hdone, h.reset_to_come⟩⟩
  | stopped t => exact absurd hs hl.1.look_to_come

/-! ## The checks, in order -/

/-- A word whose OPCODE is none of R95's decodes to a command of that OPCODE (R91, R94). -/
theorem decodeWord_legal {w : Word}
    (h : ¬(w.toNat % 256 = 0x00 ∨ (0x0D ≤ w.toNat % 256 ∧ w.toNat % 256 ≤ 0x0F) ∨ 0x12 ≤ w.toNat % 256)) :
    ∃ i, decodeWord w = .ok i ∧ i.opcode.toNat = w.toNat % 256 := by
  rw [← opcodeField_toNat] at h ⊢
  unfold decodeWord
  split
  case h_15 =>
    simp only [imp_false] at *
    omega
  all_goals
    rename_i hop
    exact ⟨_, rfl, hop.symm⟩

theorem lenField_toNat (w : Word) : (lenField w).toNat = w.toNat / 2 ^ 16 := by
  have := w.isLt
  rw [lenField_eq, BitVec.toNat_ofNat]
  omega

/-- The commands of OPCODE 0x06, 0x07 and 0x11 check the LEN field of their word (R94, R243). -/
theorem decodeWord_block {w : Word} (h : w.toNat % 256 = 0x06 ∨ w.toNat % 256 = 0x07 ∨ w.toNat % 256 = 0x11) :
    ∃ i, decodeWord w = .ok i ∧ blockLength i = some (lenField w) := by
  rw [← opcodeField_toNat] at h
  obtain h | h | h := h
  · exact ⟨.writeBlock (lenField w), by simp only [decodeWord, h], rfl⟩
  · exact ⟨.readBlock (lenField w), by simp only [decodeWord, h], rfl⟩
  · exact ⟨.crc8Block (lenField w), by simp only [decodeWord, h], rfl⟩

/-- The step of a command whose checks fail is its completion, with nothing else changed (R243). -/
theorem step_refused {s : State} {w : Word} {i : Instr} {code : ResultCode} (hw : s.seq = .run w) (hp : s.pos.place = .start)
    (hs : s.unbroken) (hd : decodeWord w = .ok i) (hc : prologue i s = some code) :
    ∃ t, step s = .next t ∧ EndsAs s [] (s.complete code) t ∧ SameBuf s t := by
  obtain ⟨t, ht, hb, he⟩ := exec_refused hs hc
  exact ⟨t, (step_decoded_start hw hd hp).trans ht, he, hb⟩

/-- Settles O11: the three conditions are those of an illegal word, of a bus command without EN, and of a block that is too long. -/
theorem prologueChecksComeInOrder : Obligations.PrologueChecksComeInOrder := by
  intro s w hw hp hs op failed code hcode
  simp only [failed] at hcode
  split_ifs at hcode with hill hbus hlen
  all_goals cases hcode
  · exact illegalWordsCompleteAtOnce s w hw hp hill hs
  · obtain ⟨hlo, hhi, hen⟩ := hbus
    obtain ⟨i, hd, hop⟩ := decodeWord_legal hill
    have hi : isBusCommand i = true := by
      rw [isBusCommand, hop]
      exact decide_eq_true ⟨hlo, hhi⟩
    exact step_refused hw hp hs hd (prologue_of_disabled hi hen)
  · obtain ⟨i, hd, hn⟩ := decodeWord_block hlen.1
    exact step_refused hw hp hs hd (prologue_of_too_long hn (lenField_toNat w ▸ hlen.2))

/-! ## A command that does not see CTRL

The same run with another value of CTRL: what lands in it is the same but for the values that reads of CTRL get. -/

/-- The state with other settings, and with other values in the replies. -/
def State.withCtrl (c : Ctrl) (vs : List Word) (s : State) : State := { s with ctrl := c, env := { s.env with replies := vs } }

theorem busyRead_withCtrl (c : Ctrl) (vs : List Word) (off : Nat) (s : State) :
    ∃ vs', busyRead off (s.withCtrl c vs) = (busyRead off s).withCtrl c vs' := by
  have hd : drawsAt off (s.withCtrl c vs) = drawsAt off s := rfl
  rw [busyRead_eq, busyRead_eq, hd]
  split
  · exact ⟨_, rfl⟩
  · exact ⟨_, rfl⟩

theorem busyWrite_withCtrl (c : Ctrl) (vs : List Word) (off : Nat) (s : State) :
    busyWrite off (s.withCtrl c vs) = (busyWrite off s).withCtrl c vs := by
  rw [busyWrite_eq, busyWrite_eq]
  rfl

theorem arrivals_withCtrl (c : Ctrl) (vs : List Word) {l : List HostReq} {s u : State} (h : arrivals l s = .ok () u) :
    ∃ vs', arrivals l (s.withCtrl c vs) = .ok () (u.withCtrl c vs') := by
  induction l generalizing s vs with
  | nil =>
    cases h
    exact ⟨vs, rfl⟩
  | cons r rest ih =>
    obtain ⟨a, op⟩ := r
    have hpoints : (s.withCtrl c vs).pos.points = s.pos.points := rfl
    unfold arrivals at h ⊢
    rw [hpoints]
    split at h
    · next hl =>
      rw [if_pos hl]
      cases op with
      | read off size =>
        obtain ⟨vs', hr⟩ := busyRead_withCtrl c vs off s
        simp only [hr]
        exact ih vs' h
      | write off size v =>
        simp only [busyWrite_withCtrl]
        exact ih vs h
      | poll last =>
        obtain ⟨vs', hr⟩ := busyRead_withCtrl c vs (regOffset .status) s
        simp only [hr]
        exact ih vs' h
      | reset => cases h
      | look n => cases h
    · next hl =>
      cases h
      exact ⟨vs, if_neg hl⟩

/-- A point of a running command, with the one value of CTRL and with the other. -/
theorem point_withCtrl (c : Ctrl) (vs : List Word) {s : State} (hs : s.unbroken) :
    ∃ u vs', During s [] u ∧ point s = .ok () u ∧ point (s.withCtrl c vs) = .ok () (u.withCtrl c vs') := by
  obtain ⟨u, hu, hd⟩ := (point_yields s).ok hs
  obtain ⟨vs', hv⟩ := arrivals_withCtrl c vs hu
  exact ⟨u, vs', hd, hu, hv⟩

theorem finish_withCtrl (c : Ctrl) (vs : List Word) (code : ResultCode) {s : State} (hs : s.unbroken) :
    ∃ u vs', finish code s = .ok () u ∧ finish code (s.withCtrl c vs) = .ok () (u.withCtrl c vs') := by
  obtain ⟨u, vs', -, hu, hv⟩ := point_withCtrl c vs (s := s.stand (.last code)) hs
  refine ⟨u.complete code, vs', ?_, ?_⟩
  · rw [finish, hu]
    rfl
  · exact congrArg (Ran.complete · code) hv

/-- The commands of OPCODE 0x10 and 0x11 (R91). -/
theorem eq_crc_of_opcode {i : Instr} (h : i.opcode = 0x10 ∨ i.opcode = 0x11) :
    (∃ b, i = .crc8Step b) ∨ ∃ n, i = .crc8Block n := by
  cases i with
  | crc8Step b => exact .inl ⟨b, rfl⟩
  | crc8Block n => exact .inr ⟨n, rfl⟩
  | _ => simp [Instr.opcode] at h

/-- A CRC command past its checks writes CRC.ACC, whatever CTRL holds, and completes (R165, R166). -/
theorem crcBody_withCtrl (c : Ctrl) (vs : List Word) {i : Instr} (h : i.opcode = 0x10 ∨ i.opcode = 0x11) (s : State) :
    ∃ v, bodyOf i s = finish .ok (s.setAcc v) ∧ bodyOf i (s.withCtrl c vs) = finish .ok ((s.setAcc v).withCtrl c vs) := by
  obtain ⟨b, rfl⟩ | ⟨n, rfl⟩ := eq_crc_of_opcode h
  · exact ⟨_, rfl, rfl⟩
  · exact ⟨_, rfl, rfl⟩

/-- The checks of a command outside the bus class do not see CTRL (R242). -/
theorem prologue_withCtrl (c : Ctrl) (vs : List Word) {i : Instr} (hi : isBusCommand i = false) (s : State) :
    prologue i (s.withCtrl c vs) = prologue i s := by
  rw [prologue, prologue, hi]
  rfl

/-- A CRC command ends the same with another value of CTRL (R242). -/
theorem exec_crc_withCtrl (c : Ctrl) (vs : List Word) {i : Instr} (h : i.opcode = 0x10 ∨ i.opcode = 0x11) {s : State}
    (hs : s.unbroken) : ∃ t vs', exec i s = .next t ∧ exec i (s.withCtrl c vs) = .next (t.withCtrl c vs') := by
  have hi : isBusCommand i = false := by
    obtain h | h := h <;> rw [isBusCommand, h] <;> rfl
  obtain ⟨u, us, hd, hu, hu'⟩ := point_withCtrl c vs (s := s.stand .checks) hs
  have hends : ∃ t vs', (Ran.ok () u).checked i (bodyOf i) = .ok () t ∧
      (Ran.ok () (u.withCtrl c us)).checked i (bodyOf i) = .ok () (t.withCtrl c vs') := by
    simp only [Ran.checked, Ran.andThen_ok, prologue_withCtrl c us hi]
    cases prologue i u with
    | some code => exact finish_withCtrl c us code (hd.unbroken hs)
    | none =>
      obtain ⟨v, hb, hb'⟩ := crcBody_withCtrl c us h u
      simp only [hb, hb']
      exact finish_withCtrl c us .ok (s := u.setAcc v) (hd.unbroken hs)
  obtain ⟨t, vs', ht, ht'⟩ := hends
  refine ⟨t, vs', ?_, ?_⟩
  · rw [exec_eq, hu, ht]
    rfl
  · have hstand : (s.withCtrl c vs).stand .checks = (s.stand .checks).withCtrl c vs := rfl
    rw [exec_eq, hstand, hu', ht']
    rfl

/-- Settles O10: a bus command without EN fails its first check, and a CRC command ends the same with EN the other way. -/
theorem busCommandsNeedEnable : Obligations.BusCommandsNeedEnable := by
  refine ⟨fun i s hlo hhi he hs => ?_, fun i s s' h hs hs' => ?_⟩
  · obtain ⟨t, ht, hb, hends⟩ := exec_refused hs (prologue_of_disabled (i := i) (decide_eq_true ⟨hlo, hhi⟩) he)
    exact ⟨t, ht, hends, hb⟩
  · obtain ⟨t, vs, ht, ht'⟩ := exec_crc_withCtrl s'.ctrl s.env.replies h hs
    have hw : s' = s.withCtrl s'.ctrl s.env.replies := by
      subst hs'
      rfl
    exact ⟨t, t.withCtrl s'.ctrl vs, ht, hw ▸ ht', rfl⟩

end Sys2Proof.Machine
end

section
/-! PROOF. Reset values (70_reset_and_hazards.md section 1): what the window reads as after a hardware reset or at power-on (R270). -/

namespace Sys2Proof.Machine

/-! ## The registers of their own -/

/-- A register of its own lies at its own offset only; BUF lies from 0x100 on (R22). -/
theorem regAt_eq_some {off : Nat} {r : Reg} (h : regAt off = some r) : off = regOffset r ∨ 0x100 ≤ off := by
  unfold regAt at h
  split at h
  case h_12 =>
    split at h
    case isTrue hb => exact .inr hb.1
    case isFalse => cases h
  all_goals exact .inl (Option.some.inj h ▸ rfl)

/-- At an offset below BUF there is neither a word of BUF nor, but for its own offset, INFO (R22). -/
theorem regAt_below_buf {off : Nat} {r : Reg} (h : regAt off = some r) (hlt : off < 0x100) (hinfo : off ≠ 0x028) :
    r ≠ .info ∧ ∀ w, r ≠ .buf w := by
  have hoff : off = regOffset r := (regAt_eq_some h).resolve_right (by omega)
  refine ⟨?_, fun w => ?_⟩
  · rintro rfl
    exact hinfo hoff
  · rintro rfl
    simp only [regOffset] at hoff
    omega

/-! ## Their values after reset -/

/-- A state with every register at its reset value, whatever the parameters, the inputs to come and the records (R270). -/
def State.resetWith (c : Params) (e : Env) : State := { State.reset with cfg := c, env := e }

/-- R270: every register but INFO and BUF reads 0. -/
theorem readReg_resetWith (c : Params) (e : Env) {r : Reg} (hinfo : r ≠ .info) (hbuf : ∀ w, r ≠ .buf w) :
    readReg r (State.resetWith c e) = 0 := by
  cases r with
  | info => exact absurd rfl hinfo
  | buf w => exact absurd rfl (hbuf w)
  | ctrl => exact (by decide : ctrlWord State.reset.ctrl = 0)
  | status => exact (by decide : statusWord State.reset.busy State.reset.flags = 0)
  | search => exact (by decide : searchWord State.reset.cursor = 0)
  | romHi | sromHi => exact (by decide : romHigh 0 = 0)
  | _ => rfl

/-- Below BUF and but for INFO, the window reads 0, at a register as at a reserved offset (R33, R270). -/
theorem readAt_resetWith (c : Params) (e : Env) {off : Nat} (hlt : off < 0x100) (hinfo : off ≠ 0x028) :
    readAt off (State.resetWith c e) = 0 := by
  cases h : regAt off with
  | none => rw [readAt, h]
  | some r =>
    obtain ⟨hi, hb⟩ := regAt_below_buf h hlt hinfo
    rw [readAt_of_regAt h, readReg_resetWith c e hi hb]

/-- A hardware reset and power-on leave the same values of the registers. -/
theorem eq_resetWith_of_reset {s r : State} (h : r = s.hardReset ∨ r = State.reset) : r = State.resetWith r.cfg r.env := by
  obtain rfl | rfl := h <;> rfl

/-- Settles O24: the idle engine's step takes the reset input, and the values after it are those of `State.resetWith`. -/
theorem resetValuesAsListed : Obligations.ResetValuesAsListed := by
  refine ⟨fun s a rest hs hh => step_idle_reset hs hh, fun s r h => ?_⟩
  have hkept : r = s.hardReset → r.cfg = s.cfg ∧ readAt 0x028 r = readAt 0x028 s := by
    rintro rfl
    exact ⟨rfl, rfl⟩
  have hzero : ∀ off, off < 0x100 → off ≠ 0x028 → readAt off r = 0 := by
    rw [eq_resetWith_of_reset h]
    exact fun off => readAt_resetWith r.cfg r.env
  have hstatus : readAt 0x008 r = 0 := hzero 0x008 (by decide) (by decide)
  have hsearch : readAt 0x024 r = 0 := hzero 0x024 (by decide) (by decide)
  obtain rfl | rfl := h <;>
    exact ⟨rfl, rfl, hstatus, rfl, rfl, rfl, rfl, hsearch, rfl, rfl, hkept, hzero⟩

end Sys2Proof.Machine
end

section
/-! PROOF. Command words (30_encoding.md): the decoder takes each operand from the field in which the encoder puts it (R90, R94, R97),
and every word has an arm of the decoder or an illegal OPCODE (R95, R96). -/

namespace Sys2Proof.Machine

/-- The bit that WRITE_BIT takes is the lowest of IMM8 (R90, R94). -/
theorem writtenBit_packWord (len : Half) (imm op : Byte) : (packWord len imm op).getLsbD 8 = imm.getLsbD 0 := by
  obtain ⟨-, himm, -⟩ := Laws.packWord_fields len imm op
  have h : (immField (packWord len imm op)).getLsbD 0 = (packWord len imm op).getLsbD 8 := BitVec.getLsbD_extractLsb' ..
  rw [← h, himm]

/-- Settles O1: the OPCODE field selects the command's own arm, which takes the operand from the field that holds it. -/
theorem decodeUndoesEncode : Obligations.DecodeUndoesEncode := by
  intro i
  obtain ⟨hop, himm, hlen⟩ := Laws.packWord_fields i.len i.imm i.opcode
  have hbit := writtenBit_packWord i.len i.imm i.opcode
  unfold encode decodeWord
  rw [hop, himm, hlen, hbit]
  cases i with
  | writeBit b => cases b <;> rfl
  | _ => rfl

/-- The OPCODE field as the low byte of the word's number (R90). -/
theorem opcodeField_eq (w : Word) : opcodeField w = BitVec.ofNat 8 (w.toNat % 256) := by
  rw [← opcodeField_toNat, BitVec.ofNat_toNat, BitVec.setWidth_eq]

/-- Settles O2: an OPCODE of R95's list has no arm in the decoder, and every other has its command's. -/
theorem decoderIsTotalByOpcode : Obligations.DecoderIsTotalByOpcode := fun w =>
  ⟨fun h => (decodeWord_illegal h).trans (by rw [opcodeField_eq]), decodeWord_legal⟩

/-- Settles O4: each word is evaluated. -/
theorem writtenOutWordsDecode : Obligations.WrittenOutWordsDecode := by
  unfold Obligations.WrittenOutWordsDecode
  decide

end Sys2Proof.Machine
end

section
/-! PROOF. The invariant between steps (R11, R32, R37 to R39, R115, R241). Outside a command, and where one has just been accepted, it
says that the engine is at rest: `State.Rests`. A host access keeps that, a completion and a hardware reset bring it about, and a look
leaves a running command at a place from which it goes on. -/

namespace Sys2Proof.Machine

/-! ## The engine at rest -/

/-- Nothing of a command is under way: BUF is in its form, the pin is released, position and temporaries are those outside a command,
and RESULT is a code that the engine produces. -/
structure State.Rests (s : State) : Prop where
  bufWf : s.bufWf
  pin : s.pin = .released
  pos : s.pos = .start
  tmp : s.tmp = .none
  result : s.flags.result.produced = true

/-- An engine at rest meets the invariant, idle or with a command at its start. -/
theorem State.Rests.inv {s : State} (h : s.Rests) (hc : s.cfg.wf) : s.Inv := by
  obtain ⟨⟨hw, hb⟩, hpin, hpos, htmp, hres⟩ := h
  have hplace : s.pos.place = .start := by rw [hpos]; rfl
  refine ⟨hc, hw, hb, ?_, ?_, fun _ => ⟨hpos, htmp⟩, hres, ?_⟩
  · rw [hpin, hplace]
    rfl
  · rw [State.stands, hplace]
    cases s.seq <;> rfl
  · rw [hplace]
    rfl

/-- An idle engine that meets the invariant is at rest: idle, it stands at no place of a command. -/
theorem State.Inv.rests {s : State} (h : s.Inv) (hs : s.seq = .idle) : s.Rests := by
  obtain ⟨-, hw, hb, hpin, hstands, hstart, hres, -⟩ := h
  have hplace : s.pos.place = .start := by
    rw [State.stands, hs] at hstands
    cases hp : s.pos.place with
    | start => rfl
    | _ => simp [hp] at hstands
  obtain ⟨hpos, htmp⟩ := hstart hplace
  refine ⟨⟨hw, hb⟩, ?_, hpos, htmp, hres⟩
  rw [hpin, hplace]
  rfl

/-- A hardware reset, whatever the parameters and the inputs to come (R270). -/
theorem State.resetWith_rests (c : Params) (e : Env) : (State.resetWith c e).Rests :=
  ⟨⟨.nil, nofun⟩, rfl, rfl, rfl, rfl⟩

/-! ## A step of the idle engine -/

/-- A write of any register keeps the engine at rest: of CMD, it accepts a command, which is then at its start (R63, R92). -/
theorem writeReg_rests (r : Reg) (v : Word) {s : State} (h : s.Rests) : (writeReg r v s).Rests := by
  obtain ⟨hb, hpin, hpos, htmp, hres⟩ := h
  cases r with
  | cmd => exact ⟨hb, hpin, rfl, rfl, hres⟩
  | buf w => exact ⟨s.setBufWord_bufWf w v hb, by simpa [writeReg], by simpa [writeReg], by simpa [writeReg], by simpa [writeReg]⟩
  | _ => exact ⟨hb, hpin, hpos, htmp, hres⟩

theorem writeAt_rests (off : Nat) (v : Word) {s : State} (h : s.Rests) : (writeAt off v s).Rests := by
  unfold writeAt
  split
  · exact writeReg_rests _ v h
  · exact h

/-- Inputs and records are no part of it. -/
theorem State.Rests.withEnv {s : State} (h : s.Rests) (e : Env) : State.Rests { s with env := e } :=
  ⟨h.bufWf, h.pin, h.pos, h.tmp, h.result⟩

/-- The next host access, the reset input among them, leaves the idle engine at rest. -/
theorem hostStep_rests {s t : State} (h : s.Rests) (hn : hostStep s = .next t) : t.Rests := by
  unfold hostStep at hn
  split at hn
  · cases hn
    exact h
  · next r rest _ =>
    obtain ⟨_, op⟩ := r
    cases op with
    | read off size =>
      dsimp only at hn
      split at hn <;> cases hn
      exact h.withEnv _
    | write off size v =>
      dsimp only at hn
      split at hn <;> cases hn
      exact writeAt_rests off v (h.withEnv _)
    | poll last =>
      cases hn
      exact h.withEnv _
    | reset =>
      cases hn
      exact State.resetWith_rests _ _
    | look n =>
      cases hn
      exact h.withEnv _

/-! ## A step of a running command -/

/-- A run of the accepted word that a look has stopped stands at a place from which there is a rest of it. -/
def StandsWord (w : Word) (t : State) : Prop :=
  (restOfWord w t).isSome = true ∧ t.pin = t.pos.place.pin ∧ t.pos.place ≠ .start ∧ t.pos.place.produced = true

theorem runOfWord_leaves (w : Word) (s : State) :
    ∃ r : Ran Unit, (runOfWord w s).outcome = r.outcome ∧ r.Leaves s Produced (StandsWord w) := by
  unfold runOfWord StandsWord restOfWord
  cases decodeWord w with
  | ok i => exact exec_eq i s ▸ exec_leaves i s
  | error e => exact illegalCommand_leaves s

theorem restOfWord_leaves {w : Word} {s : State} {r : Ran Unit} (hp : s.pos.place.produced = true) (h : restOfWord w s = some r) :
    r.Leaves s Produced (StandsWord w) := by
  unfold StandsWord
  unfold restOfWord at h ⊢
  cases hd : decodeWord w with
  | ok i =>
    rw [hd] at h
    exact restOf_leaves i s hp h
  | error e =>
    rw [hd] at h
    exact restOfIllegal_leaves s hp h

/-- What a step of a running command comes to, from a place about to complete, if at all, with a code that the engine produces. -/
theorem step_run_leaves_standing {s t : State} {w : Word} (hw : s.seq = .run w) (hp : s.pos.place.produced = true)
    (h : step s = .next t) : ∃ r : Ran Unit, r.outcome = .next t ∧ r.Leaves s Produced (StandsWord w) := by
  by_cases hs : s.pos.place = .start
  · obtain ⟨r, hr, hl⟩ := runOfWord_leaves w s
    exact ⟨r, by rw [← hr, ← step_at_start hw hs, h], hl⟩
  · rw [step_past_start hw hs] at h
    obtain ⟨r, hr, hn⟩ := goOn_next h
    exact ⟨r, hn, restOfWord_leaves hp hr⟩

/-- A completed command leaves the engine at rest (R93). -/
theorem Completed.rests {s t : State} (h : Completed s t) (hs : s.bufWf) (hr : Produced t) : t.Rests :=
  ⟨h.bufWf hs, h.pin, h.pos, h.tmp, hr⟩

theorem CutFrom.rests {s t : State} (h : CutFrom s t) : t.Rests := by
  rw [h.regs]
  exact State.resetWith_rests _ _

/-- A command stopped at a place from which it goes on meets the invariant. -/
theorem StoppedFrom.inv {s t : State} {w : Word} (h : StoppedFrom s t) (hw : s.seq = .run w) (hst : StandsWord w t) (hc : s.cfg.wf)
    (hb : t.bufWf) (hres : s.flags.result.produced = true) : t.Inv := by
  obtain ⟨hrest, hpin, hplace, hprod⟩ := hst
  refine ⟨h.cfg ▸ hc, hb.1, hb.2, hpin, ?_, fun hp => absurd hp hplace, h.result ▸ hres, hprod⟩
  rw [stands_past_start (h.seq.trans hw) hplace, hrest]

/-- Settles O27: an idle engine takes a host access, which leaves it at rest; a running command's step ends at rest, by completion or by
a hardware reset, or at a place of the command, by a look. -/
theorem everyStepKeepsTheInvariant : Obligations.EveryStepKeepsTheInvariant := by
  intro s t hi h
  have hct : t.cfg.wf := noStepChangesTheParameters s t h ▸ hi.1
  cases hs : s.seq with
  | idle => exact (hostStep_rests (hi.rests hs) (step_idle hs ▸ h)).inv hct
  | run w =>
    obtain ⟨hc, hw, hb, -, -, -, hres, hprod⟩ := hi
    obtain ⟨r, hn, hl⟩ := step_run_leaves_standing hs hprod h
    cases r with
    | ok _ u =>
      cases hn
      exact (hl.1.rests ⟨hw, hb⟩ hl.2).inv hct
    | cut u =>
      cases hn
      exact (CutFrom.rests hl).inv hct
    | stopped u =>
      cases hn
      obtain ⟨hstop, hbuf, hst⟩ := hl
      exact hstop.inv hs hst hc (hbuf ⟨hw, hb⟩) hres

/-- Settles O28: after reset the engine is at rest, with the spec's default parameters (R11, R270). -/
theorem resetMeetsTheInvariant : Obligations.ResetMeetsTheInvariant :=
  (State.resetWith_rests State.reset.cfg State.reset.env).inv (by decide)

end Sys2Proof.Machine
end

section
/-! PROOF. A running command with no reset to come is as without the host (R114, R245), and a hardware reset that comes first among the
host's inputs cuts a command where its time has come (R271). -/

namespace Sys2Proof.Machine

/-- Settles O22: the command and the same command with no access to come differ only in what the accesses leave. -/
theorem hostAccessesNeverDisturbACommand : Obligations.HostAccessesNeverDisturbACommand :=
  fun i _ hs => exec_undisturbed hs i

/-! ## A hardware reset at the head of the list -/

/-- A reset that is due takes every register to its reset value (R270, R271). -/
theorem arrivals_reset {p : Nat} (rest : List HostReq) {s : State} (hp : p ≤ s.pos.points) :
    arrivals (⟨.during p, .reset⟩ :: rest) s = .cut (s.setHost rest).hardReset := by
  have hl : HostReq.lands ⟨.during p, .reset⟩ s.pos.points = true := by simp [HostReq.lands, HostOp.admitted, hp]
  rw [arrivals, if_pos hl]

/-- A phase in which a due reset lands is cut short. -/
theorem phase_reset {s : State} {p : Nat} {rest : List HostReq} (hh : s.env.host = ⟨.during p, .reset⟩ :: rest)
    (hp : p ≤ s.pos.points + 1) (pl : Place) (d : Pin) (least : Nat) :
    phase pl d least s = .cut ((s.setHost rest).hardReset.cutShort d) := by
  unfold phase point here
  rw [State.enter_env, hh, arrivals_reset rest hp]
  rfl

/-- A reset that is due at a command's first point cuts the command there. -/
theorem exec_reset_at_checks (i : Instr) {s : State} {p : Nat} {rest : List HostReq} (hh : s.env.host = ⟨.during p, .reset⟩ :: rest)
    (hp : p ≤ s.pos.points + 1) : exec i s = .next (s.setHost rest).hardReset := by
  rw [exec_eq, point_checks, hh, arrivals_reset (s := s.atChecks) rest hp]
  rfl

/-- What has landed in a command without ending it is no reset. -/
theorem Landed.head_ne_reset {s : State} {n n' : Nat} {o o' : Bool} {r : HostReq} {l : List HostReq} {vs : List Word}
    (h : Landed s n o (r :: l) vs n' o') : r.op ≠ .reset := by
  intro hr
  cases h with
  | draw _ _ => cases hr
  | exact _ _ _ => cases hr
  | write _ => cases hr
  | status hop _ _ _ =>
    obtain ⟨_, hop⟩ | ⟨_, hop⟩ := hop <;> cases hop.symm.trans hr

/-- With a reset at the head of the list nothing lands before it (R70). -/
theorem Took.eq_nil {s t : State} {l m rest : List HostReq} {a : Arrival} {o : Bool} (h : Took s l o t)
    (hl : l ++ m = ⟨a, .reset⟩ :: rest) : l = [] := by
  obtain ⟨vs, hv, -⟩ := h
  cases l with
  | nil => rfl
  | cons r l =>
    obtain ⟨rfl, -⟩ := List.cons.inj hl
    exact absurd rfl hv.head_ne_reset

/-- A command with a reset at the head of the list: the reset cuts it, or it completes before. -/
theorem exec_cut_or_completed (i : Instr) {s : State} {a : Arrival} {rest : List HostReq} (hh : s.env.host = ⟨a, .reset⟩ :: rest) :
    ∃ t, exec i s = .next t ∧ (CutFrom s t ∧ t.env.host = rest ∨ Completed s t ∧ t.env.host = s.env.host) := by
  obtain ⟨r, hr, hl⟩ := exec_leaves i s
  cases r with
  | ok _ t =>
    obtain ⟨hc, -⟩ := hl
    obtain ⟨l, hle, htook⟩ := hc.took
    obtain rfl := htook.eq_nil (hle.symm.trans hh)
    exact ⟨t, hr, .inr ⟨hc, hle.symm⟩⟩
  | cut t =>
    have hc : CutFrom s t := hl
    obtain ⟨l, _, _, hle, htook⟩ := hc.took
    obtain rfl := htook.eq_nil (hle.symm.trans hh)
    exact ⟨t, hr, .inl ⟨hc, (List.cons.inj (hle.symm.trans hh)).2⟩⟩
  | stopped t =>
    obtain ⟨hst, -⟩ := hl
    obtain ⟨l, _, n, hle, htook⟩ := hst.took
    obtain rfl := htook.eq_nil (hle.symm.trans hh)
    cases hle.symm.trans hh

/-- Settles O25: nothing lands before the reset, so the command's run is cut by it or is a completion before it; a reset that is due at
the first point lands there, and one that is due in a phase cuts the phase. -/
theorem resetAbortsACommandAtOnce : Obligations.ResetAbortsACommandAtOnce := by
  refine ⟨fun i s p rest hh => ?_, fun pl d least s p rest hh hp => phase_reset hh hp pl d least⟩
  obtain ⟨t, ht, hends⟩ := exec_cut_or_completed i hh
  refine ⟨t, ht, ?_, fun hp => ?_⟩
  · obtain ⟨hc, hrest⟩ | ⟨hc, hrest⟩ := hends
    · obtain ⟨-, hpin, hdone⟩ := hc.atReset
      exact .inl ⟨hc.resets, hc.regs, hdone, hpin, hrest⟩
    · exact .inr ⟨hc.resets, hc.done, hc.pin, hrest⟩
  · cases ht.symm.trans (exec_reset_at_checks i hh hp)
    rfl

end Sys2Proof.Machine
end

section
/-! PROOF. What the registers read as, bit by bit (R22 to R32), the two halves of a code (R64), and the addresses of the window (R60). -/

namespace Sys2Proof.Machine

/-! ## The packed registers -/

/-- CTRL is EN and CRC_EN (R23). -/
theorem ctrlWord_getLsbD (c : Ctrl) (k : Nat) : (ctrlWord c).getLsbD k = ((k == 0 && c.en) || (k == 1 && c.crcEn)) := by
  simp only [ctrlWord, bit, BitVec.getLsbD_append, BitVec.getLsbD_ofBool, BitVec.getLsbD_zero]
  match k with
  | 0 | 1 | k + 2 => simp

/-- STATUS is five flags, and RESULT from bit 8 on (R25). -/
theorem statusWord_getLsbD (b : Bool) (f : Flags) (k : Nat) :
    (statusWord b f).getLsbD k =
      ((k == 0 && b) || (k == 1 && f.done) || (k == 2 && f.ovr) || (k == 3 && f.present) || (k == 4 && f.found) ||
        (decide (8 ≤ k) && (resultBits f.result).getLsbD (k - 8))) := by
  simp only [statusWord, bit, BitVec.getLsbD_append, BitVec.getLsbD_ofBool, BitVec.getLsbD_zero]
  match k with
  | 0 | 1 | 2 | 3 | 4 | 5 | 6 | 7 => simp
  | k + 8 =>
    by_cases hk : k < 4
    · simp [hk]
    · simp [hk, BitVec.getLsbD_of_ge _ _ (not_lt.1 hk)]

/-- BUSY is 1 exactly when the sequencer is not idle (R37). -/
theorem State.busy_eq (s : State) : s.busy = (s.seq != .idle) := by
  unfold State.busy
  cases s.seq <;> rfl

/-- A word in two fields, as a number. -/
theorem toNat_append_eq {m n : Nat} (x : BitVec m) (y : BitVec n) : (x ++ y).toNat = x.toNat * 2 ^ n + y.toNat := by
  rw [BitVec.toNat_append, ← Nat.shiftLeft_add_eq_or_of_lt y.isLt, Nat.shiftLeft_eq]

/-- SEARCH as a number: LD from bit 0, LFD from bit 8, EXH at bit 16 (R30). -/
theorem searchWord_toNat (c : Cursor) : (searchWord c).toNat = c.ld.toNat + 2 ^ 8 * c.lfd.toNat + 2 ^ 16 * c.exh.toNat := by
  simp only [searchWord, bit, toNat_append_eq, BitVec.toNat_ofNat, BitVec.toNat_ofBool]
  omega

/-- INFO as a number, for the buffer sizes of R11 (R31). -/
theorem infoWord_toNat {p : Params} (h : p.wf) : (infoWord p).toNat = p.bufSize := by
  rw [infoWord, toNat_append_eq, BitVec.toNat_ofNat, BitVec.toNat_ofNat]
  omega

theorem byteWord_toNat (b : Byte) : (b.setWidth 32).toNat = b.toNat :=
  BitVec.toNat_setWidth_of_le (by decide)

/-! ## The two halves of a code -/

theorem romLow_toNat (c : RomCode) : (romLow c).toNat = c.toNat % 2 ^ 32 := by
  rw [romLow, BitVec.extractLsb'_toNat, Nat.shiftRight_zero]

theorem romHigh_toNat (c : RomCode) : (romHigh c).toNat = c.toNat / 2 ^ 32 := by
  have := c.isLt
  rw [romHigh, BitVec.extractLsb'_toNat, Nat.shiftRight_eq_div_pow]
  omega

/-- Settles O13: each offset has its register, whose word's bits are its fields. -/
theorem registersReadAsLaidOut : Obligations.RegistersReadAsLaidOut := fun s =>
  ⟨ctrlWord_getLsbD s.ctrl, rfl, fun k => s.busy_eq ▸ statusWord_getLsbD s.busy s.flags k, byteWord_toNat s.data, byteWord_toNat s.acc,
    romLow_toNat s.rom, romHigh_toNat s.rom, romLow_toNat s.cursor.srom, romHigh_toNat s.cursor.srom, searchWord_toNat s.cursor,
    fun h => infoWord_toNat h, fun w _ hw hj => readAt_buf hw s ▸ wordByte_bufWord s w hj⟩

/-- A code after a write of both halves, as a number (R64). -/
theorem setRomHalves_toNat (c : RomCode) (lo hi : Word) : (setRomHigh (setRomLow c lo) hi).toNat = hi.toNat * 2 ^ 32 + lo.toNat := by
  have hlow : romLow (setRomLow c lo) = lo := BitVec.extractLsb'_append_eq_right
  rw [setRomHigh, hlow, toNat_append_eq]

/-- The same position by position (R13). -/
theorem rombit_setRomHalves (c : RomCode) (lo hi : Word) {k : Nat} (hk : 1 ≤ k) (hk64 : k ≤ 64) :
    rombit (setRomHigh (setRomLow c lo) hi) k = if k ≤ 32 then lo.getLsbD (k - 1) else hi.getLsbD (k - 33) := by
  rw [rombit, setRomHigh_getLsbD, setRomLow_getLsbD _ _ (by omega)]
  by_cases h : k ≤ 32
  · rw [if_pos h, if_pos (by omega), if_pos (by omega)]
  · rw [if_neg h, if_neg (by omega), Nat.sub_sub]

/-- Position `k` lies in byte `(k - 1) / 8` of the code (R13, R64). -/
theorem rombit_eq_romByte (c : RomCode) (k : Nat) : rombit c k = (romByte c ((k - 1) / 8)).getLsbD ((k - 1) % 8) := by
  rw [romByte_getLsbD _ _ _ (Nat.mod_lt _ (by decide)), Nat.div_add_mod]
  rfl

/-- Settles O18: each half's write replaces its four bytes. -/
theorem romHalvesMakeOneCode : Obligations.RomHalvesMakeOneCode := fun s lo hi =>
  ⟨setRomHalves_toNat s.rom lo hi, setRomHalves_toNat s.cursor.srom lo hi, fun k hk hk64 =>
    ⟨rombit_setRomHalves s.rom lo hi hk hk64, rombit_eq_romByte _ k⟩⟩

/-! ## Addresses -/

theorem windowOffset_eq_some {addr off : Nat} : windowOffset addr = some off ↔ off < 0x200 ∧ hostAddress off = addr := by
  unfold windowOffset hostAddress
  split_ifs with h
  · rw [Option.some.injEq]
    omega
  · simp only [false_iff]
    omega

/-- Settles O19: an offset of the window and its address determine each other. -/
theorem windowOffsetsAreAddresses : Obligations.WindowOffsetsAreAddresses :=
  ⟨fun _ h => windowOffset_eq_some.2 ⟨h, rfl⟩, fun _ _ => windowOffset_eq_some.1⟩

end Sys2Proof.Machine
end

section
/-! PROOF. The CRC table (41_crc8.md): an entry is eight steps of the linear map by which a bit-serial step changes the exclusive or of
accumulator and byte (R160 to R162, R167). -/

namespace Sys2Proof.Machine

/-- What one bit of R160 does to the exclusive or of the accumulator and the rest of the byte. -/
def crcShift (x : Byte) : Byte := x >>> 1 ^^^ if x.getLsbD 0 then 0x8C else 0

/-- Eight bits of it. -/
def crcShift8 (x : Byte) : Byte := Nat.repeat crcShift 8 x

/-- R162: the table's entries. -/
theorem crcTable_getD_fin : ∀ i : Fin 256, crcTable.getD i 0 = crcShift8 (BitVec.ofFin i) := by decide +kernel

theorem crcTable_getD (x : Byte) : crcTable.getD x.toNat 0 = crcShift8 x := crcTable_getD_fin x.toFin

/-- A bit-serial step keeps the pair's exclusive or at `crcShift` of what it was. -/
theorem crc8BitStep_xor (p : Byte × Byte) : (crc8BitStep p).1 ^^^ (crc8BitStep p).2 = crcShift (p.1 ^^^ p.2) := by
  unfold crc8BitStep crcShift
  rw [BitVec.getLsbD_xor, BitVec.ushiftRight_xor_distrib]
  cases p.1.getLsbD 0 ^^ p.2.getLsbD 0
  · simp
  · simp only [if_true]
    ac_rfl

theorem repeat_crc8BitStep_xor (n : Nat) (p : Byte × Byte) :
    (Nat.repeat crc8BitStep n p).1 ^^^ (Nat.repeat crc8BitStep n p).2 = Nat.repeat crcShift n (p.1 ^^^ p.2) := by
  induction n with
  | zero => rfl
  | succ n ih => rw [Nat.repeat, crc8BitStep_xor, ih, Nat.repeat]

/-- Each bit-serial step shifts one bit out of the byte. -/
theorem repeat_crc8BitStep_snd (n : Nat) (p : Byte × Byte) : (Nat.repeat crc8BitStep n p).2 = p.2 >>> n := by
  induction n with
  | zero => rfl
  | succ n ih => rw [Nat.repeat, crc8BitStep, ih, BitVec.shiftRight_add]

/-- The bit-serial CRC of one byte, which is shifted out in the end (R160). -/
theorem crc8Bitwise_eq (acc b : Byte) : crc8Bitwise acc b = crcShift8 (acc ^^^ b) := by
  have hx := repeat_crc8BitStep_xor 8 (acc, b)
  rw [repeat_crc8BitStep_snd, BitVec.ushiftRight_eq_zero (Nat.le_refl 8), BitVec.xor_zero] at hx
  exact hx

/-- Settles O43: both are eight shifts of the exclusive or of accumulator and byte. -/
theorem crcTableStepIsBitSerial : Obligations.CrcTableStepIsBitSerial := fun acc b =>
  ⟨rfl, (crcTable_getD (acc ^^^ b)).trans (crc8Bitwise_eq acc b).symm⟩

/-! ## Linearity -/

theorem crcShift_xor (x y : Byte) : crcShift (x ^^^ y) = crcShift x ^^^ crcShift y := by
  unfold crcShift
  rw [BitVec.getLsbD_xor, BitVec.ushiftRight_xor_distrib]
  have hbit : ∀ a b : Bool, (if a ^^ b then (0x8C : Byte) else 0) = (if a then 0x8C else 0) ^^^ (if b then 0x8C else 0) := by decide
  rw [hbit]
  ac_rfl

theorem crcShift8_xor (x y : Byte) : crcShift8 (x ^^^ y) = crcShift8 x ^^^ crcShift8 y := by
  simp only [crcShift8, Nat.repeat, crcShift_xor]

/-- The exclusive or of a byte's set bits. -/
def xorSetBits (i : Byte) : Byte := (List.range 8).foldl (fun x j => if i.getLsbD j then x ^^^ BitVec.twoPow 8 j else x) 0

theorem xorSetBits_fin : ∀ i : Fin 256, xorSetBits (BitVec.ofFin i) = BitVec.ofFin i := by decide +kernel

theorem xorSetBits_eq (i : Byte) : xorSetBits i = i := xorSetBits_fin i.toFin

/-- A linear map of a byte is the exclusive or of its values on the byte's set bits (R167). -/
theorem crcShift8_eq_foldl (i : Byte) :
    crcShift8 i = (List.range 8).foldl (fun x j => if i.getLsbD j then x ^^^ crcShift8 (BitVec.twoPow 8 j) else x) 0 := by
  conv_lhs => rw [← xorSetBits_eq i]
  refine (List.foldl_hom crcShift8 (init := 0) fun x j => ?_).symm
  split
  · rw [crcShift8_xor]
  · rfl

/-- Settles O45: the entry is linear in its index, as a shift is; the eight basis values are evaluated. -/
theorem crcTableIsLinear : Obligations.CrcTableIsLinear := by
  unfold Obligations.CrcTableIsLinear
  simp only [crcTable_getD]
  exact ⟨crcShift8_xor, crcShift8_eq_foldl, by decide⟩

end Sys2Proof.Machine
end


section
/-! PROOF. A ROM code's bytes as numbers (R181), and its text (R185), from which each byte is read back. -/

namespace Sys2Proof.Machine

/-! ## The accessors -/

theorem romByte_toNat (c : RomCode) (j : Nat) : (romByte c j).toNat = c.toNat / 2 ^ (8 * j) % 2 ^ 8 := by
  rw [romByte, BitVec.extractLsb'_toNat, Nat.shiftRight_eq_div_pow]

/-- Bytes `k` to `k + n - 1` of a code make the number of those bits, byte `k` least significant. -/
theorem sum_romByte (c : RomCode) (k n : Nat) :
    ((List.range n).map fun j => (romByte c (j + k)).toNat * 2 ^ (8 * j)).sum = c.toNat / 2 ^ (8 * k) % 2 ^ (8 * n) := by
  induction n with
  | zero => simp [Nat.mod_one]
  | succ n ih =>
    rw [List.range_succ, List.map_append, List.sum_append, ih, List.map_singleton, List.sum_singleton, romByte_toNat]
    have hdiv : c.toNat / 2 ^ (8 * (n + k)) = c.toNat / 2 ^ (8 * k) / 2 ^ (8 * n) := by
      rw [Nat.div_div_eq_div_mul, ← Nat.pow_add]
      congr 2
      omega
    rw [hdiv, Nat.mul_succ, Nat.pow_add, Nat.mod_mul, Nat.mul_comm (2 ^ (8 * n))]

/-- Settles O48: the fields are the bytes named, and both numbers are those of their bytes. -/
theorem romAccessorsReadTheFields : Obligations.RomAccessorsReadTheFields := by
  intro c
  refine ⟨rfl, rfl, ?_, ?_⟩
  · rw [sum_romByte, romSerial, BitVec.extractLsb'_toNat, Nat.shiftRight_eq_div_pow]
  · exact ((sum_romByte c 0 8).trans (by rw [Nat.mul_zero, Nat.pow_zero, Nat.div_one, Nat.mod_eq_of_lt c.isLt])).symm

/-! ## The text -/

theorem romTextChars_length (c : RomCode) : (romTextChars c).length = 16 := rfl

/-- The digits of byte `j` stand at `2j` and `2j + 1`, high nibble first. -/
theorem romTextChars_getElem? (c : RomCode) {j : Nat} (hj : j < 8) :
    (romTextChars c)[2 * j]? = some (hexDigit ((romByte c j).toNat / 16)) ∧
      (romTextChars c)[2 * j + 1]? = some (hexDigit ((romByte c j).toNat % 16)) := by
  interval_cases j <;> exact ⟨rfl, rfl⟩

/-- Different nibbles have different digits. -/
theorem hexDigit_injective : ∀ m n : Fin 16, hexDigit m = hexDigit n → m = n := by decide

/-- The two digits of a byte determine it. -/
theorem eq_of_hexDigits {x y : Byte} (hhi : hexDigit (x.toNat / 16) = hexDigit (y.toNat / 16))
    (hlo : hexDigit (x.toNat % 16) = hexDigit (y.toNat % 16)) : x = y := by
  have hx := x.isLt
  have hy := y.isLt
  have h1 := Fin.val_eq_of_eq (hexDigit_injective ⟨x.toNat / 16, by omega⟩ ⟨y.toNat / 16, by omega⟩ hhi)
  have h2 := Fin.val_eq_of_eq (hexDigit_injective ⟨x.toNat % 16, by omega⟩ ⟨y.toNat % 16, by omega⟩ hlo)
  exact BitVec.eq_of_toNat_eq (by dsimp only at h1 h2; omega)

/-- A code is determined by its eight bytes. -/
theorem eq_of_romByte_eq {c d : RomCode} (h : ∀ j, j < 8 → romByte c j = romByte d j) : c = d := by
  have hb : romBytes c = romBytes d := List.map_congr_left (l := List.range 8) fun j hj => h j (List.mem_range.1 hj)
  rw [← romOfBytes_romBytes c, hb, romOfBytes_romBytes]

/-- Settles O50: each byte has its two digits in the text, which determine it, and the bytes determine the code. -/
theorem romTextDeterminesTheCode : Obligations.RomTextDeterminesTheCode := by
  refine ⟨fun c => ⟨romTextChars_length c, fun j hj => romTextChars_getElem? c hj⟩, fun c d h => eq_of_romByte_eq fun j hj => ?_⟩
  have hchars : romTextChars c = romTextChars d := String.ofList_injective h
  obtain ⟨hchi, hclo⟩ := romTextChars_getElem? c hj
  obtain ⟨hdhi, hdlo⟩ := romTextChars_getElem? d hj
  rw [hchars] at hchi hclo
  exact eq_of_hexDigits (Option.some.inj (hchi.symm.trans hdhi)) (Option.some.inj (hclo.symm.trans hdlo))

end Sys2Proof.Machine
end

section
/-! PROOF. What every command comes to that no reset cuts and no look stops: the bus trace, the registers it writes and its result, for
all commands at once (`traceOf`, `writtenBy`, `codeOf`). From these follow which command writes which register
(10_state.md section 2) and which can report which code (60_exceptions.md section 1). -/

namespace Sys2Proof.Machine

/-! ## A run that has come to its end -/

theorem Ran.andThen_eq_ok {α β : Type} {r : Ran α} {f : α → State → Ran β} {b : β} {t : State} (h : r.andThen f = .ok b t) :
    ∃ a u, r = .ok a u ∧ f a u = .ok b t := by
  cases r with
  | ok a u => exact ⟨a, u, rfl, h⟩
  | cut u => cases h
  | stopped u => cases h

theorem Ran.Yields.during {α : Type} {s t : State} {tr : List Expect} {a b : α} {r : Ran α} (h : r.Yields s tr a) (hr : r = .ok b t) :
    During s tr t := by
  subst hr
  exact h.2

theorem Ran.Ends.endsAs {s t u : State} {tr : List Expect} {r : Ran Unit} (h : r.Ends s tr u) (hr : r = .ok () t) :
    EndsAs s tr u t ∧ t.buf = u.buf := by
  subst hr
  exact h

/-- With no reset landed and no look to come, a run has come to its end. -/
theorem Ran.Leaves.eq_ok {s t : State} {Q P : State → Prop} {r : Ran Unit} (h : r.Leaves s Q P) (hl : s.noLook)
    (hn : r.outcome = .next t) (hr : t.env.resets = s.env.resets) : r = .ok () t := by
  cases r with
  | ok _ u =>
    cases hn
    rfl
  | cut u =>
    cases hn
    have hc : t.env.resets = s.env.resets + 1 := CutFrom.resets h
    omega
  | stopped u => exact absurd hl h.1.look_to_come

/-- Such a command has passed its first point, and is refused by its checks or runs its body (R243). -/
theorem exec_run {i : Instr} {s t : State} (hl : s.noLook) (h : exec i s = .next t) (hr : t.env.resets = s.env.resets) :
    ∃ u, During s [] u ∧ (∀ code, prologue i s = some code → finish code u = .ok () t) ∧
      (prologue i s = none → bodyOf i u = .ok () t) := by
  have hpt : (point (s.stand .checks)).Yields s [] () := Ran.Yields.of_hidden (point_yields _)
  have hk : (point (s.stand .checks)).Keeps s Any (StandsIn i) :=
    Ran.Keeps.of_hidden ((point_keeps (s.stand .checks)).mono (fun _ _ => trivial) fun _ h => standsIn_checks i h.2.2 h.2.1)
  obtain ⟨_, u, hu, hb⟩ := Ran.andThen_eq_ok (hk.checked.eq_ok hl (exec_eq i s ▸ h) hr)
  have hsu : During s [] u := hpt.during hu
  rw [prologue_during hsu] at hb
  refine ⟨u, hsu, fun code hp => ?_, fun hp => ?_⟩
  · rwa [hp] at hb
  · rwa [hp] at hb

/-! ## Trace, registers and result of every command past its checks -/

/-- PRESENT as the bus reset of a command leaves it (R116). -/
def State.presenceToCome (s : State) : Bool := !s.upcoming 0 && s.upcoming 1

/-- The code that READ_ROM reads (R186): the 64 levels after the reset's two. -/
def State.codeToCome (s : State) : RomCode := romOfBytes (s.levelBytes 2 8)

/-- READ_ROM's CRC check fails (R186). -/
def State.codeRefused (s : State) : Bool := s.ctrl.crcEn && crc8Bytes 0 (romBytes s.codeToCome) != 0

/-- The cursor that a command's search pass starts from (R210 to R212). -/
def searchStart (i : Instr) (s : State) : Cursor :=
  match i with
  | .searchFirst => .fresh 0
  | .searchNext => s.cursor
  | _ => verifyCursor s.rom

/-- A command's search pass over the levels to come (R202). -/
def searchPass (i : Instr) (s : State) : (ResultCode × Cursor) × List Expect := walkPass s.cfg s.upcoming (searchStart i s)

/-- The bus trace of a command past its checks. -/
def traceOf (i : Instr) (s : State) : List Expect :=
  match i with
  | .reset => resetTrace s.cfg.timing (s.upcoming 0) (s.upcoming 1)
  | .writeBit b => writeBitTrace s.cfg.timing b
  | .readBit => readBitTrace s.cfg.timing (s.upcoming 0)
  | .writeByte v => writeBitsTrace s.cfg.timing (byteBits v)
  | .readByte => readBitsTrace s.cfg.timing (s.levels 0 8)
  | .writeBlock n => writeBytesTrace s.cfg.timing ((List.range n.toNat).map fun j => s.bufByte j)
  | .readBlock n => readBitsTrace s.cfg.timing (s.levels 0 (8 * n.toNat))
  | .writeRomCode => writeBytesTrace s.cfg.timing (romBytes s.rom)
  | .readRom =>
    if s.presenceToCome then
      resetTrace s.cfg.timing (s.upcoming 0) (s.upcoming 1) ++ writeBytesTrace s.cfg.timing [s.cfg.cmdReadRom] ++
        readBitsTrace s.cfg.timing (s.levels 2 64)
    else resetTrace s.cfg.timing (s.upcoming 0) (s.upcoming 1)
  | .searchFirst | .searchNext | .verifyRom => (searchPass i s).2
  | .crc8Step _ | .crc8Block _ => []

/-- The result of a command past its checks. -/
def codeOf (i : Instr) (s : State) : ResultCode :=
  match i with
  | .reset => if s.presenceToCome then .ok else .notPresent
  | .readRom => if !s.presenceToCome then .notPresent else if s.codeRefused then .crcMismatch else .ok
  | .searchFirst | .searchNext => (searchPass i s).1.1
  | .verifyRom => verifyResult s.rom (searchPass i s).1
  | _ => .ok

/-- The registers that a command past its checks writes before it completes, but for READ_BLOCK's BUF. -/
def writtenBy (i : Instr) (s : State) : State :=
  match i with
  | .reset => s.setPresent s.presenceToCome
  | .readBit => s.setData (if s.upcoming 0 then 1 else 0)
  | .readByte => s.setData (byteOfBits (s.levels 0 8))
  | .readRom => (s.setPresent s.presenceToCome).setRom (if codeOf i s = .ok then s.codeToCome else 0)
  | .searchFirst | .searchNext => (s.passed .registers (searchStart i s)).setFound (codeOf i s == .ok)
  | .verifyRom => (s.passed .own (searchStart i s)).setFound (codeOf i s == .ok)
  | .crc8Step b => s.setAcc (crc8 s.acc b)
  | .crc8Block n => s.setAcc (crc8Bytes s.acc ((List.range n.toNat).map fun j => s.bufByte j))
  | _ => s

theorem writtenBy_buf (i : Instr) (s : State) : (writtenBy i s).buf = s.buf := by
  cases i <;> rfl

theorem writtenBy_cfg (i : Instr) (s : State) : (writtenBy i s).cfg = s.cfg := by
  cases i <;> rfl

/-- Levels that READ_ROM reads are the bits of the code (R13, R123). -/
theorem State.codeToCome_getLsbD (s : State) {k : Nat} (hk : k < 64) : s.codeToCome.getLsbD k = s.upcoming (2 + k) := by
  have hi : k % 8 < 8 := Nat.mod_lt _ (by decide)
  have hj : k / 8 < 8 := by omega
  have hb : (s.levelBytes 2 8).getD (k / 8) 0 = byteOfBits (s.levels (2 + 8 * (k / 8)) 8) := by simp [State.levelBytes, hj]
  rw [← Nat.div_add_mod k 8, State.codeToCome, romOfBytes_getLsbD _ _ _ hi (by omega), hb, s.byteOfBits_levels_getLsbD _ hi, Nat.add_assoc]

/-- READ_ROM past its checks (R186). -/
theorem bodyReadRom_ends {s t : State} (ht : During s [] t) :
    (bodyReadRom t).Ends t (traceOf .readRom s) ((writtenBy .readRom s).complete (codeOf .readRom s)) := by
  cases hp : s.presenceToCome with
  | false =>
    simp only [traceOf, writtenBy, codeOf, hp]
    exact bodyReadRom_absent_ends ht hp
  | true =>
    have h := bodyReadRom_present_ends ht hp fun k hk => s.codeToCome_getLsbD hk
    have hrom : (s.setPresent true).romRead s.codeToCome =
        ((s.setPresent true).setRom (if (if s.codeRefused then ResultCode.crcMismatch else .ok) = .ok then s.codeToCome else 0)).complete
          (if s.codeRefused then .crcMismatch else .ok) := by
      show (if s.codeRefused = true then _ else _) = _
      cases s.codeRefused <;> rfl
    rw [hrom] at h
    simp only [traceOf, writtenBy, codeOf, hp]
    exact h

/-- The checks let no block pass that is longer than BUF (R243). -/
theorem blockLength_le_of_prologue {i : Instr} {s : State} {n : Half} (h : prologue i s = none) (hn : blockLength i = some n) :
    n.toNat ≤ s.cfg.bufSize := by
  by_contra hlt
  rw [prologue_of_too_long hn (not_le.1 hlt)] at h
  cases h

/-- READ_BLOCK past its checks (R151): BUF below the length is written. -/
theorem bodyReadBlock_endsAs {s t u : State} {n : Half} (ht : During s [] t) (hn : n.toNat ≤ s.cfg.bufSize)
    (h : bodyReadBlock n t = .ok () u) :
    EndsAs s (readBitsTrace s.cfg.timing (s.levels 0 (8 * n.toNat))) (s.complete .ok) u ∧
      ∀ a, n.toNat ≤ a → u.bufByte a = s.bufByte a := by
  obtain ⟨_, v, hv, hf⟩ := Ran.andThen_eq_ok h
  have hspec := readBuf_spec n.toNat 0 t (by rw [ht.cfg]; omega)
  rw [hv] at hspec
  obtain ⟨hd, -, hbuf⟩ := hspec
  have hsv := (ht.withBuf v.buf).trans hd
  rw [List.nil_append, ht.cfg, ht.levels_first] at hsv
  have hends : (finishOk () v).Ends s _ (State.complete { s with buf := v.buf } .ok) :=
    ((finish_ends_of_during hsv .ok).after hsv).of_written ⟨rfl, rfl, rfl, rfl, rfl, rfl⟩ rfl rfl
  obtain ⟨he, hb⟩ := hends.endsAs hf
  rw [List.append_nil] at he
  refine ⟨{ he with }, fun a ha => ?_⟩
  rw [State.bufByte_congr (s := v) hb (he.cfg.trans hsv.cfg.symm) (he.resets.trans hsv.resets.symm), hbuf, if_neg (by omega), ht.bufByte]

/-- Every other command's body, from the state that its first point leaves. -/
theorem bodyOf_ends {i : Instr} {s t : State} (ht : During s [] t) (hi : ∀ n, i ≠ .readBlock n) :
    (bodyOf i t).Ends t (traceOf i s) ((writtenBy i s).complete (codeOf i s)) := by
  cases i with
  | reset => exact bodyReset_ends ht
  | writeBit b => exact (ht.cfg ▸ writeBit_yields b t).andThen_finishOk ht
  | readBit =>
    have h := readBit_yields t
    rw [ht.cfg, ht.upcoming_first] at h
    exact h.andThen_last ht fun _ hu => finish_setData_ends_of_during hu _
  | writeByte v => exact (ht.cfg ▸ writeByte_yields v t).andThen_finishOk ht
  | readByte =>
    have h := readByte_yields t
    rw [ht.cfg, ht.levels_first] at h
    exact h.andThen_last ht fun _ hu => finish_setData_ends_of_during hu _
  | writeBlock n =>
    have h := writeBuf_yields n.toNat 0 t
    rw [ht.cfg, ht.bufBytes_zero] at h
    exact h.andThen_finishOk ht
  | readBlock n => exact absurd rfl (hi n)
  | writeRomCode =>
    have h := writeBytes_yields 0 (romBytes t.rom) t
    rw [ht.cfg, ht.rom] at h
    rw [bodyOf, bodyWriteRomCode, ht.rom]
    exact h.andThen_finishOk ht
  | readRom => exact bodyReadRom_ends ht
  | searchFirst => exact searchCommand_ends ht (.fresh 0)
  | searchNext =>
    have h := searchCommand_ends ht s.cursor
    have hc : t.setCursor s.cursor = t := ht.cursor ▸ rfl
    rw [hc] at h
    rw [bodyOf, bodySearchNext, ht.cursor]
    exact h
  | verifyRom => exact bodyVerifyRom_ends ht
  | crc8Step b =>
    rw [bodyOf, bodyCrc8Step, ht.acc]
    exact finish_setAcc_ends_of_during ht _
  | crc8Block n =>
    rw [bodyOf, bodyCrc8Block, ht.acc, ht.bufBytes_zero]
    exact finish_setAcc_ends_of_during ht _

/-- A command that its checks refuse (R243). -/
theorem exec_refused_ends {i : Instr} {s t : State} {code : ResultCode} (hl : s.noLook) (h : exec i s = .next t)
    (hr : t.env.resets = s.env.resets) (hp : prologue i s = some code) : EndsAs s [] (s.complete code) t ∧ SameBuf s t := by
  obtain ⟨u, hu, hrun, -⟩ := exec_run hl h hr
  obtain ⟨he, hb⟩ := ((finish_ends_of_during hu code).after hu).endsAs (hrun code hp)
  exact ⟨he, he.sameBuf hb rfl⟩

/-- A command that its checks let pass; BUF stays but below READ_BLOCK's length. -/
theorem exec_passed_ends {i : Instr} {s t : State} (hl : s.noLook) (h : exec i s = .next t) (hr : t.env.resets = s.env.resets)
    (hp : prologue i s = none) :
    EndsAs s (traceOf i s) ((writtenBy i s).complete (codeOf i s)) t ∧
      ∀ a, (∀ n, i = .readBlock n → n.toNat ≤ a) → t.bufByte a = s.bufByte a := by
  obtain ⟨u, hu, -, hrun⟩ := exec_run hl h hr
  by_cases hi : ∀ n, i ≠ .readBlock n
  · obtain ⟨he, hb⟩ := ((bodyOf_ends hu hi).after hu).endsAs (hrun hp)
    exact ⟨he, fun a _ => he.sameBuf (hb.trans (writtenBy_buf i s)) (writtenBy_cfg i s) a⟩
  · obtain ⟨n, rfl⟩ := not_forall_not.1 hi
    obtain ⟨he, hb⟩ := bodyReadBlock_endsAs hu (blockLength_le_of_prologue hp rfl) (hrun hp)
    exact ⟨he, fun a ha => hb a (ha n rfl)⟩

/-! ## Which command writes which register -/

/-- A command's registers past its checks, each with the commands that write it (R26 to R32, R34). -/
theorem writtenBy_frame (i : Instr) (s : State) :
    ((writtenBy i s).data ≠ s.data → i = .readBit ∨ i = .readByte) ∧
    ((writtenBy i s).acc ≠ s.acc → (∃ b, i = .crc8Step b) ∨ ∃ n, i = .crc8Block n) ∧
    ((writtenBy i s).rom ≠ s.rom → i = .readRom) ∧
    ((writtenBy i s).cursor ≠ s.cursor → i = .searchFirst ∨ i = .searchNext) ∧
    ((writtenBy i s).flags.present ≠ s.flags.present →
      i = .reset ∨ i = .readRom ∨ i = .searchFirst ∨ i = .searchNext ∨ i = .verifyRom) ∧
    ((writtenBy i s).flags.found ≠ s.flags.found → i = .searchFirst ∨ i = .searchNext ∨ i = .verifyRom) ∧
    (writtenBy i s).ctrl = s.ctrl ∧ (writtenBy i s).cmd = s.cmd := by
  cases i <;> simp [writtenBy, State.passed]

/-- Settles O30: a command that its checks refuse writes none of the registers, and past them it writes its own. -/
theorem onlyNamedCommandsWriteARegister : Obligations.OnlyNamedCommandsWriteARegister := by
  intro i s t hl h hr
  cases hp : prologue i s with
  | some code =>
    obtain ⟨he, hb⟩ := exec_refused_ends hl h hr hp
    exact ⟨absurd he.data, absurd he.acc, absurd he.rom, absurd he.cursor, fun a => absurd (hb a), absurd he.present, absurd he.found,
      he.ctrl, he.cmd⟩
  | none =>
    obtain ⟨he, hb⟩ := exec_passed_ends hl h hr hp
    obtain ⟨hdata, hacc, hrom, hcursor, hpresent, hfound, hctrl, hcmd⟩ := writtenBy_frame i s
    refine ⟨he.data ▸ hdata, he.acc ▸ hacc, he.rom ▸ hrom, he.cursor ▸ hcursor, fun a ha => ?_, he.present ▸ hpresent,
      he.found ▸ hfound, he.ctrl.trans hctrl, he.cmd.trans hcmd⟩
    by_contra hn
    refine ha (hb a fun n hi => ?_)
    by_contra hlt
    exact hn ⟨n, hi, not_le.1 hlt⟩

/-! ## Which command reports which code -/

/-- The codes that a pass can come to (R204 to R208). -/
theorem walkPass_code (cfg : Params) (lv : Nat → Bool) (c : Cursor) :
    (walkPass cfg lv c).1.1 = .ok ∨ (walkPass cfg lv c).1.1 = .notPresent ∨ (walkPass cfg lv c).1.1 = .crcMismatch ∨
      (walkPass cfg lv c).1.1 = .notFound := by
  unfold walkPass searchEnd searchFail
  dsimp only
  split_ifs <;> simp

/-- VERIFY_ROM's compare adds NOT_FOUND to the codes of its pass (R212). -/
theorem verifyResult_code (rom : RomCode) (r : ResultCode × Cursor) : verifyResult rom r = .notFound ∨ verifyResult rom r = r.1 := by
  unfold verifyResult
  split
  · exact .inl rfl
  · exact .inr rfl

/-- The commands that run a search pass. -/
abbrev IsSearch (i : Instr) : Prop := i = .searchFirst ∨ i = .searchNext ∨ i = .verifyRom

theorem codeOf_search {i : Instr} (hi : IsSearch i) (s : State) :
    codeOf i s = .ok ∨ codeOf i s = .notPresent ∨ codeOf i s = .crcMismatch ∨ codeOf i s = .notFound := by
  have hpass := walkPass_code s.cfg s.upcoming (searchStart i s)
  obtain rfl | rfl | rfl := hi
  · exact hpass
  · exact hpass
  · obtain h | h := verifyResult_code s.rom (searchPass .verifyRom s).1
    · exact .inr (.inr (.inr h))
    · rw [show codeOf .verifyRom s = _ from h]
      exact hpass

/-- The result of a command past its checks, with the commands that report it (R241). -/
theorem codeOf_cases (i : Instr) (s : State) :
    codeOf i s = .ok ∨ (codeOf i s = .notPresent ∧ (i = .reset ∨ i = .readRom ∨ IsSearch i)) ∨
      (codeOf i s = .crcMismatch ∧ ((i = .readRom ∧ s.ctrl.crcEn = true) ∨ IsSearch i)) ∨ (codeOf i s = .notFound ∧ IsSearch i) := by
  by_cases hi : IsSearch i
  · obtain h | h | h | h := codeOf_search hi s
    · exact .inl h
    · exact .inr (.inl ⟨h, .inr (.inr hi)⟩)
    · exact .inr (.inr (.inl ⟨h, .inr hi⟩))
    · exact .inr (.inr (.inr ⟨h, hi⟩))
  cases i with
  | reset =>
    rw [codeOf]
    split
    · exact .inl rfl
    · exact .inr (.inl ⟨rfl, .inl rfl⟩)
  | readRom =>
    rw [codeOf]
    split
    · exact .inr (.inl ⟨rfl, .inr (.inl rfl)⟩)
    · split
      · next h => exact .inr (.inr (.inl ⟨rfl, .inl ⟨rfl, (Bool.and_eq_true_iff.1 h).1⟩⟩))
      · exact .inl rfl
  | searchFirst => exact absurd (.inl rfl) hi
  | searchNext => exact absurd (.inr (.inl rfl)) hi
  | verifyRom => exact absurd (.inr (.inr rfl)) hi
  | _ => exact .inl rfl

/-- The one code of the checks, with its causes (R242, R243). -/
theorem prologue_cases {i : Instr} {s : State} {code : ResultCode} (h : prologue i s = some code) :
    code = .invalidArgument ∧ ((i.opcode.toNat ≤ 0x0C ∧ s.ctrl.en = false) ∨
      ∃ n : Half, s.cfg.bufSize < n.toNat ∧ blockLength i = some n) := by
  unfold prologue at h
  split at h
  · next hbus =>
    obtain ⟨hb, he⟩ := Bool.and_eq_true_iff.1 hbus
    exact ⟨(Option.some.inj h).symm, .inl ⟨(of_decide_eq_true hb).2, by simpa using he⟩⟩
  · split at h
    · next n hn =>
      split at h
      · next hlt => exact ⟨(Option.some.inj h).symm, .inr ⟨n, hlt, hn⟩⟩
      · cases h
    · cases h

/-- The commands that check a length (R243). -/
theorem blockLength_eq_some {i : Instr} {n : Half} : blockLength i = some n ↔ i = .writeBlock n ∨ i = .readBlock n ∨ i = .crc8Block n := by
  cases i <;> simp [blockLength]

/-- Settles O31: the checks report INVALID_ARGUMENT for their causes, and past them each code has its commands. -/
theorem resultCodesHaveTheirRaisers : Obligations.ResultCodesHaveTheirRaisers := by
  intro i s t hl h hr
  cases hp : prologue i s with
  | some code =>
    obtain ⟨he, -⟩ := exec_refused_ends hl h hr hp
    obtain ⟨rfl, hcause⟩ := prologue_cases hp
    rw [he.result]
    simp only [blockLength_eq_some] at hcause
    exact hcause
  | none =>
    obtain ⟨he, -⟩ := exec_passed_ends hl h hr hp
    have hres : t.flags.result = codeOf i s := he.result
    rw [hres]
    obtain hc | ⟨hc, hi⟩ | ⟨hc, hi⟩ | ⟨hc, hi⟩ := codeOf_cases i s <;> rw [hc]
    · trivial
    all_goals exact hi

end Sys2Proof.Machine
end

section
/-! PROOF. OVR (R25, R34): only a write of STATUS to an idle engine and a hardware reset clear it. -/

namespace Sys2Proof.Machine

/-- A write of a register other than STATUS leaves OVR (R63). -/
theorem writeReg_ovr {r : Reg} (hr : r ≠ .status) (v : Word) (s : State) : (writeReg r v s).flags.ovr = s.flags.ovr := by
  cases r with
  | status => exact absurd rfl hr
  | buf w => exact congrArg Flags.ovr (s.setBufWord_flags w v)
  | _ => rfl

/-- A write that clears OVR is one of 1 to bit 2 of STATUS (R25, R63). -/
theorem writeAt_clears_ovr {off : Nat} {v : Word} {s : State} (hs : s.flags.ovr = true) (ht : (writeAt off v s).flags.ovr = false) :
    off = 0x008 ∧ v.getLsbD 2 = true := by
  have hoff : off = 0x008 := by
    by_contra hne
    refine Bool.false_ne_true (ht.symm.trans (Eq.trans ?_ hs))
    unfold writeAt
    split
    · next r hr => exact writeReg_ovr (fun h => hne ((regAt_status off).1 (h ▸ hr))) v s
    · rfl
  subst hoff
  have hw : (s.flags.ovr && !v.getLsbD 2) = false := ht
  exact ⟨rfl, by simpa [hs] using hw⟩

/-- A step of the idle engine that clears OVR takes such a write or the reset input. -/
theorem hostStep_clears_ovr {s t : State} (h : hostStep s = .next t) (hs : s.flags.ovr = true) (ht : t.flags.ovr = false) :
    t.env.resets = s.env.resets + 1 ∨ ∃ a v rest, s.env.host = ⟨a, .write 0x008 4 v⟩ :: rest ∧ v.getLsbD 2 = true := by
  unfold hostStep at h
  split at h
  · cases h
    exact absurd (hs.symm.trans ht) (by decide)
  · next r rest hh =>
    obtain ⟨a, op⟩ := r
    cases op with
    | reset =>
      cases h
      exact .inl rfl
    | write off size v =>
      dsimp only at h
      split at h
      · next hadm =>
        cases h
        obtain ⟨rfl, hv⟩ := writeAt_clears_ovr (s := s.setHost rest) hs ht
        obtain ⟨rfl, -⟩ := of_decide_eq_true hadm
        exact .inr ⟨a, v, rest, hh, hv⟩
      · cases h
    | read off size =>
      dsimp only at h
      split at h <;> cases h
      exact absurd (hs.symm.trans ht) (by decide)
    | poll last =>
      cases h
      exact absurd (hs.symm.trans ht) (by decide)
    | look n =>
      cases h
      exact absurd (hs.symm.trans ht) (by decide)

/-- The accesses that land in a running command leave OVR set. -/
theorem Took.ovr {s t : State} {l : List HostReq} {o : Bool} (h : Took s l o t) (hs : s.flags.ovr = true) : o = true := by
  obtain ⟨vs, hv, -⟩ := h
  exact hv.ovr hs

/-- Settles O32: an idle engine's step clears OVR by a write of STATUS or a reset, and a running command's only by a reset. -/
theorem overrunStaysUntilCleared : Obligations.OverrunStaysUntilCleared := by
  intro s t h hs ht
  cases hw : s.seq with
  | idle => exact (hostStep_clears_ovr (step_idle hw ▸ h) hs ht).imp_right fun hv => ⟨rfl, hv⟩
  | run w =>
    obtain ⟨r, hl, hn⟩ := step_run_leaves hw h
    cases r with
    | ok _ u =>
      cases hn
      obtain ⟨l, -, htook⟩ := hl.1.took
      exact absurd ((htook.ovr hs).symm.trans ht) (by decide)
    | cut u =>
      cases hn
      exact .inl (CutFrom.resets hl)
    | stopped u =>
      cases hn
      obtain ⟨l, a, n, -, htook⟩ := hl.1.took
      exact absurd ((htook.ovr hs).symm.trans ht) (by decide)

end Sys2Proof.Machine
end

section
/-! PROOF. Bus traces (40_bus_phy.md section 2, 70_reset_and_hazards.md section 4): in every command's trace a sample follows a release
phase (R112), and the phases last at least the nominal time (R155, R214, R290). -/

namespace Sys2Proof.Machine

/-! ## Samples follow releases -/

/-- In a stretch of the bus trace each sample has the pin released; `r` says whether it is so at the start. -/
def sampledReleased : Bool → List Expect → Bool
  | _, [] => true
  | r, .smp _ :: l => r && sampledReleased r l
  | _, .rel _ :: l => sampledReleased true l
  | _, .low _ :: l => sampledReleased false l

/-- A stretch that may begin with the pin low may begin with it released. -/
theorem sampledReleased_mono {l : List Expect} (h : sampledReleased false l = true) (r : Bool) : sampledReleased r l = true := by
  cases l with
  | nil => rfl
  | cons e l =>
    cases e with
    | smp v => cases h
    | _ => exact h

theorem sampledReleased_append {r : Bool} {l l' : List Expect} (h : sampledReleased r l = true) (h' : sampledReleased false l' = true) :
    sampledReleased r (l ++ l') = true := by
  induction l generalizing r with
  | nil => exact sampledReleased_mono h' r
  | cons e l ih =>
    cases e with
    | smp v =>
      obtain ⟨hr, hl⟩ := Bool.and_eq_true_iff.1 h
      exact Bool.and_eq_true_iff.2 ⟨hr, ih hl⟩
    | low d => exact ih h
    | rel d => exact ih h

theorem sampledReleased_flatMap {α : Type} {f : α → List Expect} (hf : ∀ a, sampledReleased false (f a) = true) (as : List α) :
    sampledReleased false (as.flatMap f) = true := by
  induction as with
  | nil => rfl
  | cons a as ih => exact sampledReleased_append (hf a) ih

theorem sampledReleased_resetTrace (tm : Timing) (a b : Bool) : sampledReleased false (resetTrace tm a b) = true := rfl

theorem sampledReleased_writeBitTrace (tm : Timing) (b : Bool) : sampledReleased false (writeBitTrace tm b) = true := by
  cases b <;> rfl

theorem sampledReleased_readBitTrace (tm : Timing) (v : Bool) : sampledReleased false (readBitTrace tm v) = true := rfl

theorem sampledReleased_writeBitsTrace (tm : Timing) (bs : List Bool) : sampledReleased false (writeBitsTrace tm bs) = true :=
  sampledReleased_flatMap (sampledReleased_writeBitTrace tm) bs

theorem sampledReleased_readBitsTrace (tm : Timing) (bs : List Bool) : sampledReleased false (readBitsTrace tm bs) = true :=
  sampledReleased_flatMap (sampledReleased_readBitTrace tm) bs

theorem sampledReleased_writeBytesTrace (tm : Timing) (vs : List Byte) : sampledReleased false (writeBytesTrace tm vs) = true :=
  sampledReleased_flatMap (fun v => sampledReleased_writeBitsTrace tm (byteBits v)) vs

theorem sampledReleased_walkBits (tm : Timing) (lv : Nat → Bool) (n k : Nat) (p : Pass) :
    sampledReleased false (walkBits tm lv n k p).2.2 = true := by
  induction n generalizing k p with
  | zero => rfl
  | succ n ih =>
    have hpair := sampledReleased_append (sampledReleased_readBitTrace tm (lv (2 * k))) (sampledReleased_readBitTrace tm (lv (2 * k + 1)))
    unfold walkBits
    dsimp only
    split
    · exact hpair
    · exact sampledReleased_append (sampledReleased_append hpair (sampledReleased_writeBitTrace tm _)) (ih _ _)

theorem sampledReleased_walkPass (cfg : Params) (lv : Nat → Bool) (c : Cursor) : sampledReleased false (walkPass cfg lv c).2 = true := by
  unfold walkPass
  split_ifs
  · rfl
  · exact sampledReleased_resetTrace ..
  · exact sampledReleased_append (sampledReleased_append (sampledReleased_resetTrace ..) (sampledReleased_writeBytesTrace ..))
      (sampledReleased_walkBits ..)

/-- R112 of every command's trace, as its rule gives it. -/
theorem sampledReleased_traceOf (i : Instr) (s : State) : sampledReleased false (traceOf i s) = true := by
  cases i with
  | reset => exact sampledReleased_resetTrace ..
  | writeBit b => exact sampledReleased_writeBitTrace ..
  | readBit => exact sampledReleased_readBitTrace ..
  | writeByte v => exact sampledReleased_writeBitsTrace ..
  | readByte => exact sampledReleased_readBitsTrace ..
  | writeBlock n => exact sampledReleased_writeBytesTrace ..
  | readBlock n => exact sampledReleased_readBitsTrace ..
  | writeRomCode => exact sampledReleased_writeBytesTrace ..
  | readRom =>
    rw [traceOf]
    split
    · exact sampledReleased_append (sampledReleased_append (sampledReleased_resetTrace ..) (sampledReleased_writeBytesTrace ..))
        (sampledReleased_readBitsTrace ..)
    · exact sampledReleased_resetTrace ..
  | searchFirst | searchNext | verifyRom => exact sampledReleased_walkPass ..
  | crc8Step b | crc8Block n => rfl

/-- Nothing but samples since a release phase. -/
def AfterRelease (es : List BusEvent) : Prop := ∃ first d more, es = first ++ .rel d :: more ∧ ∀ e ∈ more, ∃ x, e = .smp x

/-- A sample of a trace as the rule gives it: only samples come before it, where the pin was released at the start, or it comes after
a release. -/
theorem afterRelease_of_meets {r : Bool} {tr : List Expect} {before after : List BusEvent} {v : Bool}
    (hm : List.Forall₂ BusEvent.meets (before ++ .smp v :: after) tr) (h : sampledReleased r tr = true) :
    (r = true ∧ ∀ e ∈ before, ∃ x, e = .smp x) ∨ AfterRelease before := by
  induction before generalizing r tr with
  | nil =>
    obtain ⟨x, tr, hx, -, rfl⟩ := List.forall₂_cons_left_iff.1 hm
    cases x with
    | smp w => exact .inl ⟨(Bool.and_eq_true_iff.1 h).1, nofun⟩
    | _ => cases hx
  | cons e before ih =>
    obtain ⟨x, tr, hx, hrest, rfl⟩ := List.forall₂_cons_left_iff.1 hm
    have later : AfterRelease before → AfterRelease (e :: before) := fun ⟨first, d, more, hb, hmore⟩ =>
      ⟨e :: first, d, more, congrArg (e :: ·) hb, hmore⟩
    cases x with
    | smp w =>
      obtain ⟨hr, hl⟩ := Bool.and_eq_true_iff.1 h
      obtain ⟨-, hb⟩ | hb := ih hrest hl
      · cases e with
        | smp x => exact .inl ⟨hr, List.forall_mem_cons.2 ⟨⟨x, rfl⟩, hb⟩⟩
        | _ => cases hx
      · exact .inr (later hb)
    | rel t =>
      obtain ⟨-, hb⟩ | hb := ih hrest h
      · cases e with
        | rel d => exact .inr ⟨[], d, before, rfl, hb⟩
        | _ => cases hx
      · exact .inr (later hb)
    | low t =>
      obtain ⟨hr, -⟩ | hb := ih hrest h
      · cases hr
      · exact .inr (later hb)

/-- The events that a command adds to the trace are as its rule says, or it has been refused and adds none. -/
theorem exec_events {i : Instr} {s t : State} {es : List BusEvent} (hs : s.unbroken) (h : exec i s = .next t)
    (ht : t.env.trace = s.env.trace ++ es) :
    (prologue i s ≠ none ∧ es = []) ∨ (prologue i s = none ∧ List.Forall₂ BusEvent.meets es (traceOf i s)) := by
  have hr := (exec_completed hs h).resets
  cases hp : prologue i s with
  | some code =>
    obtain ⟨he, -⟩ := exec_refused_ends hs.2 h hr hp
    obtain ⟨es', htr, hm⟩ := he.trace
    obtain rfl := List.append_cancel_left (ht.symm.trans htr)
    exact .inl ⟨nofun, List.forall₂_nil_right_iff.1 hm⟩
  | none =>
    obtain ⟨he, -⟩ := exec_passed_ends hs.2 h hr hp
    obtain ⟨es', htr, hm⟩ := he.trace
    obtain rfl := List.append_cancel_left (ht.symm.trans htr)
    exact .inr ⟨rfl, hm⟩

/-- Settles O41: every command's trace has its samples after release phases, and the events are as the trace says. -/
theorem samplesAreTakenReleased : Obligations.SamplesAreTakenReleased := by
  intro i s t es hs h ht before after v hes
  subst hes
  obtain ⟨-, hnil⟩ | ⟨-, hm⟩ := exec_events hs h ht
  · simp at hnil
  · exact (afterRelease_of_meets hm (sampledReleased_traceOf i s)).resolve_left fun hr => Bool.false_ne_true hr.1

/-! ## Nominal times -/

/-- The least ticks that a rule gives an event. -/
def Expect.leastTicks : Expect → Nat
  | .low t => t
  | .rel t => t
  | .smp _ => 0

/-- The least bus time of a trace. -/
def leastTime (tr : List Expect) : Nat := (tr.map Expect.leastTicks).sum

theorem leastTime_append (a b : List Expect) : leastTime (a ++ b) = leastTime a + leastTime b := by
  simp [leastTime]

theorem leastTicks_le_of_meets {e : BusEvent} {x : Expect} (h : e.meets x) : x.leastTicks ≤ e.ticks := by
  cases e <;> cases x
  case low.low | rel.rel => exact h
  case smp.smp => exact Nat.zero_le _
  all_goals cases h

theorem leastTime_le_busTime {es : List BusEvent} {tr : List Expect} (h : List.Forall₂ BusEvent.meets es tr) :
    leastTime tr ≤ busTime es := by
  induction h with
  | nil => exact Nat.zero_le _
  | cons hx _ ih =>
    simp only [leastTime, busTime, List.map_cons, List.sum_cons] at ih ⊢
    exact Nat.add_le_add (leastTicks_le_of_meets hx) ih

/-- The same stretch for each element of a list takes the same least time for each. -/
theorem leastTime_flatMap {α : Type} {f : α → List Expect} {n : Nat} (hf : ∀ a, leastTime (f a) = n) (as : List α) :
    leastTime (as.flatMap f) = n * as.length := by
  induction as with
  | nil => rfl
  | cons a as ih => rw [List.flatMap_cons, leastTime_append, hf, ih, List.length_cons, Nat.mul_succ, Nat.add_comm]

theorem leastTime_resetTrace (a b : Bool) : leastTime (resetTrace .standard a b) = 3840 := by
  simp [leastTime, Expect.leastTicks, resetTrace, Timing.standard]

theorem leastTime_writeBitTrace (b : Bool) : leastTime (writeBitTrace .standard b) = 280 := by
  cases b <;> simp [leastTime, Expect.leastTicks, writeBitTrace, Timing.standard]

theorem leastTime_readBitTrace (v : Bool) : leastTime (readBitTrace .standard v) = 280 := by
  simp [leastTime, Expect.leastTicks, readBitTrace, Timing.standard]

theorem leastTime_writeBitsTrace (bs : List Bool) : leastTime (writeBitsTrace .standard bs) = 280 * bs.length :=
  leastTime_flatMap leastTime_writeBitTrace bs

theorem leastTime_readBitsTrace (bs : List Bool) : leastTime (readBitsTrace .standard bs) = 280 * bs.length :=
  leastTime_flatMap leastTime_readBitTrace bs

theorem leastTime_writeBytesTrace (vs : List Byte) : leastTime (writeBytesTrace .standard vs) = 2240 * vs.length :=
  leastTime_flatMap (fun v => leastTime_writeBitsTrace (byteBits v)) vs

/-- The bit loop, when it reaches the end: three slots for each position. -/
theorem leastTime_walkBits {lv : Nat → Bool} {n k : Nat} {p : Pass} (h : (walkBits .standard lv n k p).1 = true) :
    leastTime (walkBits .standard lv n k p).2.2 = 840 * n := by
  induction n generalizing k p with
  | zero => rfl
  | succ n ih =>
    unfold walkBits at h ⊢
    dsimp only at h ⊢
    split at h
    · cases h
    · simp only [leastTime_append, leastTime_readBitTrace, leastTime_writeBitTrace, ih h]
      omega

/-- A pass that finds a device (R214). -/
theorem leastTime_walkPass {cfg : Params} {lv : Nat → Bool} {c : Cursor} (htm : cfg.timing = .standard)
    (h : (walkPass cfg lv c).1.1 = .ok) : leastTime (walkPass cfg lv c).2 = 59840 := by
  unfold walkPass searchFail at h ⊢
  rw [htm] at h ⊢
  split_ifs at h ⊢ with hexh hpres
  dsimp only at h ⊢
  split at h
  · next hw => rw [leastTime_append, leastTime_append, leastTime_resetTrace, leastTime_writeBytesTrace, leastTime_walkBits hw,
      List.length_singleton]
  · cases h

/-- VERIFY_ROM succeeds only if its pass does (R212). -/
theorem ok_of_verifyResult {rom : RomCode} {r : ResultCode × Cursor} (h : verifyResult rom r = .ok) : r.1 = .ok := by
  unfold verifyResult at h
  split at h
  · cases h
  · exact h

theorem leastTime_searchPass {i : Instr} (hi : IsSearch i) {s : State} (htm : s.cfg.timing = .standard) (h : codeOf i s = .ok) :
    leastTime (traceOf i s) = 59840 := by
  obtain rfl | rfl | rfl := hi
  · exact leastTime_walkPass htm h
  · exact leastTime_walkPass htm h
  · exact leastTime_walkPass htm (ok_of_verifyResult h)

theorem byteBits_length (v : Byte) : (byteBits v).length = 8 := rfl

theorem romBytes_length (c : RomCode) : (romBytes c).length = 8 := rfl

/-- READ_ROM with a device on the bus, and without (R290). -/
theorem leastTime_readRom {s : State} (htm : s.cfg.timing = .standard) :
    leastTime (traceOf .readRom s) = if s.presenceToCome then 24000 else 3840 := by
  rw [traceOf, htm]
  cases s.presenceToCome with
  | true =>
    rw [if_pos rfl, leastTime_append, leastTime_append, leastTime_resetTrace, leastTime_writeBytesTrace, leastTime_readBitsTrace,
      State.levels_length, List.length_singleton, if_pos rfl]
  | false => exact leastTime_resetTrace ..

/-- The bus time that a command adds to the trace, from the events that it adds. -/
theorem busTime_sub {s t : State} {es : List BusEvent} (h : t.env.trace = s.env.trace ++ es) :
    busTime t.env.trace - busTime s.env.trace = busTime es := by
  rw [h, busTime, List.map_append, List.sum_append]
  exact Nat.add_sub_cancel_left _ _

/-- Settles O42: a command that its checks let pass has the trace of its rule, whose phases last at least what the rule gives. -/
theorem nominalBusTimesAreLowerBounds : Obligations.NominalBusTimesAreLowerBounds := by
  intro i s t htm hs h took hres
  have hr := (exec_completed hs h).resets
  have hp : prologue i s = none := by
    by_contra hp
    obtain ⟨code, hp⟩ := Option.ne_none_iff_exists'.1 hp
    obtain ⟨he, -⟩ := exec_refused_ends hs.2 h hr hp
    exact hres (he.result.trans (prologue_cases hp).1)
  obtain ⟨he, -⟩ := exec_passed_ends hs.2 h hr hp
  obtain ⟨es, htr, hm⟩ := he.trace
  have htook : took = busTime es := busTime_sub htr
  have hleast := leastTime_le_busTime hm
  have hcode : t.flags.result = codeOf i s := he.result
  rw [htook]
  cases i with
  | reset | writeBit b | readBit | writeByte v | readByte | writeBlock n | readBlock n | writeRomCode =>
    simpa only [traceOf, htm, leastTime_resetTrace, leastTime_writeBitTrace, leastTime_readBitTrace, leastTime_writeBitsTrace,
      leastTime_readBitsTrace, leastTime_writeBytesTrace, byteBits_length, romBytes_length, State.levels_length, List.length_map,
      List.length_range, Nat.reduceMul, ← Nat.mul_assoc] using hleast
  | readRom =>
    have hpres : t.flags.present = s.presenceToCome := he.present
    rw [leastTime_readRom htm, ← hpres] at hleast
    revert hleast
    cases t.flags.present <;> exact id
  | searchFirst => exact fun hok => leastTime_searchPass (.inl rfl) htm (hcode.symm.trans hok) ▸ hleast
  | searchNext => exact fun hok => leastTime_searchPass (.inr (.inl rfl)) htm (hcode.symm.trans hok) ▸ hleast
  | verifyRom => exact fun hok => leastTime_searchPass (.inr (.inr rfl)) htm (hcode.symm.trans hok) ▸ hleast
  | crc8Step b | crc8Block n =>
    rw [traceOf, List.forall₂_nil_right_iff] at hm
    rw [hm]
    rfl

end Sys2Proof.Machine
end

section
/-! PROOF. What a search leaves in its cursor (R204 to R208): a code that has been tested, or a fresh cursor. -/

namespace Sys2Proof.Machine

/-! ## A pass and its cursor -/

/-- With EXH = 1 a pass has no bus activity (R208). -/
theorem walkPass_exhausted {cfg : Params} {lv : Nat → Bool} {c : Cursor} (h : c.exh = true) :
    walkPass cfg lv c = (searchFail c .notFound, []) := if_pos h

/-- Settles O55: the pass of an exhausted cursor is a failure with no trace. -/
theorem exhaustedSearchReportsOnce : Obligations.ExhaustedSearchReportsOnce := by
  intro s hs he hexh
  obtain ⟨-, hnext⟩ := searchNextRunsAPassFromTheCursor
  obtain ⟨t, ht, hb, hends⟩ := (hnext s hs).1 he
  rw [walkPass_exhausted hexh, if_pos hexh] at hends
  exact ⟨t, ht, hb, hends⟩

/-- The choice at position `k` records that position or nothing (R203). -/
theorem choose_lastZero {a c dir : Bool} {k : Nat} {p p' : Pass} (h : choose a c k p = some (dir, p')) :
    p'.lastZero = p.lastZero ∨ p'.lastZero = k := by
  by_cases hac : a = c
  · subst hac
    cases a with
    | true => cases h
    | false =>
      rw [choose_discrepancy] at h
      cases h
      split_ifs
      · exact .inl rfl
      · exact .inr rfl
  · rw [choose_of_ne hac] at h
    cases h
    exact .inl rfl

/-- The bit loop leaves EXH, and its last zero is one of the positions. -/
theorem walkBits_keeps (tm : Timing) (lv : Nat → Bool) {n k m : Nat} {p : Pass} (hk : k + n ≤ m + 1) (hp : p.lastZero ≤ m) :
    (walkBits tm lv n k p).2.1.cursor.exh = p.cursor.exh ∧ (walkBits tm lv n k p).2.1.lastZero ≤ m := by
  induction n generalizing k p with
  | zero => exact ⟨rfl, hp⟩
  | succ n ih =>
    unfold walkBits
    dsimp only
    split
    · exact ⟨rfl, hp⟩
    · next dir p' hc =>
      obtain ⟨-, hexh, -⟩ := choose_keeps hc
      have hz : (p'.turn k dir).lastZero ≤ m := by
        obtain h | h := choose_lastZero hc
        · exact h.trans_le hp
        · exact h.trans_le (by omega)
      obtain ⟨h1, h2⟩ := ih (k := k + 1) (p := p'.turn k dir) (by omega) hz
      exact ⟨h1.trans hexh, h2⟩

/-- A cursor that holds a code found: it passes both tests, and EXH says that LD is 0 (R204 to R206). -/
structure Found (t : ZeroTest) (c : Cursor) : Prop where
  valid : romValid c.srom = true
  nonzero : zeroTestHolds t c.srom = false
  exh : c.exh = true ↔ c.ld = 0

/-- A cursor from which a search starts over (R207). -/
structure StartsOver (c : Cursor) : Prop where
  ld : c.ld = 0
  lfd : c.lfd = 0
  exh : c.exh = false

theorem searchFail_startsOver (c : Cursor) (code : ResultCode) : StartsOver (searchFail c code).2 := ⟨rfl, rfl, rfl⟩

/-- The tests at the end of a pass (R204 to R206). -/
theorem searchEnd_cases (t : ZeroTest) {p : Pass} (hexh : p.cursor.exh = false) (hz : p.lastZero ≤ 64) :
    (searchEnd t p).1 = .ok ∧ Found t (searchEnd t p).2 ∨ (searchEnd t p).1 ≠ .ok ∧ StartsOver (searchEnd t p).2 := by
  unfold searchEnd
  split_ifs with hv ht
  · exact .inr ⟨nofun, searchFail_startsOver ..⟩
  · exact .inr ⟨nofun, searchFail_startsOver ..⟩
  · refine .inl ⟨rfl, by simpa using hv, by simpa using ht, ?_⟩
    have hld : BitVec.ofNat 7 p.lastZero = 0 ↔ p.lastZero = 0 := by
      rw [← BitVec.toNat_inj, BitVec.toNat_ofNat, Nat.mod_eq_of_lt (by omega)]
      rfl
    simp only [hexh, Bool.false_or, decide_eq_true_eq, hld]

/-- Every pass finds a code or starts the cursor over. -/
theorem walkPass_cases (cfg : Params) (lv : Nat → Bool) (c : Cursor) :
    (walkPass cfg lv c).1.1 = .ok ∧ Found cfg.zeroTest (walkPass cfg lv c).1.2 ∨
      (walkPass cfg lv c).1.1 ≠ .ok ∧ StartsOver (walkPass cfg lv c).1.2 := by
  unfold walkPass
  split_ifs with hexh
  · exact .inr ⟨nofun, searchFail_startsOver ..⟩
  · exact .inr ⟨nofun, searchFail_startsOver ..⟩
  · dsimp only
    split
    · obtain ⟨h1, h2⟩ := walkBits_keeps cfg.timing lv (n := 64) (k := 1) (m := 64) (p := { cursor := c, lastZero := 0 }) (by decide)
        (Nat.zero_le 64)
      exact searchEnd_cases cfg.zeroTest (h1.trans (Bool.eq_false_iff.2 hexh)) h2
    · exact .inr ⟨nofun, searchFail_startsOver ..⟩

/-- Settles O57: both commands leave the result and the cursor of their pass, and FOUND says whether the result is OK. -/
theorem searchLeavesAFoundCodeOrAFreshCursor : Obligations.SearchLeavesAFoundCodeOrAFreshCursor := by
  intro i s t hi hl h hr hen
  have hp : prologue i s = none := by obtain rfl | rfl := hi <;> exact prologue_of_enabled hen nofun
  obtain ⟨he, -⟩ := exec_passed_ends hl h hr hp
  have hres : t.flags.result = (searchPass i s).1.1 := he.result.trans (by obtain rfl | rfl := hi <;> rfl)
  have hcur : t.cursor = (searchPass i s).1.2 := he.cursor.trans (by obtain rfl | rfl := hi <;> rfl)
  have hfound : t.flags.found = ((searchPass i s).1.1 == .ok) := he.found.trans (by obtain rfl | rfl := hi <;> rfl)
  rw [hres, hcur, hfound]
  obtain ⟨hok, hf⟩ | ⟨hok, hf⟩ := walkPass_cases s.cfg s.upcoming (searchStart i s)
  · exact ⟨fun _ => ⟨beq_iff_eq.2 hok, hf.valid, hf.nonzero, hf.exh⟩, fun hne => absurd hok hne⟩
  · exact ⟨fun h => absurd h hok, fun _ => ⟨beq_eq_false_iff_ne.2 hok, hf.ld, hf.lfd, hf.exh⟩⟩

end Sys2Proof.Machine
end

section
/-! PROOF. The search on the reference bus (95_test_vectors.md section 2; 43_search.md R212, R213). The devices that still answer at
position `k` are those that agree with the walk below `k`, so the walk never meets the pair (1, 1) and ends at a device; at a
discrepancy it takes the direction of R203. From that alone follows which device it is. -/

namespace Sys2Proof.Machine

/-! ## Codes by position -/

/-- A code is determined by its 64 positions (R13). -/
theorem eq_of_agreeBelow {x y : RomCode} (h : agreeBelow x y 65) : x = y :=
  BitVec.eq_of_getLsbD_eq fun i hi => h (i + 1) (Nat.le_add_left 1 i) (by omega)

theorem agreeBelow_refl (x : RomCode) (k : Nat) : agreeBelow x x k := fun _ _ _ => rfl

theorem agreeBelow.symm {x y : RomCode} {k : Nat} (h : agreeBelow x y k) : agreeBelow y x k := fun j h1 h2 => (h j h1 h2).symm

theorem agreeBelow.trans {x y z : RomCode} {k : Nat} (h : agreeBelow x y k) (h' : agreeBelow y z k) : agreeBelow x z k :=
  fun j h1 h2 => (h j h1 h2).trans (h' j h1 h2)

theorem agreeBelow.mono {x y : RomCode} {k m : Nat} (h : agreeBelow x y k) (hm : m ≤ k) : agreeBelow x y m :=
  fun j h1 h2 => h j h1 (h2.trans_le hm)

theorem agreeBelow_succ {x y : RomCode} {k : Nat} (hk : 1 ≤ k) :
    agreeBelow x y (k + 1) ↔ agreeBelow x y k ∧ rombit x k = rombit y k := by
  refine ⟨fun h => ⟨h.mono (Nat.le_succ k), h k hk (Nat.lt_succ_self k)⟩, fun ⟨h, hb⟩ j h1 h2 => ?_⟩
  obtain hj | rfl := Nat.lt_succ_iff_lt_or_eq.1 h2
  · exact h j h1 hj
  · exact hb

/-- Two codes have a first position at which they differ. -/
theorem exists_first_difference {x y : RomCode} (h : x ≠ y) :
    ∃ k, 1 ≤ k ∧ k ≤ 64 ∧ agreeBelow x y k ∧ rombit x k ≠ rombit y k := by
  have hex : ∃ k, 1 ≤ k ∧ k ≤ 64 ∧ rombit x k ≠ rombit y k := by
    by_contra hn
    push Not at hn
    exact h (eq_of_agreeBelow fun j h1 h2 => hn j h1 (by omega))
  obtain ⟨h1, h64, hd⟩ := Nat.find_spec hex
  refine ⟨Nat.find hex, h1, h64, fun j hj1 hj => ?_, hd⟩
  by_contra hne
  exact Nat.find_min hex hj ⟨hj1, by omega, hne⟩

/-- Below `k` a code is as before bit `k` is set, and at `k` it has the bit (R13). -/
theorem agreeBelow_setrombit {d c : RomCode} {k : Nat} (hk : 1 ≤ k) (hk64 : k ≤ 64) (b : Bool) :
    agreeBelow d (setrombit c k b) (k + 1) ↔ agreeBelow d c k ∧ rombit d k = b := by
  have hbit : ∀ j, 1 ≤ j → j ≤ k → rombit (setrombit c k b) j = if j = k then b else rombit c j := fun j h1 h2 =>
    rombit_setrombit c k j b ⟨hk, hk64⟩ ⟨h1, h2.trans hk64⟩
  rw [agreeBelow_succ hk, hbit k hk (Nat.le_refl k), if_pos rfl]
  refine and_congr_left fun _ => forall_congr' fun j => forall_congr' fun h1 => forall_congr' fun h2 => ?_
  rw [hbit j h1 h2.le, if_neg h2.ne]

/-! ## One position on the reference bus -/

/-- Some device shares the walk to `x` below position `k` and parts from it there. -/
def discrepancyAt (devices : List RomCode) (x : RomCode) (k : Nat) : Prop :=
  1 ≤ k ∧ k ≤ 64 ∧ ∃ d ∈ devices, agreeBelow d x k ∧ rombit d k ≠ rombit x k

/-- A branch left for later is a discrepancy. -/
theorem branchAt.discrepancyAt {devices : List RomCode} {x : RomCode} {k : Nat} (h : branchAt devices x k) :
    Machine.discrepancyAt devices x k := by
  obtain ⟨h1, h64, hx, d, hd, ha, hb⟩ := h
  exact ⟨h1, h64, d, hd, ha, by simp [hb, hx]⟩

/-- What the pair of position `k` leads to with the devices `active` still answering: some of them take the direction; if others do
not, it is that of R203, and a zero is recorded exactly then. -/
structure TurnsTo (active : List RomCode) (k : Nat) (p : Pass) (dir : Bool) (p' : Pass) : Prop where
  taken : ∃ d ∈ active, rombit d k = dir
  parted : ∀ d ∈ active, rombit d k ≠ dir → dir = discrepancyDir p.cursor k ∧ (dir = false → p'.lastZero = k)
  zero : p'.lastZero = p.lastZero ∨ (p'.lastZero = k ∧ dir = false ∧ ∃ d ∈ active, rombit d k = true)

/-- As long as a device answers there is a direction (R17, R201, R203). -/
theorem choose_ref {active : List RomCode} (hne : active ≠ []) (k : Nat) (p : Pass) :
    ∃ dir p', choose (active.all fun d => rombit d k) (active.all fun d => !rombit d k) k p = some (dir, p') ∧
      TurnsTo active k p dir p' := by
  obtain ⟨d, hd⟩ := List.exists_mem_of_ne_nil active hne
  cases h1 : active.all fun d => rombit d k with
  | true =>
    have hall := List.all_eq_true.1 h1
    have h0 : (active.all fun d => !rombit d k) = false := List.all_eq_false.2 ⟨d, hd, by simp [hall d hd]⟩
    rw [h0]
    exact ⟨true, p, rfl, ⟨d, hd, hall d hd⟩, fun e he hne => absurd (hall e he) hne, .inl rfl⟩
  | false =>
    cases h0 : active.all fun d => !rombit d k with
    | true =>
      have hall : ∀ e ∈ active, rombit e k = false := fun e he => by simpa using List.all_eq_true.1 h0 e he
      exact ⟨false, p, rfl, ⟨d, hd, hall d hd⟩, fun e he hne => absurd (hall e he) hne, .inl rfl⟩
    | false =>
      obtain ⟨d0, hd0, hb0⟩ := List.all_eq_false.1 h1
      obtain ⟨d1, hd1, hb1⟩ := List.all_eq_false.1 h0
      replace hb0 : rombit d0 k = false := by simpa using hb0
      replace hb1 : rombit d1 k = true := by simpa using hb1
      rw [choose_discrepancy]
      cases hdir : discrepancyDir p.cursor k with
      | true => exact ⟨true, p, rfl, ⟨d1, hd1, hb1⟩, fun _ _ _ => ⟨hdir.symm, nofun⟩, .inl rfl⟩
      | false =>
        exact ⟨false, p.recordZero k, rfl, ⟨d0, hd0, hb0⟩, fun _ _ _ => ⟨hdir.symm, fun _ => rfl⟩, .inr ⟨rfl, rfl, d1, hd1, hb1⟩⟩

/-! ## A walk on the reference bus -/

/-- From the `m`-th level on the line has these levels. -/
def Supplies (lv : Nat → Bool) (m : Nat) (l : List Bool) : Prop := ∀ i b, l[i]? = some b → lv (m + i) = b

theorem Supplies.head {lv : Nat → Bool} {m : Nat} {b : Bool} {l : List Bool} (h : Supplies lv m (b :: l)) : lv m = b := h 0 b rfl

theorem Supplies.tail {lv : Nat → Bool} {m : Nat} {b : Bool} {l : List Bool} (h : Supplies lv m (b :: l)) : Supplies lv (m + 1) l :=
  fun i c hc => by
    rw [Nat.add_assoc, Nat.add_comm 1]
    exact h (i + 1) c hc

/-- A walk from the pass `p` at position `k` has ended with the pass `q`: at a device, which agrees with `p` below `k`, has the
direction of R203 at every discrepancy, and the last zero at the last branch left for later. -/
structure WalksTo (devices : List RomCode) (k : Nat) (p q : Pass) : Prop where
  mem : q.cursor.srom ∈ devices
  agree : agreeBelow q.cursor.srom p.cursor.srom k
  dir : ∀ j, k ≤ j → discrepancyAt devices q.cursor.srom j → rombit q.cursor.srom j = discrepancyDir p.cursor j
  zero : q.lastZero = p.lastZero ∨ (k ≤ q.lastZero ∧ branchAt devices q.cursor.srom q.lastZero)
  last : ∀ j, k ≤ j → q.lastZero < j → ¬ branchAt devices q.cursor.srom j

/-- The direction of a later position does not depend on what a position writes (R203). -/
theorem discrepancyDir_turn {a c dir : Bool} {k j : Nat} {p p' : Pass} (h : choose a c k p = some (dir, p')) (hk : 1 ≤ k) (hj : k < j)
    (hj64 : j ≤ 64) : discrepancyDir (p'.turn k dir).cursor j = discrepancyDir p.cursor j := by
  obtain ⟨hld, -, hsrom⟩ := choose_keeps h
  have hbit : rombit (setrombit p'.cursor.srom k dir) j = rombit p'.cursor.srom j :=
    (rombit_setrombit p'.cursor.srom k j dir ⟨hk, by omega⟩ ⟨by omega, hj64⟩).trans (if_neg hj.ne')
  unfold discrepancyDir Pass.turn
  dsimp only
  rw [hbit, hld, hsrom]

/-- One position, then the rest of the walk. -/
theorem WalksTo.of_turn {devices active : List RomCode} {a c dir : Bool} {k : Nat} {p p' q : Pass}
    (hc : choose a c k p = some (dir, p')) (ht : TurnsTo active k p dir p') (hk : 1 ≤ k) (hk64 : k ≤ 64)
    (hact : ∀ d, d ∈ active ↔ d ∈ devices ∧ agreeBelow d p.cursor.srom k) (hw : WalksTo devices (k + 1) (p'.turn k dir) q) :
    WalksTo devices k p q := by
  obtain ⟨-, -, hsrom⟩ := choose_keeps hc
  obtain ⟨hag, hbit⟩ := (agreeBelow_setrombit hk hk64 dir).1 hw.agree
  rw [hsrom] at hag
  have hparted : discrepancyAt devices q.cursor.srom k → dir = discrepancyDir p.cursor k ∧ (dir = false → p'.lastZero = k) := by
    rintro ⟨-, -, d, hd, hda, hdb⟩
    exact ht.parted d ((hact d).2 ⟨hd, hda.trans hag⟩) (hbit ▸ hdb)
  refine ⟨hw.mem, hag, fun j hj hdis => ?_, ?_, fun j hj hlt hb => ?_⟩
  · obtain rfl | hlt := hj.eq_or_lt
    · exact hbit.trans (hparted hdis).1
    · exact (hw.dir j hlt hdis).trans (discrepancyDir_turn hc hk hlt hdis.2.1)
  · obtain hz | ⟨hle, hb⟩ := hw.zero
    · obtain hz' | ⟨hz', hdir, d, hd, hdb⟩ := ht.zero
      · exact .inl (hz.trans hz')
      · have hqk : q.lastZero = k := hz.trans hz'
        obtain ⟨hdm, hda⟩ := (hact d).1 hd
        exact .inr ⟨hqk.ge, hqk ▸ ⟨hk, hk64, hbit.trans hdir, d, hdm, hda.trans hag.symm, hdb⟩⟩
    · exact .inr ⟨by omega, hb⟩
  · obtain rfl | hjk := hj.eq_or_lt
    · have hdis := hb.discrepancyAt
      obtain ⟨-, -, hx, -⟩ := hb
      have hz : p'.lastZero = k := (hparted hdis).2 (hbit.symm.trans hx)
      obtain hq | ⟨hq, -⟩ := hw.zero
      · exact absurd (hq.trans hz) (by omega)
      · omega
    · exact hw.last j hjk hlt hb

/-- The bit loop over the pairs of the devices that agree with the pass below `k` (R17, R202). -/
theorem walkBits_ref {devices active : List RomCode} {tm : Timing} {lv : Nat → Bool} {n k : Nat} {p : Pass} (hk : 1 ≤ k)
    (hn : k + n = 65) (hne : active ≠ []) (hact : ∀ d, d ∈ active ↔ d ∈ devices ∧ agreeBelow d p.cursor.srom k)
    (hlv : Supplies lv (2 * k) (refPairs n k active p)) :
    (walkBits tm lv n k p).1 = true ∧ WalksTo devices k p (walkBits tm lv n k p).2.1 := by
  induction n generalizing k p active with
  | zero =>
    obtain ⟨d, hd⟩ := List.exists_mem_of_ne_nil active hne
    obtain ⟨hdm, hda⟩ := (hact d).1 hd
    obtain rfl : k = 65 := hn
    refine ⟨rfl, eq_of_agreeBelow hda ▸ hdm, agreeBelow_refl _ _, fun j hj hdis => ?_, .inl rfl, fun j hj _ hb => ?_⟩
    · exact absurd hdis.2.1 (by omega)
    · exact absurd hb.2.1 (by omega)
  | succ n ih =>
    have hk64 : k ≤ 64 := by omega
    obtain ⟨dir, p', hc, ht⟩ := choose_ref hne k p
    unfold refPairs at hlv
    simp only [hc] at hlv
    have ha : lv (2 * k) = _ := hlv.head
    have hb : lv (2 * k + 1) = _ := hlv.tail.head
    unfold walkBits
    simp only [ha, hb, hc]
    obtain ⟨-, -, hsrom⟩ := choose_keeps hc
    have hact' : ∀ d, (d ∈ active.filter fun d => rombit d k == dir) ↔ d ∈ devices ∧ agreeBelow d (p'.turn k dir).cursor.srom (k + 1) :=
      fun d => by
        rw [List.mem_filter, hact, beq_iff_eq, and_assoc, Pass.turn, agreeBelow_setrombit hk hk64, hsrom]
    have hne' : (active.filter fun d => rombit d k == dir) ≠ [] := by
      obtain ⟨d, hd, hdb⟩ := ht.taken
      exact List.ne_nil_of_mem (List.mem_filter.2 ⟨hd, beq_iff_eq.2 hdb⟩)
    obtain ⟨hend, hw⟩ := ih (by omega) (by omega) hne' hact' hlv.tail.tail
    exact ⟨hend, .of_turn hc ht hk hk64 hact hw⟩

/-! ## A pass on the reference bus -/

/-- A pass from the cursor `c` has found a device: it leaves the cursor at it, and at every discrepancy the device has the direction of
R203. -/
structure Finds (devices : List RomCode) (c : Cursor) (r : ResultCode × Cursor) : Prop where
  ok : r.1 = .ok
  atDevice : CursorAt devices r.2
  dir : ∀ j, discrepancyAt devices r.2.srom j → rombit r.2.srom j = discrepancyDir c j

/-- The end of a walk that has found a good device (R204 to R206). -/
theorem searchEnd_ref {t : ZeroTest} {devices : List RomCode} {c : Cursor} {q : Pass} (hg : GoodDevices t devices)
    (hw : WalksTo devices 1 { cursor := c, lastZero := 0 } q) (hexh : q.cursor.exh = false) (hz : q.lastZero ≤ 64) :
    Finds devices c (searchEnd t q) := by
  obtain ⟨hv, hnz⟩ := hg.2 _ hw.mem
  have hend : searchEnd t q = (.ok, { q.cursor with ld := BitVec.ofNat 7 q.lastZero, exh := decide (q.lastZero = 0) }) := by
    simp [searchEnd, hv, hnz, hexh]
  have hld : (BitVec.ofNat 7 q.lastZero).toNat = q.lastZero := by
    rw [BitVec.toNat_ofNat]
    omega
  rw [hend]
  refine ⟨rfl, ⟨hw.mem, ?_, ?_, ?_⟩, fun j hj => hw.dir j hj.1 hj⟩
  · rw [hld]
    exact hw.zero.imp id And.right
  · intro j hlt hb
    rw [hld] at hlt
    exact hw.last j hb.1 hlt hb
  · rw [hld]

/-- A pass over the levels of the reference bus, from a cursor that is not exhausted (R202). -/
theorem walkPass_ref {cfg : Params} {lv : Nat → Bool} {devices : List RomCode} {c : Cursor} (hg : GoodDevices cfg.zeroTest devices)
    (hexh : c.exh = false) (hlv : Supplies lv 0 (refPass devices c)) : Finds devices c (walkPass cfg lv c).1 := by
  have h0 : lv 0 = false := hlv.head
  have h1 : lv 1 = true := hlv.tail.head
  obtain ⟨hend, hw⟩ := walkBits_ref (tm := cfg.timing) (k := 1) (n := 64) (p := { cursor := c, lastZero := 0 }) (Nat.le_refl 1) rfl hg.1
    (fun d => ⟨fun hd => ⟨hd, fun j hj hj1 => absurd hj1 (by omega)⟩, And.left⟩) hlv.tail.tail
  obtain ⟨hqexh, hqz⟩ := walkBits_keeps cfg.timing lv (n := 64) (k := 1) (m := 64) (p := { cursor := c, lastZero := 0 }) (by decide)
    (Nat.zero_le 64)
  unfold walkPass
  simp only [hexh, h0, h1, hend]
  exact searchEnd_ref hg hw (hqexh.trans hexh) hqz

/-- The levels to come are those that the environment's list begins with (R9). -/
theorem supplies_of_line {s : State} {l : List Bool} (h : l <+: s.env.line) : Supplies s.upcoming 0 l := fun i b hb => by
  obtain ⟨m, hm⟩ := h
  have hi : s.env.line[i]? = some b := by
    rw [← hm, List.getElem?_append_left (List.getElem?_eq_some_iff.1 hb).1, hb]
  rw [Nat.zero_add, State.upcoming, List.headD_eq_head?_getD, List.head?_drop, hi]
  rfl

/-! ## Which device it is -/

/-- A device that is not the one found parts from it at a discrepancy, where the one found has the direction of R203. -/
theorem Finds.parts {devices : List RomCode} {c : Cursor} {r : ResultCode × Cursor} (h : Finds devices c r) {d : RomCode}
    (hd : d ∈ devices) (hne : d ≠ r.2.srom) :
    ∃ k, 1 ≤ k ∧ k ≤ 64 ∧ agreeBelow d r.2.srom k ∧ rombit r.2.srom k = discrepancyDir c k ∧
      rombit d k = !discrepancyDir c k := by
  obtain ⟨k, h1, h64, ha, hb⟩ := exists_first_difference hne
  have hdir := h.dir k ⟨h1, h64, d, hd, ha, hb⟩
  exact ⟨k, h1, h64, ha, hdir, by rw [← hdir]; exact Bool.eq_not.2 hb⟩

/-- Two codes that part at a position, the first with 0 there (R213). -/
theorem earlier_of_parts {x y : RomCode} {k : Nat} (h1 : 1 ≤ k) (h64 : k ≤ 64) (ha : agreeBelow y x k) (hx : rombit x k = false)
    (hy : rombit y k = true) : earlier x y := ⟨k, h1, h64, ha.symm, hx, hy⟩

/-- Settles O58: from the fresh cursor every discrepancy is taken with 0, so the device found comes before every other. -/
theorem searchFirstFindsTheEarliestDevice : Obligations.SearchFirstFindsTheEarliestDevice := by
  intro s devices hg hs he hline
  obtain ⟨-, hfirst⟩ := searchFirstRunsAFreshPass
  obtain ⟨t, ht, -, hends⟩ := (hfirst s hs).1 he
  have hf := walkPass_ref (cfg := s.cfg) hg rfl (supplies_of_line hline)
  have hcur : t.cursor = (walkPass s.cfg s.upcoming (Cursor.fresh 0)).1.2 := hends.cursor
  refine ⟨t, ht, hends.result.trans hf.ok, hends.found.trans (beq_iff_eq.2 hf.ok), hcur ▸ hf.atDevice, fun d hd => ?_⟩
  rw [hcur, or_iff_not_imp_left]
  intro hne
  obtain ⟨k, h1, h64, ha, hx, hb⟩ := hf.parts hd hne
  have hdir : discrepancyDir (Cursor.fresh 0) k = false := discrepancyDir_after (c := Cursor.fresh 0) h1
  rw [hdir] at hx hb
  exact earlier_of_parts h1 h64 ha hx hb

/-- A device later than that of the cursor is down a branch left for later. -/
theorem branchAt_of_earlier {devices : List RomCode} {x d : RomCode} (hd : d ∈ devices) (h : earlier x d) :
    ∃ k, branchAt devices x k ∧ agreeBelow d x k ∧ rombit d k = true := by
  obtain ⟨k, h1, h64, ha, hx, hb⟩ := h
  exact ⟨k, ⟨h1, h64, hx, d, hd, ha.symm, hb⟩, ha.symm, hb⟩

/-- A cursor is exhausted exactly at the last device (R206). -/
theorem CursorAt.exh_iff {devices : List RomCode} {c : Cursor} (h : CursorAt devices c) :
    c.exh = true ↔ ∀ d ∈ devices, ¬ earlier c.srom d := by
  obtain ⟨-, hld, hlast, hexh⟩ := h
  rw [hexh, decide_eq_true_eq]
  refine ⟨fun h0 d hd hlt => ?_, fun hnone => ?_⟩
  · obtain ⟨k, hb, -⟩ := branchAt_of_earlier hd hlt
    exact hlast k (h0 ▸ hb.1) hb
  · refine hld.resolve_right fun hb => ?_
    obtain ⟨h1, h64, hx, d, hd, ha, hb⟩ := hb
    exact hnone d hd (earlier_of_parts h1 h64 ha hx hb)

/-- From a cursor at a device the walk keeps to it below LD and turns to the branch left there (R203). -/
theorem Finds.turns_at_ld {devices : List RomCode} {c : Cursor} {r : ResultCode × Cursor} (h : Finds devices c r)
    (hc : c.srom ∈ devices) (hb : branchAt devices c.srom c.ld.toNat) :
    agreeBelow c.srom r.2.srom c.ld.toNat ∧ rombit r.2.srom c.ld.toNat = true := by
  obtain ⟨h1, h64, hx, e, he, hea, heb⟩ := hb
  have hag : agreeBelow c.srom r.2.srom c.ld.toNat := by
    by_cases hne : c.srom = r.2.srom
    · exact hne ▸ agreeBelow_refl _ _
    · obtain ⟨k, -, -, ha, hbit, hcbit⟩ := h.parts hc hne
      refine ha.mono (not_lt.1 fun hlt => ?_)
      rw [discrepancyDir_before hlt] at hcbit
      exact (Bool.eq_not_self _).1 hcbit
  refine ⟨hag, ?_⟩
  by_contra hbit
  refine hbit ((h.dir _ ⟨h1, h64, e, he, hea.trans hag, ?_⟩).trans (discrepancyDir_at rfl))
  rw [heb]
  exact fun heq => hbit heq.symm

/-- Of the devices later than the cursor's, the one found is the first. -/
theorem Finds.next {devices : List RomCode} {c : Cursor} {r : ResultCode × Cursor} (h : Finds devices c r) (hc : CursorAt devices c)
    (hexh : c.exh = false) :
    earlier c.srom r.2.srom ∧ ∀ d ∈ devices, earlier c.srom d → d = r.2.srom ∨ earlier r.2.srom d := by
  obtain ⟨hmem, hld, hlast, hce⟩ := hc
  have hb : branchAt devices c.srom c.ld.toNat := hld.resolve_left fun h0 => by simp [hce, h0] at hexh
  obtain ⟨hag, hbit⟩ := h.turns_at_ld hmem hb
  obtain ⟨h1, h64, hx, -⟩ := hb
  refine ⟨⟨c.ld.toNat, h1, h64, hag, hx, hbit⟩, fun d hd hlater => ?_⟩
  rw [or_iff_not_imp_left]
  intro hne
  obtain ⟨k, hk1, hk64, ha, hrk, hdk⟩ := h.parts hd hne
  obtain ⟨m, hbm, hdm, hdmb⟩ := branchAt_of_earlier hd hlater
  have hm : m ≤ c.ld.toNat := not_lt.1 fun hlt => hlast m hlt hbm
  obtain ⟨hm1, -, hcm, -⟩ := hbm
  obtain hlt | hle := Nat.lt_or_ge c.ld.toNat k
  · rw [discrepancyDir_after hlt] at hrk hdk
    exact earlier_of_parts hk1 hk64 ha hrk hdk
  · obtain rfl : k = m := by
      refine le_antisymm (not_lt.1 fun hmk => ?_) (not_lt.1 fun hkm => ?_)
      · have heq : rombit d m = rombit c.srom m := (ha m hm1 hmk).trans (hag m hm1 (hmk.trans_le hle)).symm
        exact Bool.false_ne_true (hcm.symm.trans (heq.symm.trans hdmb))
      · have heq : rombit d k = rombit r.2.srom k := (hdm k hk1 hkm).trans (hag k hk1 (hkm.trans_le hm))
        rw [hdk, hrk] at heq
        exact (Bool.not_eq_self _).1 heq
    have hdir : discrepancyDir c k = false := by simpa [hdmb] using hdk
    exact earlier_of_parts hk1 hk64 ha (hrk.trans hdir) hdmb

/-- Settles O59: a cursor at a device is exhausted at the last, and otherwise the walk turns to the last branch left for later, where the
next device is. -/
theorem searchNextFindsTheNextDevice : Obligations.SearchNextFindsTheNextDevice := by
  intro s devices hg hc
  refine ⟨hc.exh_iff, fun hs he hexh hline => ?_⟩
  obtain ⟨-, hnext⟩ := searchNextRunsAPassFromTheCursor
  obtain ⟨t, ht, -, hends⟩ := (hnext s hs).1 he
  have hf := walkPass_ref (cfg := s.cfg) hg hexh (supplies_of_line hline)
  have hcur : t.cursor = (walkPass s.cfg s.upcoming s.cursor).1.2 := hends.cursor
  exact ⟨t, ht, hends.result.trans hf.ok, hends.found.trans (beq_iff_eq.2 hf.ok), hcur ▸ hf.atDevice, hcur ▸ hf.next hc hexh⟩

/-! ## VERIFY_ROM -/

/-- Valid codes do not part at position 64 alone: byte 7 is the CRC of the others (R182). -/
theorem eq_of_agreeBelow_64 {x y : RomCode} (hx : romValid x = true) (hy : romValid y = true) (h : agreeBelow x y 64) : x = y := by
  have hbyte : ∀ j, j < 7 → romByte x j = romByte y j := fun j hj => BitVec.eq_of_getLsbD_eq fun i hi => by
    rw [romByte_getLsbD _ _ _ hi, romByte_getLsbD _ _ _ hi]
    exact h (8 * j + i + 1) (Nat.le_add_left 1 _) (by omega)
  have hlast : romByte x 7 = romByte y 7 := by
    rw [(validCodesCarryTheirCrc x).1 hx, (validCodesCarryTheirCrc y).1 hy]
    exact congrArg (crc8Bytes 0) (List.map_congr_left fun j hj => hbyte j (List.mem_range.1 hj))
  refine eq_of_romByte_eq fun j hj => ?_
  obtain hlt | rfl := Nat.lt_succ_iff_lt_or_eq.1 hj
  · exact hbyte j hlt
  · exact hlast

/-- A walk that follows the code of a device at every discrepancy but the last position ends at that device (R212). -/
theorem Finds.eq_of_mem {t : ZeroTest} {devices : List RomCode} {rom : RomCode} {r : ResultCode × Cursor}
    (h : Finds devices (verifyCursor rom) r) (hg : GoodDevices t devices) (hrom : rom ∈ devices) : r.2.srom = rom := by
  by_contra hne
  obtain ⟨k, h1, h64, ha, hr, hb⟩ := h.parts hrom (Ne.symm hne)
  have hk : k = 64 := by
    by_contra hk
    rw [discrepancyDir_before (c := verifyCursor rom) (show k < 64 by omega)] at hb
    exact (Bool.eq_not_self _).1 hb
  subst hk
  exact hne (eq_of_agreeBelow_64 (hg.2 _ hrom).1 (hg.2 _ h.atDevice.1).1 ha).symm

/-- The compare after such a pass, with the code on the bus and without it. -/
theorem Finds.verifyResult_of_mem {t : ZeroTest} {devices : List RomCode} {rom : RomCode} {r : ResultCode × Cursor}
    (h : Finds devices (verifyCursor rom) r) (hg : GoodDevices t devices) (hrom : rom ∈ devices) : verifyResult rom r = .ok := by
  rw [verifyResult_eq, if_neg fun hr => hr.2 (h.eq_of_mem hg hrom), h.ok]

theorem Finds.verifyResult_of_not_mem {devices : List RomCode} {rom : RomCode} {c : Cursor} {r : ResultCode × Cursor}
    (h : Finds devices c r) (hrom : rom ∉ devices) : verifyResult rom r = .notFound := by
  rw [verifyResult_eq, if_pos ⟨h.ok, fun hr => hrom (hr ▸ h.atDevice.1)⟩]

/-- Settles O60: the pass finds a device, which is the one in ROM if that is on the bus and another if not. -/
theorem verifyRomFindsExactlyThePresentDevice : Obligations.VerifyRomFindsExactlyThePresentDevice := by
  intro s devices hg hs he hline
  obtain ⟨t, ht, -, hends⟩ := exec_completes (i := .verifyRom) hs (prologue_of_enabled he nofun) (fun _ hd => bodyVerifyRom_ends hd) rfl rfl
  have hf : Finds devices (verifyCursor s.rom) (walkPass s.cfg s.upcoming (verifyCursor s.rom)).1 :=
    walkPass_ref (cfg := s.cfg) hg rfl (supplies_of_line hline)
  refine ⟨t, ht, hends.rom, hends.cursor, fun hrom => ?_, fun hrom => ?_⟩
  · have hcode := hf.verifyResult_of_mem hg hrom
    exact ⟨hends.result.trans hcode, hends.found.trans (beq_iff_eq.2 hcode)⟩
  · have hcode := hf.verifyResult_of_not_mem hrom
    exact ⟨hends.result.trans hcode, hends.found.trans (by rw [hcode]; rfl)⟩

end Sys2Proof.Machine
end
